-- ==== Sys2Proof/Word.lean ====
section
/-! DEFINITION. The byte, and the processor mode that fixes the widths (10_state R10, D4). -/

namespace Sys2Proof

/-- One byte of memory, of the program text, or of an operand (R30, R60). -/
abbrev Byte := BitVec 8

/-- `MODE` in {16, 32, 64} (R6, R10): which register tables exist and how wide addresses are. -/
inductive Mode
  | m16 | m32 | m64
deriving DecidableEq, Repr

/-- `MODE` as a number of bits; `ADDR_BITS = MODE` (R30). -/
def Mode.bits : Mode → Nat
  | .m16 => 16
  | .m32 => 32
  | .m64 => 64

end Sys2Proof
end

