-- ==== Sys2Proof/Syntax.lean ====
section
/-! DEFINITION. Operands and the seventeen operations of spec/opcode_table.json (R60, R62, R65). -/

namespace Sys2Proof

/-- The constant of `Imm(w, v)`, `w` in {8, 16, 32, 64} (R62). -/
inductive ImmValue
  | imm8 (v : BitVec 8)
  | imm16 (v : BitVec 16)
  | imm32 (v : BitVec 32)
  | imm64 (v : BitVec 64)
deriving DecidableEq, Repr

/-- The abstract operand of R62, after resolution: `Imm(w, v)`, `Reg(id)` or `Mem(a, s)`. -/
inductive Operand
  | imm (v : ImmValue)
  | reg (id : BitVec 16)
  | mem (addr : BitVec 64) (size : Nat)
deriving DecidableEq, Repr

/-- What `OPERAND_CODEC.decode` returns before resolution (R62, log 6). -/
inductive OperandSyntax
  /-- An operand that stands as it is, whatever the state: `resolve` is the identity on it. -/
  | absolute (op : Operand)
  /-- A form whose resolution depends on the state in a way only the real codec knows
  (a base, an index, a displacement, a segment). -/
  | computed (tag : Nat)
  /-- A shape that is no `Imm`, `Reg` or `Mem` (a typed variable, a symbol). -/
  | foreign (tag : Nat)
deriving DecidableEq, Repr

/-- One operand of an operation: the bytes that spell it in the stream and the syntax they decode to.
The bytes are kept because their number is part of the operation's length (R68). -/
structure EncodedOperand where
  text : List Byte
  syn  : OperandSyntax
deriving DecidableEq, Repr

/-- The operations, one constructor per row of spec/opcode_table.json, operands in stream order
with the source's names (R65). `portIn` and `portOut` are IN and OUT. -/
inductive Instr
  | cpuid (function result : EncodedOperand)
  | cpuidExt (function subfunction result : EncodedOperand)
  | portIn (dest port : EncodedOperand)
  | portOut (port value : EncodedOperand)
  | cli
  | sti
  | invd
  | wbinvd
  | lgdt (src : EncodedOperand)
  | lidt (src : EncodedOperand)
  | lldt (src : EncodedOperand)
  | ltr (src : EncodedOperand)
  | invlpg (addr : EncodedOperand)
  | rdmsr (ecxValue result : EncodedOperand)
  | wrmsr (ecxValue edxEax : EncodedOperand)
  | rdpmc (ecxValue result : EncodedOperand)
  | rdtsc (result : EncodedOperand)
deriving DecidableEq, Repr

end Sys2Proof
end

