-- ==== Sys2Proof/Config.lean ====
section
/-! DEFINITION. The launch parameters of R6 as plain data, and the model's free values.
A parameter that is a function is a finite list of rules, first match first, over the spec's own
default (log 5); its domain is finite, so every function of the spec's type is such a list.
What has no body here is a free value: nothing constrains it. -/

namespace Sys2Proof

/-- The processing unit `PU_TYPE` names (R2). -/
inductive PuType
  | cpu | other
deriving DecidableEq, Repr

/-- The architecture `ARCH_TYPE` names (R2). -/
inductive ArchType
  | x86 | other
deriving DecidableEq, Repr

/-- The two privilege levels (R26, R139). -/
inductive Priv
  | user | supervisor
deriving DecidableEq, Repr

/-- `ALIGN_POLICY` (R43). -/
inductive AlignPolicy
  | strict | free
deriving DecidableEq, Repr

/-- `CLOBBER` (R16). -/
inductive ClobberPolicy
  | draw | preserve
deriving DecidableEq, Repr

/-- The direction of a memory request (R55). -/
inductive AccessKind
  | read | write
deriving DecidableEq, Repr

/-- One row of an operand codec given as a table: bytes that begin with `text` decode to `syn`,
which used `len` of them. -/
structure CodecRow where
  text : List Byte
  len  : Nat
  syn  : OperandSyntax
deriving DecidableEq, Repr

/-- `OPERAND_CODEC` (R62, D3), open in the spec (log 6). -/
inductive Codec
  /-- The real codec, of which the source says nothing: an opaque function (`Config.realCodec`). -/
  | real
  /-- `TESTCODEC` of Definition T1, the spec's stand-in. -/
  | test
  /-- A codec the launch supplies as a table, first match first. -/
  | table (rows : List CodecRow)
deriving DecidableEq, Repr

/-- A request `IO_PERMITTED` is asked about, and the answer (R86). -/
structure IoRule where
  priv    : Priv
  port    : BitVec 16
  size    : Nat
  allowed : Bool
deriving DecidableEq, Repr

/-- The four registers CPUID returns (R80). -/
structure CpuidQuad where
  eax : BitVec 32
  ebx : BitVec 32
  ecx : BitVec 32
  edx : BitVec 32
deriving DecidableEq, Repr

/-- `CPUID_VALUE(function, subfunction)` where it is narrower than the full set (R82): the
admissible answers, `first` and `others`. `sub = none` stands for every subfunction. -/
structure CpuidRow where
  function : BitVec 32
  sub      : Option (BitVec 32)
  first    : CpuidQuad
  others   : List CpuidQuad
deriving DecidableEq, Repr

/-- Addresses `lo` to `hi - 1` share the page key `key` (R28). -/
structure PageRule where
  lo  : Nat
  hi  : Nat
  key : Nat
deriving DecidableEq, Repr

/-- The two operations that take a selector (R103, R104). -/
inductive SelectorOp
  | lldt | ltr
deriving DecidableEq, Repr

/-- The sixteen general-register cells (R15). -/
inductive Machine.GprCell
  | a | b | c | d | si | di | bp | sp | r8 | r9 | r10 | r11 | r12 | r13 | r14 | r15
deriving DecidableEq, Repr

/-- The registers of State that stand under one name (R17 to R26). -/
inductive NamedReg
  | cs | ds | es | ss | fs | gs
  | cr0 | cr2 | cr3 | cr4 | cr8
  | eflags
  | gdtrLimit | gdtrBase | idtrLimit | idtrBase
  | ldtrSelector | ldtrHidden | trSelector | trHidden
  | lastTsc | pc
  /-- 1 at supervisor, 0 at user level. -/
  | supervisor
deriving DecidableEq, Repr

/-- A part of an event of `history` (R31). -/
inductive EventPart
  | kind | place | size | value
deriving DecidableEq, Repr

/-- The operations of a term. A comparison gives 1 or 0. -/
inductive TermOp
  | add | sub | mul | div | mod | lt | eq
deriving DecidableEq, Repr

/-- A number computed from State: how a launch writes down a `SELECTOR_CHECK` that depends on State
(R6, R103, log 19). Every field the spec gives State can be read by a term. -/
inductive StateTerm
  | const (n : Nat)
  /-- The selector that is asked about. -/
  | selector
  | cell (reg : Machine.GprCell)
  | named (r : NamedReg)
  | msr (index : StateTerm)
  /-- The byte a read sees at this address. -/
  | visible (addr : StateTerm)
  /-- The byte behind the cache, and whether the cache has a modified byte there. -/
  | behind (addr : StateTerm)
  | modified (addr : StateTerm)
  /-- Whether the TLB has an entry of this key. -/
  | inTlb (key : StateTerm)
  | historyLength
  | event (index : StateTerm) (part : EventPart)
  | app (op : TermOp) (x y : StateTerm)
  /-- `x` where `c` is not 0, else `y`. -/
  | cond (c x y : StateTerm)
deriving DecidableEq, Repr

/-- What is known of `SELECTOR_CHECK` (R6, R103): `selector = none` stands for every selector,
`state = none` for every State, and a term for the States in which it is not 0. -/
structure SelectorRule where
  op       : SelectorOp
  selector : Option (BitVec 16)
  state    : Option StateTerm
  accepted : Bool
deriving DecidableEq, Repr

/-- The values from `lo` to `hi`, both among them. -/
structure ValueRange where
  lo : BitVec 64
  hi : BitVec 64
deriving DecidableEq, Repr

/-- `MSR_CLASS` of one index (R23), with `MSR_LEGAL` for a plain one (R115): the legal values. -/
inductive MsrClass
  | absent
  | plain (legal : List ValueRange)
  | opaqueReg
deriving DecidableEq, Repr

/-- The class of one model-specific register (R116). -/
structure MsrRule where
  index : BitVec 32
  cls   : MsrClass
deriving DecidableEq, Repr

/-- What is known of `PMC_EXISTS` (R121): `index = none` stands for every index. -/
structure PmcRule where
  index  : Option (BitVec 32)
  present : Bool
deriving DecidableEq, Repr

/-- Requests of one kind that `MEM_ADMIT` admits (R55): those that lie whole in `lo` to `hi - 1`,
of `size` bytes where a size is given. -/
structure AdmitRule where
  kind : AccessKind
  lo   : Nat
  hi   : Nat
  size : Option Nat
deriving DecidableEq, Repr

/-- The parameters of a launch (R6, R32): no step changes one. -/
structure Params where
  puType          : PuType
  archType        : ArchType
  mode            : Mode
  codec           : Codec
  alignPolicy     : AlignPolicy
  clobber         : ClobberPolicy
  /-- The functions for which `CPUID_PRIV` is supervisor; it is user for the others (R82). -/
  cpuidSupervisor : List (BitVec 32)
  ioRules         : List IoRule
  cpuidRows       : List CpuidRow
  /-- `IO_DEVICE`'s answers to the first reads of a run, in order; past them `Config.ioDevice`. -/
  ioAnswers       : List (BitVec 32)
  pageRules       : List PageRule
  /-- An address no rule names has the key `a / 2 ^ pageShift`: identity for 0 (R28). -/
  pageShift       : Nat
  selectorRules   : List SelectorRule
  msrRules        : List MsrRule
  pmcRules        : List PmcRule
  tscMonotonic    : Bool
  memAdmit        : List AdmitRule
  /-- The program text `CODE` (R25, R52). -/
  code            : List Byte
  codeBase        : Nat
  /-- The values a launch fixes for the first draws of a run; past them `Config.freeValue` (log 7). -/
  draws           : List (BitVec 64)
deriving DecidableEq, Repr

/-- The free value of the draw with this number: `draw(T)` of R8, under no law (log 7). -/
opaque Config.freeValue : Nat → BitVec 64

/-- `OPERAND_CODEC.decode` of the real codec: the syntax the bytes spell and how many of them it
used, or nothing (R62, log 6). -/
opaque Config.realCodec : List Byte → Option (OperandSyntax × Nat)

end Sys2Proof
end

