-- ==== Sys2Proof/Decode.lean ====
section
/-! DEFINITION. Byte order, operand codecs, the opcode map, the decoder and the encoder
(R41, R60 to R62, R65, R66, R68, R73, R76; Definition T1). -/

namespace Sys2Proof

/-! ## Byte order (R41) -/

/-- The value of bytes whose first is the least significant. -/
def leNat : List Byte → Nat
  | [] => 0
  | b :: bs => b.toNat + 256 * leNat bs

/-- The `n` low bytes of `v`, least significant first. -/
def leBytes : Nat → Nat → List Byte
  | 0, _ => []
  | n + 1, v => BitVec.ofNat 8 v :: leBytes n (v / 256)

/-! ## Operands -/

/-- What R62 asks of an abstract operand: a memory operand has at least one byte and its address is
`ADDR_BITS` wide. -/
def Operand.inRange (m : Mode) : Operand → Bool
  | .imm _ => true
  | .reg _ => true
  | .mem a n => decide (1 ≤ n) && decide (a.toNat < 2 ^ m.bits)

def OperandSyntax.inRange (m : Mode) : OperandSyntax → Bool
  | .absolute op => op.inRange m
  | .computed _ => true
  | .foreign _ => true

/-- The little-endian value of the first `n` bytes, or nothing where there are fewer. -/
def leField (n : Nat) (bs : List Byte) : Option Nat :=
  if n ≤ bs.length then some (leNat (bs.take n)) else none

/-- `TESTCODEC`'s reading of the body behind a tag (Definition T1). -/
def testBody (tag : Nat) (body : List Byte) : Option (Operand × Nat) :=
  if tag = 0x01 then (leField 1 body).map fun v => (.imm (.imm8 (BitVec.ofNat 8 v)), 2)
  else if tag = 0x02 then (leField 2 body).map fun v => (.imm (.imm16 (BitVec.ofNat 16 v)), 3)
  else if tag = 0x04 then (leField 4 body).map fun v => (.imm (.imm32 (BitVec.ofNat 32 v)), 5)
  else if tag = 0x08 then (leField 8 body).map fun v => (.imm (.imm64 (BitVec.ofNat 64 v)), 9)
  else if tag = 0x10 then (leField 2 body).map fun v => (.reg (BitVec.ofNat 16 v), 3)
  else if tag = 0x20 then
    match body with
    | [] => none
    | s :: rest => (leField 8 rest).map fun v => (.mem (BitVec.ofNat 64 v) s.toNat, 10)
  else none

/-- `TESTCODEC` (Definition T1): a tag byte and a body. -/
def testCodec : List Byte → Option (OperandSyntax × Nat)
  | [] => none
  | tag :: body => (testBody tag.toNat body).map fun r => (.absolute r.1, r.2)

/-- A codec given as a table: the first row whose text begins the bytes. -/
def tableCodec (rows : List CodecRow) (bs : List Byte) : Option (OperandSyntax × Nat) :=
  (rows.find? fun r => r.text.isPrefixOf bs).map fun r => (r.syn, r.len)

/-- `OPERAND_CODEC.decode` (R62). -/
def codecDecode : Codec → List Byte → Option (OperandSyntax × Nat)
  | .real => Config.realCodec
  | .test => testCodec
  | .table rows => tableCodec rows

/-- The operand that begins `bs`, or nothing: the codec finds none, it runs past the end of the
text (R76), or what it finds is no operand of R62 (log 27). -/
def decodeOperand (m : Mode) (c : Codec) (bs : List Byte) : Option EncodedOperand :=
  match codecDecode c bs with
  | none => none
  | some r =>
    if r.2 ≤ bs.length ∧ r.1.inRange m = true then some ⟨bs.take r.2, r.1⟩ else none

/-- `n` operands, left to right, and the bytes behind them (R73). -/
def decodeOperands (m : Mode) (c : Codec) : Nat → List Byte → Option (List EncodedOperand × List Byte)
  | 0, bs => some ([], bs)
  | n + 1, bs =>
    match decodeOperand m c bs with
    | none => none
    | some e =>
      match decodeOperands m c n (bs.drop e.text.length) with
      | none => none
      | some r => some (e :: r.1, r.2)

/-! ## The opcode map (R65) -/

/-- The sixteen assigned opcodes 0xC0 to 0xCF, in order (R3). -/
inductive Opcode
  | cpuid | portIn | portOut | cli | sti | invd | wbinvd | lgdt | lidt | lldt | ltr | invlpg
  | rdmsr | wrmsr | rdpmc | rdtsc
deriving DecidableEq, Repr

def Opcode.byte : Opcode → Byte
  | .cpuid => 0xC0 | .portIn => 0xC1 | .portOut => 0xC2 | .cli => 0xC3
  | .sti => 0xC4 | .invd => 0xC5 | .wbinvd => 0xC6 | .lgdt => 0xC7
  | .lidt => 0xC8 | .lldt => 0xC9 | .ltr => 0xCA | .invlpg => 0xCB
  | .rdmsr => 0xCC | .wrmsr => 0xCD | .rdpmc => 0xCE | .rdtsc => 0xCF

def Opcode.all : List Opcode :=
  [.cpuid, .portIn, .portOut, .cli, .sti, .invd, .wbinvd, .lgdt, .lidt, .lldt, .ltr, .invlpg,
   .rdmsr, .wrmsr, .rdpmc, .rdtsc]

/-- The operation an opcode byte selects, if one is assigned to it. -/
def Opcode.ofByte (b : Byte) : Option Opcode :=
  Opcode.all.find? fun op => op.byte == b

/-- The operand counts the map allows (R65): two for CPUID, one for every other opcode. -/
def Opcode.counts : Opcode → List Nat
  | .cpuid => [2, 3]
  | .portIn | .portOut | .rdmsr | .wrmsr | .rdpmc => [2]
  | .lgdt | .lidt | .lldt | .ltr | .invlpg | .rdtsc => [1]
  | .cli | .sti | .invd | .wbinvd => [0]

/-- The operation with these operands in stream order (R65). -/
def assemble : Opcode → List EncodedOperand → Option Instr
  | .cpuid, [f, r] => some (.cpuid f r)
  | .cpuid, [f, u, r] => some (.cpuidExt f u r)
  | .portIn, [d, p] => some (.portIn d p)
  | .portOut, [p, v] => some (.portOut p v)
  | .cli, [] => some .cli
  | .sti, [] => some .sti
  | .invd, [] => some .invd
  | .wbinvd, [] => some .wbinvd
  | .lgdt, [x] => some (.lgdt x)
  | .lidt, [x] => some (.lidt x)
  | .lldt, [x] => some (.lldt x)
  | .ltr, [x] => some (.ltr x)
  | .invlpg, [x] => some (.invlpg x)
  | .rdmsr, [e, r] => some (.rdmsr e r)
  | .wrmsr, [e, v] => some (.wrmsr e v)
  | .rdpmc, [e, r] => some (.rdpmc e r)
  | .rdtsc, [r] => some (.rdtsc r)
  | _, _ => none

/-! ## The decoder (R73) -/

/-- Why bytes spell no operation of the range, in the order of R73. -/
inductive DecodeError
  /-- No byte is left: `pc = len(CODE)`. -/
  | empty
  /-- The opcode is outside 0xC0 to 0xDF. -/
  | outOfScope (b : Byte)
  /-- 0xD0 to 0xDF (R66). -/
  | reserved (b : Byte)
  /-- The text ends before the count byte (R76). -/
  | noCount (b : Byte)
  /-- The map does not allow this count (R76). -/
  | badCount (b count : Byte)
  /-- An operand is truncated or its bytes spell none (R76). -/
  | badOperand (b count : Byte)
deriving DecidableEq, Repr

/-- The operation that begins the bytes, and the bytes behind it. Total on any bytes. -/
def decode (m : Mode) (c : Codec) : List Byte → Except DecodeError (Instr × List Byte)
  | [] => .error .empty
  | b0 :: rest =>
    if b0.toNat < 0xC0 ∨ 0xDF < b0.toNat then .error (.outOfScope b0)
    else
      match Opcode.ofByte b0 with
      | none => .error (.reserved b0)
      | some op =>
        match rest with
        | [] => .error (.noCount b0)
        | b1 :: tail =>
          if op.counts.contains b1.toNat then
            match decodeOperands m c b1.toNat tail with
            | none => .error (.badOperand b0 b1)
            | some r =>
              match assemble op r.1 with
              | none => .error (.badCount b0 b1)
              | some i => .ok (i, r.2)
          else .error (.badCount b0 b1)

/-! ## The encoder (R60, R65, R68) -/

def Instr.opcode : Instr → Opcode
  | .cpuid _ _ => .cpuid
  | .cpuidExt _ _ _ => .cpuid
  | .portIn _ _ => .portIn
  | .portOut _ _ => .portOut
  | .cli => .cli
  | .sti => .sti
  | .invd => .invd
  | .wbinvd => .wbinvd
  | .lgdt _ => .lgdt
  | .lidt _ => .lidt
  | .lldt _ => .lldt
  | .ltr _ => .ltr
  | .invlpg _ => .invlpg
  | .rdmsr _ _ => .rdmsr
  | .wrmsr _ _ => .wrmsr
  | .rdpmc _ _ => .rdpmc
  | .rdtsc _ => .rdtsc

/-- The operands in stream order. -/
def Instr.operands : Instr → List EncodedOperand
  | .cpuid f r => [f, r]
  | .cpuidExt f u r => [f, u, r]
  | .portIn d p => [d, p]
  | .portOut p v => [p, v]
  | .cli => []
  | .sti => []
  | .invd => []
  | .wbinvd => []
  | .lgdt x => [x]
  | .lidt x => [x]
  | .lldt x => [x]
  | .ltr x => [x]
  | .invlpg x => [x]
  | .rdmsr e r => [e, r]
  | .wrmsr e v => [e, v]
  | .rdpmc e r => [e, r]
  | .rdtsc r => [r]

/-- The bytes of operands in a row. -/
def operandBytes : List EncodedOperand → List Byte
  | [] => []
  | e :: es => e.text ++ operandBytes es

/-- The operation's bytes: opcode, count, operands (R60). -/
def encode (i : Instr) : List Byte :=
  i.opcode.byte :: BitVec.ofNat 8 i.operands.length :: operandBytes i.operands

/-- 2 plus the lengths of the operands (R68). -/
def opLength : List EncodedOperand → Nat
  | [] => 2
  | e :: es => e.text.length + opLength es

def Instr.length (i : Instr) : Nat := opLength i.operands

/-- `TESTCODEC`'s spelling of an operand (Definition T1); nothing for a memory operand whose size
is no byte. -/
def testSpell : Operand → Option (List Byte)
  | .imm (.imm8 v) => some (0x01 :: leBytes 1 v.toNat)
  | .imm (.imm16 v) => some (0x02 :: leBytes 2 v.toNat)
  | .imm (.imm32 v) => some (0x04 :: leBytes 4 v.toNat)
  | .imm (.imm64 v) => some (0x08 :: leBytes 8 v.toNat)
  | .reg id => some (0x10 :: leBytes 2 id.toNat)
  | .mem a n => if n < 256 then some (0x20 :: BitVec.ofNat 8 n :: leBytes 8 a.toNat) else none

/-! ## The table's own numbering -/

/-- The bytes of `k` 16-bit words of the table's number, the first word lowest: a header word has
the opcode as its HIGH byte (R65), and the opcode stands first in the stream (R60). -/
def tableWordBytes : Nat → Nat → List Byte
  | 0, _ => []
  | k + 1, w => BitVec.ofNat 8 (w / 256) :: BitVec.ofNat 8 w :: tableWordBytes k (w / 65536)

/-- Operands that the row of this header takes, for the zero bytes the table leaves for operand
words: the table gives an operand no bits and the source no form (R62), so a launch must say what
a zero byte spells (log 25). -/
def zeroOperandsOf (m : Mode) (opcode count : Byte) : List Operand :=
  let pd := if m = .m64 then 10 else 6
  match Opcode.ofByte opcode with
  | none => []
  | some .cpuid =>
    if count.toNat = 3 then [.imm (.imm8 0), .imm (.imm8 0), .mem 0x2000 16]
    else [.imm (.imm8 0), .mem 0x2000 16]
  | some .portIn => [.mem 0x2000 1, .imm (.imm8 0)]
  | some .portOut => [.imm (.imm8 0), .imm (.imm8 0)]
  | some .cli => []
  | some .sti => []
  | some .invd => []
  | some .wbinvd => []
  | some .lgdt => [.mem 0x2000 pd]
  | some .lidt => [.mem 0x2000 pd]
  | some .lldt => [.imm (.imm16 0)]
  | some .ltr => [.imm (.imm16 0)]
  | some .invlpg => [.mem 0x2000 1]
  | some .rdmsr => [.imm (.imm8 0), .mem 0x2000 8]
  | some .wrmsr => [.imm (.imm8 0), .imm (.imm64 0)]
  | some .rdpmc => [.imm (.imm8 0), .mem 0x2000 8]
  | some .rdtsc => [.mem 0x2000 8]

/-- Rows in which one zero byte, with as many zero bytes behind it as operands are still to come,
spells the next operand of the list. -/
def zeroRows : List Operand → List CodecRow
  | [] => []
  | op :: ops => ⟨List.replicate (ops.length + 1) 0, 1, .absolute op⟩ :: zeroRows ops

/-- The header bytes of a table word, the zero operand bytes behind them, and the codec that a
launch of that text supplies. -/
def tableText (m : Mode) (nbits w : Nat) : List Byte × Codec :=
  let head := tableWordBytes (nbits / 16) w
  let ops := zeroOperandsOf m (head.headD 0) (head.getD 1 0)
  (head ++ List.replicate ops.length 0, .table (zeroRows ops))

/-- The instruction the decoder reads from an opcode-table word with operand words of zeros. -/
def decodeTableWord (nbits w : Nat) : Option Instr :=
  let t := tableText .m64 nbits w
  match decode .m64 t.2 t.1 with
  | .ok r => some r.1
  | .error _ => none

end Sys2Proof
end

