-- ==== Sys2Proof/Machine/State.lean ====
section
/-! DEFINITION. The machine's state as plain data (10_state), the reasons a step can stop (R132,
R133), and the state of the launch that `State.reset` names (R34, R160, R161; log 2, 3, 4). -/

namespace Sys2Proof.Machine

/-- The faults of R132, with the information each records. All are safe: the machine stops where a
real one traps, because the source describes no trap entry (R131, R145). -/
inductive Fault
  /-- Raised by every opcode 0xC0 to 0xDF where `PU_TYPE` or `ARCH_TYPE` is wrong (R67). Safe. -/
  | unavailable (opcode : Byte)
  /-- Raised by bytes that spell no operation (R66, R76). Safe. -/
  | invalidOpcode (opcode : Byte) (count : Option Byte)
  /-- Raised by an operand that fails the operation's constraints (R63, R64, R74); `position`
  counts the operands from 1. Safe. -/
  | invalidOperand (opcode : Byte) (position : Nat)
  /-- Raised where the operation needs supervisor or a port is not permitted (R140). Safe. -/
  | privilege (opcode : Byte)
  /-- Raised by a memory request that is not admitted or runs past the top of the address space;
  records its first byte's address (R42, R134). Safe. -/
  | memory (addr : Nat)
  /-- Raised by RDMSR and WRMSR: no such register, or an illegal value (R114, R115). Safe. -/
  | msrFault (index : BitVec 32)
  /-- Raised by RDPMC: no such counter (R121). Safe. -/
  | pmcFault (index : BitVec 32)
  /-- Raised by LLDT and LTR: the platform rejects the selector (R103, R104). Safe. -/
  | selectorFault (selector : BitVec 16)
deriving DecidableEq, Repr

/-- The refusals of R133, and two of the model's own. All are safe: each errs toward unprovable. -/
inductive Refusal
  /-- Answered by an arm of `exec` whose instruction has no meaning yet. Safe. -/
  | notModelled (mnemonic : String)
  /-- Answered by the fetch: an opcode outside 0xC0 to 0xDF is another document's (R73). Safe. -/
  | outOfScopeOpcode (opcode : Byte)
  /-- Answered by operand resolution: no `Imm`, `Reg` or `Mem` comes out (R62). Safe. -/
  | operandShape
  /-- Answered for a segment or control register as an operand (R74). Safe. -/
  | regClass
  /-- Answered for a misaligned access under `ALIGN_POLICY = strict` (R43). Safe. -/
  | misaligned
  /-- Answered for a store into the program text (R52). Safe. -/
  | codeWrite
  /-- Answered by WRMSR on a register whose effect the spec does not know (R115). Safe. -/
  | msrOpaqueWrite (index : BitVec 32)
  /-- Answered at a boundary: a maskable interrupt was delivered and handlers are not in the
  source (R143). Safe. -/
  | interruptDelivery (vector : Nat)
  /-- Answered by the fetch where `pc` is past the text, which R25 says cannot arise (log 13). Safe. -/
  | pcBeyondCode
deriving DecidableEq, Repr

/-- `outcome` (R31). -/
inductive RunStatus
  | running
  | final
  | faulted (f : Fault)
  | refused (r : Refusal)
deriving DecidableEq, Repr

/-- The cells' contents. A cell is `MODE` bits wide (R15); it is kept in 64 bits, the bits above
`MODE` zero (log 15). -/
structure GprFile where
  a   : BitVec 64
  b   : BitVec 64
  c   : BitVec 64
  d   : BitVec 64
  si  : BitVec 64
  di  : BitVec 64
  bp  : BitVec 64
  sp  : BitVec 64
  r8  : BitVec 64
  r9  : BitVec 64
  r10 : BitVec 64
  r11 : BitVec 64
  r12 : BitVec 64
  r13 : BitVec 64
  r14 : BitVec 64
  r15 : BitVec 64
deriving DecidableEq, Repr

/-- The six segment registers (R17). -/
structure SegFile where
  cs : BitVec 16
  ds : BitVec 16
  es : BitVec 16
  ss : BitVec 16
  fs : BitVec 16
  gs : BitVec 16
deriving DecidableEq, Repr

/-- GDTR or IDTR (R21). The base is `BASE_BITS` wide, kept in 64 bits (log 15). -/
structure TableReg where
  limit : BitVec 16
  base  : BitVec 64
deriving DecidableEq, Repr

/-- LDTR or TR (R22); `hidden` is a token for whatever the processor loads with the selector (log 14). -/
structure SelectorReg where
  selector : BitVec 16
  hidden   : BitVec 64
deriving DecidableEq, Repr

/-- The events of `history` (R31). -/
inductive Event
  | ioRead (port : BitVec 16) (size value : Nat)
  | ioWrite (port : BitVec 16) (size value : Nat)
  | memRead (addr size value : Nat)
  | memWrite (addr size value : Nat)
  | cacheInvalidate
  | cacheWriteBackInvalidate
  | cacheWriteBack (addr : Nat)
  | tlbInvalidate (key : Nat)
  | msrWrite (index : BitVec 32) (value : BitVec 64)
deriving DecidableEq, Repr

/-- Which agent of R33 moves next, with its choice (log 9). -/
inductive Turn
  /-- The CPU executes the operation at `pc`. -/
  | cpu
  /-- The cache background agent picks this address (R54). -/
  | writeBack (addr : Nat)
  /-- `IRQ` announces this vector (R143). -/
  | announce (vector : Nat)
deriving DecidableEq, Repr

/-- Everything the spec gives the machine, and the model's own `drawn` and `turns`. -/
structure State where
  /-- The launch parameters (R6, R32); no step changes them. -/
  params  : Params
  gpr     : GprFile
  seg     : SegFile
  cr0     : BitVec 64
  cr2     : BitVec 64
  cr3     : BitVec 64
  cr4     : BitVec 64
  cr8     : BitVec 64
  eflags  : BitVec 32
  gdtr    : TableReg
  idtr    : TableReg
  ldtr    : SelectorReg
  tr      : SelectorReg
  /-- The model-specific registers by index, rising, none zero: an unlisted one is 0 (R23, log 23). -/
  msr     : List (Nat × BitVec 64)
  lastTsc : BitVec 64
  /-- Offset of the next operation in `CODE` (R25). -/
  pc      : Nat
  priv    : Priv
  /-- The modified bytes by address, rising (R27). -/
  cache   : List Host.Cell
  /-- The page keys of the TLB's entries, rising (R28). -/
  tlb     : List Nat
  /-- Memory behind the cache by address, rising, none equal to what an unlisted byte reads as (R30). -/
  mem     : List Host.Cell
  history : List Event
  outcome : RunStatus
  /-- The model's own: the number of the next free value (log 7). -/
  drawn   : Nat
  /-- The model's own: who moves next; the CPU once it is empty (log 9). -/
  turns   : List Turn
deriving DecidableEq, Repr

/-- The parameters of the launch `State.reset` names: the spec's defaults (R6), and where R6 has none
Definition T2, `MODE = 64`, and a platform that accepts every selector and has every counter (log 2). -/
def Params.reset : Params where
  puType := .cpu
  archType := .x86
  mode := .m64
  codec := .test
  alignPolicy := .strict
  clobber := .draw
  cpuidSupervisor := []
  ioRules := []
  cpuidRows := []
  ioAnswers := []
  pageRules := []
  pageShift := 0
  selectorRules := [⟨.lldt, none, none, true⟩, ⟨.ltr, none, none, true⟩]
  msrRules := []
  pmcRules := [⟨none, true⟩]
  tscMonotonic := false
  memAdmit := [⟨.read, 0x1000, 0x8000, none⟩, ⟨.write, 0x1000, 0x8000, none⟩]
  code := []
  codeBase := 0xF000
  draws := []

/-- The launch state. `pc`, `history`, `outcome` and `lastTsc` are the spec's (R34); every other
value is unspecified there and is the model's choice (log 2, 3, 4, 7, 9). -/
def State.reset : State where
  params := Params.reset
  gpr := ⟨0, 0, 0, 0, 0, 0, 0, 0, 0, 0, 0, 0, 0, 0, 0, 0⟩
  seg := ⟨0, 0, 0, 0, 0, 0⟩
  cr0 := 0
  cr2 := 0
  cr3 := 0
  cr4 := 0
  cr8 := 0
  eflags := 0
  gdtr := ⟨0, 0⟩
  idtr := ⟨0, 0⟩
  ldtr := ⟨0, 0⟩
  tr := ⟨0, 0⟩
  msr := []
  lastTsc := 0
  pc := 0
  priv := .supervisor
  cache := []
  tlb := []
  mem := []
  history := []
  outcome := .running
  drawn := 0
  turns := []

end Sys2Proof.Machine
end

