-- ==== Sys2Proof/Machine/Platform.lean ====
section
/-! DEFINITION. What the launch parameters answer (R6): rules first, first match first, then the
spec's default or, where the spec says the answer is a draw, nothing (log 5, 18, 19). -/

namespace Sys2Proof

/-- `IO_DEVICE(history, port, n)`: the device oracle's answer (R85); its low `n` bytes are used. -/
opaque Config.ioDevice : List Machine.Event → BitVec 16 → Nat → BitVec 32

/-- `OPERAND_CODEC.resolve` on a form of the real codec that depends on the state (R62). -/
opaque Config.resolveComputed : Nat → Machine.State → Option Operand

namespace Machine

/-- Both conditions of R2 hold. -/
def State.available (s : State) : Bool :=
  decide (s.params.puType = .cpu) && decide (s.params.archType = .x86)

/-- `CPUID_PRIV(f)` (R82). -/
def cpuidPriv (p : Params) (f : BitVec 32) : Priv :=
  if p.cpuidSupervisor.contains f then .supervisor else .user

/-- `IO_PERMITTED(priv, port, n)` (R86). -/
def ioPermitted (p : Params) (v : Priv) (port : BitVec 16) (n : Nat) : Bool :=
  match p.ioRules.find? fun r =>
      decide (r.priv = v) && decide (r.port = port) && decide (r.size = n) with
  | some r => r.allowed
  | none => decide (v = .supervisor)

/-- The row that narrows `CPUID_VALUE(f, sub)`, if any; with none the set is full (R82). -/
def cpuidRow (p : Params) (f sub : BitVec 32) : Option CpuidRow :=
  p.cpuidRows.find? fun r =>
    decide (r.function = f) &&
      match r.sub with
      | none => true
      | some u => decide (u = sub)

/-- `PAGE_OF(a)` (R28, R110). -/
def pageOf (p : Params) (a : Nat) : Nat :=
  match p.pageRules.find? fun r => decide (r.lo ≤ a) && decide (a < r.hi) with
  | some r => r.key
  | none => a / 2 ^ p.pageShift

/-- `MSR_CLASS(idx)` (R23). -/
def msrClass (p : Params) (idx : BitVec 32) : MsrClass :=
  match p.msrRules.find? fun r => decide (r.index = idx) with
  | some r => r.cls
  | none => .opaqueReg

/-- `MSR_LEGAL` for a plain register with these legal values (R115). -/
def msrLegal (legal : List ValueRange) (v : BitVec 64) : Bool :=
  legal.any fun r => decide (r.lo.toNat ≤ v.toNat) && decide (v.toNat ≤ r.hi.toNat)

/-- What is known of `PMC_EXISTS(idx)`; nothing known is a draw (R121). -/
def pmcVerdict (p : Params) (idx : BitVec 32) : Option Bool :=
  (p.pmcRules.find? fun r =>
      match r.index with
      | none => true
      | some x => decide (x = idx)).map PmcRule.present

/-- `MEM_ADMIT(a, n, kind)` (R55): one rule admits the whole request (log 26). -/
def memAdmit (p : Params) (a n : Nat) (k : AccessKind) : Bool :=
  p.memAdmit.any fun r =>
    decide (r.kind = k) && decide (r.lo ≤ a) && decide (a + n ≤ r.hi) &&
      match r.size with
      | none => true
      | some z => decide (z = n)

/-- `BASE_BITS` (R21). -/
def baseBits : Mode → Nat
  | .m16 => 32
  | .m32 => 32
  | .m64 => 64

/-- `PD_BYTES`, the size of the LGDT and LIDT operand (R100): 6 or 10. -/
def pdBytes (m : Mode) : Nat := 2 + baseBits m / 8

end Machine

end Sys2Proof
end

