-- ==== Sys2Proof/Machine/Ops.lean ====
section
/-! DEFINITION. The named operations over memory, registers and the run's bookkeeping: stopping,
draws, sparse files, memory behind the cache (R42), registers and their views (R11 to R16),
and the port primitives (R85). -/

namespace Sys2Proof.Machine

/-! ## Results -/

/-- The three outcomes of R130, of any type of result. -/
abbrev Res (α : Type) := Host.Outcome α Fault Refusal

/-- Go on with the result, or stop as the first part stopped: nothing after a stop happens (R73). -/
def andThen {α β : Type} (x : Res α) (f : α → Res β) : Res β :=
  match x with
  | .next a => f a
  | .fault r => .fault r
  | .refused r => .refused r

/-- Taking an exception, the one operation every instruction shares: `raise F` of R8. The source
describes no trap entry (R145), so a fault is precise and terminal: the operation's whole next
state is discarded and the run stops (R131). What is recorded is `State.record`. -/
def raise {α : Type} (f : Fault) : Res α := .fault f

/-- `refuse R` of R8: precise and terminal in the same way (R131, R133). -/
def refuse {α : Type} (r : Refusal) : Res α := .refused r

/-- Go on only where the condition holds. -/
def require (b : Bool) (f : Fault) : Res Unit := if b = true then .next () else raise f

/-- The state R131 leaves behind an outcome: a stop changes nothing but `outcome`. There is no return
from an exception (R146). -/
def State.record (s : State) : Res State → State
  | .next t => t
  | .fault f => { s with outcome := .faulted f }
  | .refused r => { s with outcome := .refused r }

/-- The code numbers of R132. -/
def Fault.code : Fault → Nat
  | .unavailable _ => 1
  | .invalidOpcode _ _ => 2
  | .invalidOperand _ _ => 3
  | .privilege _ => 4
  | .memory _ => 5
  | .msrFault _ => 6
  | .pmcFault _ => 7
  | .selectorFault _ => 8

/-- A value and the state it was got in. -/
structure Got (α : Type) where
  val : α
  st  : State

/-! ## Bookkeeping -/

/-- Append an event to `history` (R31). -/
def State.log (s : State) (e : Event) : State := { s with history := s.history ++ [e] }

/-- `pc <- pc + n` (R25, R68). -/
def State.advance (s : State) (n : Nat) : State := { s with pc := s.pc + n }

/-- Draw number `k` of a run (R8, log 7). -/
def drawnValue (p : Params) (k : Nat) : BitVec 64 :=
  match p.draws[k]? with
  | some v => v
  | none => Config.freeValue k

/-- `draw(u64)` (R8); a narrower draw takes its low bits. -/
def draw (s : State) : Got (BitVec 64) :=
  ⟨drawnValue s.params s.drawn, { s with drawn := s.drawn + 1 }⟩

/-- `k` draws as one number, the first lowest. -/
def drawNat : Nat → State → Got Nat
  | 0, s => ⟨0, s⟩
  | k + 1, s =>
    let hi := drawNat k (draw s).st
    ⟨(draw s).val.toNat + 2 ^ 64 * hi.val, hi.st⟩

/-- Any number below `n`, by as many draws as every one of them needs (log 18). -/
def drawIndex (n : Nat) (s : State) : Got Nat :=
  let g := drawNat (n.log2 / 64 + 1) s
  ⟨g.val % n, g.st⟩

/-- The known answer, or a draw where nothing is known (R6: SELECTOR_CHECK, PMC_EXISTS). -/
def verdictOrDraw (known : Option Bool) (s : State) : Got Bool :=
  match known with
  | some b => ⟨b, s⟩
  | none => ⟨(draw s).val.getLsbD 0, (draw s).st⟩

/-! ## Sparse files: key and value, keys rising -/

def Sparse.get? {α : Type} : List (Nat × α) → Nat → Option α
  | [], _ => none
  | e :: l, k => if e.1 = k then some e.2 else Sparse.get? l k

def Sparse.set {α : Type} : List (Nat × α) → Nat → α → List (Nat × α)
  | [], k, v => [(k, v)]
  | e :: l, k, v =>
    if k < e.1 then (k, v) :: e :: l
    else if k = e.1 then (k, v) :: l
    else e :: Sparse.set l k v

def Sparse.erase {α : Type} (l : List (Nat × α)) (k : Nat) : List (Nat × α) :=
  l.filter fun e => decide (e.1 ≠ k)

/-- Keys strictly rising. -/
def rising : List Nat → Bool
  | [] => true
  | [_] => true
  | a :: b :: l => decide (a < b) && rising (b :: l)

/-! ## Memory behind the cache (R27, R30, R42) -/

/-- What a byte of `mem` reads as that is not listed (R34 leaves it open; log 4). -/
def unlistedByte : Byte := 0

/-- The canonical form of memory: addresses strictly rising, no entry that says what is read anyway. -/
def Memory.wf (m : List Host.Cell) : Bool :=
  rising (m.map Prod.fst) && m.all fun e => decide (e.2 ≠ unlistedByte)

def Memory.get (m : List Host.Cell) (a : Nat) : Byte :=
  match Sparse.get? m a with
  | some b => b
  | none => unlistedByte

/-- Write one byte and keep the canonical form. -/
def Memory.set (m : List Host.Cell) (a : Nat) (v : Byte) : List Host.Cell :=
  if v = unlistedByte then Sparse.erase m a else Sparse.set m a v

/-- One byte as a `MemRead` sees it: the modified byte, or else `mem`'s (R42). -/
def State.visible (s : State) (a : Nat) : Byte :=
  match Sparse.get? s.cache a with
  | some b => b
  | none => Memory.get s.mem a

/-- The `n` bytes from `a` on, as a `MemRead` sees them. -/
def State.bytesAt (s : State) : Nat → Nat → List Byte
  | _, 0 => []
  | a, n + 1 => s.visible a :: s.bytesAt (a + 1) n

/-- `[a, a+n)` meets the program text (R52). -/
def meetsCode (p : Params) (a n : Nat) : Bool :=
  decide (0 < n) && decide (0 < p.code.length) && decide (a < p.codeBase + p.code.length) &&
    decide (p.codeBase < a + n)

/-- The checks of a read of `n` bytes: no wrap-around, then MEM_ADMIT for all of it (R42, R45). -/
def checkRead (a n : Nat) (s : State) : Res Unit :=
  if a + n ≤ 2 ^ s.params.mode.bits ∧ memAdmit s.params a n .read = true then .next ()
  else raise (.memory a)

/-- The checks of a write: as a read's, then no store into the text (R42, R52). -/
def checkWrite (a n : Nat) (s : State) : Res Unit :=
  if a + n ≤ 2 ^ s.params.mode.bits ∧ memAdmit s.params a n .write = true then
    if meetsCode s.params a n = true then refuse .codeWrite else .next ()
  else raise (.memory a)

/-- `align(a, e)` (R43, R64). -/
def checkAlign (a e : Nat) (s : State) : Res Unit :=
  if s.params.alignPolicy = .strict ∧ a % e ≠ 0 then refuse .misaligned else .next ()

/-- `MemRead(a, n)` (R42). -/
def memRead (a n : Nat) (s : State) : Res (Got Nat) :=
  andThen (checkRead a n s) fun _ =>
    .next ⟨leNat (s.bytesAt a n), s.log (.memRead a n (leNat (s.bytesAt a n)))⟩

/-- Modified bytes from `a` on. -/
def cacheBytes : List Host.Cell → Nat → List Byte → List Host.Cell
  | c, _, [] => c
  | c, a, b :: bs => cacheBytes (Sparse.set c a b) (a + 1) bs

/-- The effect of a `MemWrite` whose checks passed: every byte lands in the cache (R42). -/
def State.store (s : State) (a n v : Nat) : State :=
  ({ s with cache := cacheBytes s.cache a (leBytes n v) }).log (.memWrite a n v)

/-- `MemWrite(a, n, v)` (R42). -/
def memWrite (a n v : Nat) (s : State) : Res State :=
  andThen (checkWrite a n s) fun _ => .next (s.store a n v)

/-- Every modified byte goes to `mem` (R96): the first entry of an address is the one a read sees,
so it is written last. -/
def writeBackAll (m : List Host.Cell) : List Host.Cell → List Host.Cell
  | [] => m
  | e :: c => Memory.set (writeBackAll m c) e.1 e.2

/-- The one step of the cache background agent at `a` (R54); with no modified byte there it has none. -/
def State.writeBack (s : State) (a : Nat) : State :=
  match Sparse.get? s.cache a with
  | none => s
  | some b =>
    ({ s with mem := Memory.set s.mem a b, cache := Sparse.erase s.cache a }).log (.cacheWriteBack a)

/-! ## The file of model-specific registers (R23) -/

/-- `msr[idx]` (R23); an unlisted register holds 0 (log 23). -/
def msrGet (m : List (Nat × BitVec 64)) (idx : BitVec 32) : BitVec 64 :=
  match Sparse.get? m idx.toNat with
  | some v => v
  | none => 0

/-- `msr[idx] <- v`, in the canonical form: no register listed that holds 0. -/
def msrSet (m : List (Nat × BitVec 64)) (idx : BitVec 32) (v : BitVec 64) : List (Nat × BitVec 64) :=
  if v = 0 then Sparse.erase m idx.toNat else Sparse.set m idx.toNat v

/-! ## Registers (R11 to R16) -/

def GprFile.get (g : GprFile) : GprCell → BitVec 64
  | .a => g.a | .b => g.b | .c => g.c | .d => g.d
  | .si => g.si | .di => g.di | .bp => g.bp | .sp => g.sp
  | .r8 => g.r8 | .r9 => g.r9 | .r10 => g.r10 | .r11 => g.r11
  | .r12 => g.r12 | .r13 => g.r13 | .r14 => g.r14 | .r15 => g.r15

def GprFile.set (g : GprFile) (cell : GprCell) (v : BitVec 64) : GprFile :=
  match cell with
  | .a => { g with a := v }
  | .b => { g with b := v }
  | .c => { g with c := v }
  | .d => { g with d := v }
  | .si => { g with si := v }
  | .di => { g with di := v }
  | .bp => { g with bp := v }
  | .sp => { g with sp := v }
  | .r8 => { g with r8 := v }
  | .r9 => { g with r9 := v }
  | .r10 => { g with r10 := v }
  | .r11 => { g with r11 := v }
  | .r12 => { g with r12 := v }
  | .r13 => { g with r13 := v }
  | .r14 => { g with r14 := v }
  | .r15 => { g with r15 := v }

/-- What a register ID names: a view of a general cell with its width, or a register of class SEG
or CR (R11 to R13). -/
inductive RegView
  | gpr (cell : GprCell) (width : Nat)
  | seg
  | cr
deriving DecidableEq, Repr

/-- The three tables (R11, R12, R13): ID, the least `MODE` that has it, what it names. -/
def regTable16 : List (Nat × Nat × RegView) :=
  [(0x0000, 16, .gpr .a 16), (0x0001, 16, .gpr .b 16), (0x0002, 16, .gpr .c 16),
   (0x0003, 16, .gpr .d 16), (0x0004, 16, .gpr .si 16), (0x0005, 16, .gpr .di 16),
   (0x0006, 16, .gpr .bp 16), (0x0007, 16, .gpr .sp 16), (0x0008, 16, .seg), (0x0009, 16, .seg),
   (0x000A, 16, .seg), (0x000B, 16, .seg), (0x000C, 16, .seg), (0x000D, 16, .seg)]

def regTable32 : List (Nat × Nat × RegView) :=
  [(0x0010, 32, .gpr .a 32), (0x0011, 32, .gpr .b 32), (0x0012, 32, .gpr .c 32),
   (0x0013, 32, .gpr .d 32), (0x0014, 32, .gpr .si 32), (0x0015, 32, .gpr .di 32),
   (0x0016, 32, .gpr .bp 32), (0x0017, 32, .gpr .sp 32), (0x0018, 32, .cr), (0x0019, 32, .cr),
   (0x001A, 32, .cr), (0x001B, 32, .cr)]

def regTable64 : List (Nat × Nat × RegView) :=
  [(0x0020, 64, .gpr .a 64), (0x0021, 64, .gpr .b 64), (0x0022, 64, .gpr .c 64),
   (0x0023, 64, .gpr .d 64), (0x0024, 64, .gpr .si 64), (0x0025, 64, .gpr .di 64),
   (0x0026, 64, .gpr .bp 64), (0x0027, 64, .gpr .sp 64), (0x0028, 64, .gpr .r8 64),
   (0x0029, 64, .gpr .r9 64), (0x002A, 64, .gpr .r10 64), (0x002B, 64, .gpr .r11 64),
   (0x002C, 64, .gpr .r12 64), (0x002D, 64, .gpr .r13 64), (0x002E, 64, .gpr .r14 64),
   (0x002F, 64, .gpr .r15 64), (0x0030, 64, .cr)]

/-- The register with this ID in this `MODE`, if there is one (R10, R14). -/
def regView (m : Mode) (id : BitVec 16) : Option RegView :=
  ((regTable16 ++ regTable32 ++ regTable64).find? fun r =>
    decide (r.1 = id.toNat) && decide (r.2.1 ≤ m.bits)).map fun r => r.2.2

/-- `x[id]` of a view of width `w`: `cell[w-1:0]` (R15). -/
def State.readView (s : State) (cell : GprCell) (w : Nat) : Nat :=
  (s.gpr.get cell).toNat % 2 ^ w

/-- A cell after a write through a view of width `w` (R15): a 16-bit view keeps the upper bits of a
wider cell; a view as wide as `MODE` is the cell; a 32-bit write in `MODE = 64` clears the upper
half. -/
def cellAfter (m : Mode) (w : Nat) (old : BitVec 64) (v : Nat) : BitVec 64 :=
  if w = 16 ∧ m ≠ .m16 then
    (old.extractLsb' 16 48 ++ BitVec.ofNat 16 v : BitVec (48 + 16))
  else BitVec.ofNat 64 (v % 2 ^ w)

/-- `x[id] <- v` through a view of width `w` (R15). -/
def State.writeView (s : State) (cell : GprCell) (w v : Nat) : State :=
  { s with gpr := s.gpr.set cell (cellAfter s.params.mode w (s.gpr.get cell) v) }

/-- One working cell receives `draw(u MODE)` (R16). -/
def drawCell (s : State) (cell : GprCell) : State :=
  let g := draw s
  { g.st with gpr := g.st.gpr.set cell (BitVec.ofNat 64 (g.val.toNat % 2 ^ s.params.mode.bits)) }

/-- `clobber({..})` (R16): the cells in the order listed. -/
def clobber (cs : List GprCell) (s : State) : State :=
  match s.params.clobber with
  | .preserve => s
  | .draw => cs.foldl drawCell s

/-! ## Ports (R85) -/

/-- How many port reads a history holds. -/
def ioReads : List Event → Nat
  | [] => 0
  | .ioRead _ _ _ :: h => ioReads h + 1
  | _ :: h => ioReads h

/-- `IO_DEVICE(history, port, n)`, as a `u(8n)`: the launch's answer to this read of the run if it
supplies one, or else the device's (R85, log 8). -/
def ioAnswer (p : Params) (h : List Event) (port : BitVec 16) (n : Nat) : Nat :=
  match p.ioAnswers[ioReads h]? with
  | some v => v.toNat % 256 ^ n
  | none => (Config.ioDevice h port n).toNat % 256 ^ n

/-- `IoRead(port, n)` (R85). -/
def ioRead (port : BitVec 16) (n : Nat) (s : State) : Got Nat :=
  let v := ioAnswer s.params s.history port n
  ⟨v, s.log (.ioRead port n v)⟩

/-- `IoWrite(port, n, v)` (R85). -/
def ioWrite (port : BitVec 16) (n v : Nat) (s : State) : State := s.log (.ioWrite port n v)

/-! ## Privilege (R140) -/

/-- `require_supervisor()`. -/
def requireSupervisor (opcode : Byte) (s : State) : Res Unit :=
  require (decide (s.priv = .supervisor)) (.privilege opcode)

/-- The availability conditions (R67). -/
def requireAvailable (opcode : Byte) (s : State) : Res Unit :=
  require s.available (.unavailable opcode)

end Sys2Proof.Machine
end

