-- ==== Sys2Proof/Machine/Operands.lean ====
section
/-! DEFINITION. Every operand form: resolution (R62), the registers admitted (R74), the operand
tests (R63) and operand access (R64), and the frame every operation's meaning stands in (R73). -/

namespace Sys2Proof.Machine

/-- An operand that resolution and R74 let through: a constant, a view of a general register, or
`n` bytes of memory at `a`. -/
inductive Arg
  | imm (v : ImmValue)
  | gpr (cell : GprCell) (width : Nat)
  | mem (a n : Nat)
deriving DecidableEq, Repr

/-- `OPERAND_CODEC.resolve` (R62): nothing for what is no `Imm`, `Reg` or `Mem`. -/
def resolve (x : OperandSyntax) (s : State) : Option Operand :=
  match x with
  | .absolute op => if op.inRange s.params.mode = true then some op else none
  | .computed tag =>
    match Config.resolveComputed tag s with
    | none => none
    | some op => if op.inRange s.params.mode = true then some op else none
  | .foreign _ => none

/-- The checks of R74 on one resolved operand at this position. -/
def admitOperand (opcode : Byte) (pos : Nat) (m : Mode) : Operand → Res Arg
  | .imm v => .next (.imm v)
  | .mem a n => .next (.mem a.toNat n)
  | .reg id =>
    match regView m id with
    | none => raise (.invalidOperand opcode pos)
    | some (.gpr cell w) => .next (.gpr cell w)
    | some .seg => refuse .regClass
    | some .cr => refuse .regClass

/-- Resolve the operand and check it (R73, R137 item 4). -/
def argAt (opcode : Byte) (pos : Nat) (e : EncodedOperand) (s : State) : Res Arg :=
  match resolve e.syn s with
  | none => refuse .operandShape
  | some op => admitOperand opcode pos s.params.mode op

/-! ## The operand tests (R63) -/

def immWidth : ImmValue → Nat
  | .imm8 _ => 8
  | .imm16 _ => 16
  | .imm32 _ => 32
  | .imm64 _ => 64

def immNat : ImmValue → Nat
  | .imm8 v => v.toNat
  | .imm16 v => v.toNat
  | .imm32 v => v.toNat
  | .imm64 v => v.toNat

/-- `width(op)`, in bits. -/
def Arg.width : Arg → Nat
  | .imm v => immWidth v
  | .gpr _ w => w
  | .mem _ n => 8 * n

/-- `size(op)`, in bytes. -/
def Arg.size (x : Arg) : Nat := x.width / 8

def Arg.isIntegral : Arg → Bool
  | .imm _ => true
  | .gpr _ _ => true
  | .mem _ n => [1, 2, 4, 8].contains n

def Arg.isWritable : Arg → Bool
  | .imm _ => false
  | .gpr _ _ => true
  | .mem _ _ => true

def Arg.isMemory : Arg → Bool
  | .imm _ => false
  | .gpr _ _ => false
  | .mem _ _ => true

/-- `can_store(op, k)`. -/
def Arg.canStore (k : Nat) : Arg → Bool
  | .imm _ => false
  | .gpr _ w => decide (w = 8 * k)
  | .mem _ n => decide (k ≤ n)

/-- `can_load(op, k)`. -/
def Arg.canLoad (k : Nat) : Arg → Bool
  | .imm v => decide (immWidth v = 8 * k)
  | .gpr _ w => decide (w = 8 * k)
  | .mem _ n => decide (k ≤ n)

/-! ## Operand access (R64) -/

/-- Read the first `k` bytes of an operand; a memory operand is aligned to `e` (R43). -/
def loadBytes (x : Arg) (k e : Nat) (s : State) : Res (Got Nat) :=
  match x with
  | .imm v => .next ⟨immNat v, s⟩
  | .gpr cell w => .next ⟨s.readView cell w, s⟩
  | .mem a _ => andThen (checkAlign a e s) fun _ => memRead a k s

/-- `read_int(op)`: an integral operand, aligned to its own size. -/
def readInt (x : Arg) (s : State) : Res (Got Nat) := loadBytes x x.size x.size s

/-- The checks a destination of `k` bytes has to pass, without writing it (R137 item 10). -/
def checkDest (x : Arg) (k e : Nat) (s : State) : Res Unit :=
  match x with
  | .imm _ => .next ()
  | .gpr _ _ => .next ()
  | .mem a _ => andThen (checkAlign a e s) fun _ => checkWrite a k s

/-- The effect of `store_bytes(op, k, v)` once its checks passed; a constant is never a destination. -/
def putBytes (x : Arg) (k v : Nat) (s : State) : State :=
  match x with
  | .imm _ => s
  | .gpr cell w => s.writeView cell w v
  | .mem a _ => s.store a k v

/-- `store_bytes(op, k, v)`; with `k = size(op)` it is `write_int(op, v)`. -/
def storeBytes (x : Arg) (k e v : Nat) (s : State) : Res State :=
  andThen (checkDest x k e s) fun _ => .next (putBytes x k v s)

/-- `to_u32(op)`: a 64-bit value is taken only where its upper half is zero (R64). -/
def toU32 (opcode : Byte) (pos : Nat) (x : Arg) (s : State) : Res (Got (BitVec 32)) :=
  andThen (readInt x s) fun g =>
    if g.val < 2 ^ 32 then .next ⟨BitVec.ofNat 32 g.val, g.st⟩
    else raise (.invalidOperand opcode pos)

/-! ## The frame of a meaning (R73): availability, operands left to right, effect, `pc` -/

/-- Advance behind the operation (R68). -/
def finish (es : List EncodedOperand) (x : Res State) : Res State :=
  andThen x fun t => .next (t.advance (opLength es))

/-- An operation without operands. -/
def run0 (opcode : Byte) (s : State) (body : Res State) : Res State :=
  andThen (requireAvailable opcode s) fun _ => finish [] body

/-- An operation with one operand. -/
def run1 (opcode : Byte) (e₁ : EncodedOperand) (s : State) (body : Arg → Res State) : Res State :=
  andThen (requireAvailable opcode s) fun _ =>
  andThen (argAt opcode 1 e₁ s) fun x₁ => finish [e₁] (body x₁)

/-- An operation with two operands. -/
def run2 (opcode : Byte) (e₁ e₂ : EncodedOperand) (s : State) (body : Arg → Arg → Res State) :
    Res State :=
  andThen (requireAvailable opcode s) fun _ =>
  andThen (argAt opcode 1 e₁ s) fun x₁ =>
  andThen (argAt opcode 2 e₂ s) fun x₂ => finish [e₁, e₂] (body x₁ x₂)

/-- An operation with three operands. -/
def run3 (opcode : Byte) (e₁ e₂ e₃ : EncodedOperand) (s : State)
    (body : Arg → Arg → Arg → Res State) : Res State :=
  andThen (requireAvailable opcode s) fun _ =>
  andThen (argAt opcode 1 e₁ s) fun x₁ =>
  andThen (argAt opcode 2 e₂ s) fun x₂ =>
  andThen (argAt opcode 3 e₃ s) fun x₃ => finish [e₁, e₂, e₃] (body x₁ x₂ x₃)

end Sys2Proof.Machine
end

