-- ==== Sys2Proof/Machine/CacheControl.lean ====
section
/-! DEFINITION. INVD and WBINVD (43_cache_control R95, R96, R97). -/

namespace Sys2Proof.Machine

/-- Every modified byte dropped (R95). -/
def State.invalidateCache (s : State) : State := ({ s with cache := [] }).log .cacheInvalidate

/-- Every modified byte written to `mem`, then dropped (R96). -/
def State.flushCache (s : State) : State :=
  ({ s with mem := writeBackAll s.mem s.cache, cache := [] }).log .cacheWriteBackInvalidate

/-- INVD (R95). -/
def execInvd (s : State) : Res State :=
  run0 0xC5 s (andThen (requireSupervisor 0xC5 s) fun _ => .next s.invalidateCache)

/-- WBINVD (R96). -/
def execWbinvd (s : State) : Res State :=
  run0 0xC6 s (andThen (requireSupervisor 0xC6 s) fun _ => .next s.flushCache)

end Sys2Proof.Machine
end

