-- ==== Sys2Proof/Machine/Flags.lean ====
section
/-! DEFINITION. The flag and the two control-register fields the operations use (R19, R20, R140). -/

namespace Sys2Proof.Machine

/-- The bit of EFLAGS that IF stands at (R20). -/
def ifBit : Nat := 9

/-- IF of an EFLAGS value. -/
def ifOf (e : BitVec 32) : Bool := e.getLsbD ifBit

/-- EFLAGS with IF set or cleared and no other bit changed (R20, R90, R91). -/
def withIf (e : BitVec 32) (b : Bool) : BitVec 32 :=
  if b = true then e ||| BitVec.twoPow 32 ifBit else e &&& ~~~BitVec.twoPow 32 ifBit

/-- CR4.TSD, bit 2 (R19). -/
def crTsd (cr4 : BitVec 64) : Bool := cr4.getLsbD 2

/-- CR4.PCE, bit 8 (R19). -/
def crPce (cr4 : BitVec 64) : Bool := cr4.getLsbD 8

/-- RDPMC needs supervisor when PCE is 0 (R121, R140). -/
def requirePmcPriv (s : State) : Res Unit :=
  require (crPce s.cr4 || decide (s.priv = .supervisor)) (.privilege 0xCE)

/-- RDTSC needs supervisor when TSD is 1 (R122, R140). -/
def requireTscPriv (s : State) : Res Unit :=
  require (!crTsd s.cr4 || decide (s.priv = .supervisor)) (.privilege 0xCF)

end Sys2Proof.Machine
end

