-- ==== Sys2Proof/Machine/Counters.lean ====
section
/-! DEFINITION. RDPMC and RDTSC (47_counters R120 to R123). -/

namespace Sys2Proof.Machine

/-- The time-stamp value (R120, R122): any, or under TSC_MONOTONIC any that is not below `lastTsc`,
which it then becomes. -/
def tscRead (s : State) : Got (BitVec 64) :=
  let g := draw s
  if s.params.tscMonotonic = true then
    let v := BitVec.ofNat 64
      (s.lastTsc.toNat + g.val.toNat % (2 ^ 64 - s.lastTsc.toNat))
    ⟨v, { g.st with lastTsc := v }⟩
  else g

/-- R121. -/
def rdpmcBody (ecx dst : Arg) (s : State) : Res State :=
  andThen (require ecx.isIntegral (.invalidOperand 0xCE 1)) fun _ =>
  andThen (require (dst.isWritable && dst.canStore 8) (.invalidOperand 0xCE 2)) fun _ =>
  andThen (requirePmcPriv s) fun _ =>
  andThen (toU32 0xCE 1 ecx s) fun idx =>
    let ok := verdictOrDraw (pmcVerdict s.params idx.val) idx.st
    andThen (require ok.val (.pmcFault idx.val)) fun _ =>
      storeBytes dst 8 8 (draw ok.st).val.toNat (clobber [.a, .c, .d] (draw ok.st).st)

/-- R122. -/
def rdtscBody (dst : Arg) (s : State) : Res State :=
  andThen (require (dst.isWritable && dst.canStore 8) (.invalidOperand 0xCF 1)) fun _ =>
  andThen (requireTscPriv s) fun _ =>
    storeBytes dst 8 8 (tscRead s).val.toNat (clobber [.a, .d] (tscRead s).st)

/-- RDPMC (R121). -/
def execRdpmc (ecxValue result : EncodedOperand) (s : State) : Res State :=
  run2 0xCE ecxValue result s fun e r => rdpmcBody e r s

/-- RDTSC (R122). -/
def execRdtsc (result : EncodedOperand) (s : State) : Res State :=
  run1 0xCF result s fun r => rdtscBody r s

end Sys2Proof.Machine
end

