-- ==== Sys2Proof/Machine/Cpuid.lean ====
section
/-! DEFINITION. CPUID, basic and extended (40_cpuid R80, R81, R82). -/

namespace Sys2Proof.Machine

/-- The 16-byte result `EDX ++ ECX ++ EBX ++ EAX` (R56, R80). -/
def quadNat (q : CpuidQuad) : Nat :=
  q.eax.toNat + 2 ^ 32 * q.ebx.toNat + 2 ^ 64 * q.ecx.toNat + 2 ^ 96 * q.edx.toNat

/-- Four draws of `u32`, EAX first. -/
def drawQuad (s : State) : Got CpuidQuad :=
  let a := draw s
  let b := draw a.st
  let c := draw b.st
  let d := draw c.st
  ⟨⟨a.val.setWidth 32, b.val.setWidth 32, c.val.setWidth 32, d.val.setWidth 32⟩, d.st⟩

/-- Any element of `CPUID_VALUE(f, sub)` (R82): the full set where no row narrows it; a set of one
needs no choice; from a larger one a draw picks. -/
def cpuidPick (f sub : BitVec 32) (s : State) : Got CpuidQuad :=
  match cpuidRow s.params f sub with
  | none => drawQuad s
  | some r =>
    match r.others with
    | [] => ⟨r.first, s⟩
    | q :: qs =>
      let g := drawIndex (qs.length + 2) s
      ⟨((r.first :: q :: qs)[g.val]?).getD r.first, g.st⟩

/-- `CPUID_PRIV(f)` is met (R82, R140). -/
def requireCpuidPriv (f : BitVec 32) (s : State) : Res Unit :=
  require (decide (cpuidPriv s.params f = .user) || decide (s.priv = .supervisor)) (.privilege 0xC0)

/-- The part both forms share, once function and subfunction are known: privilege, the answer, the
clobber, the store (R80, R81, R137 items 8 to 11). -/
def cpuidAnswer (f sub : BitVec 32) (dst : Arg) (s : State) : Res State :=
  andThen (requireCpuidPriv f s) fun _ =>
    let g := cpuidPick f sub s
    storeBytes dst 16 4 (quadNat g.val) (clobber [.a, .b, .c, .d] g.st)

/-- R80. The basic form does not say what ECX holds: the subfunction is a draw. -/
def cpuidBasic (fn dst : Arg) (s : State) : Res State :=
  andThen (require fn.isIntegral (.invalidOperand 0xC0 1)) fun _ =>
  andThen (require (dst.isWritable && dst.canStore 16) (.invalidOperand 0xC0 2)) fun _ =>
  andThen (toU32 0xC0 1 fn s) fun f =>
    let sub := draw f.st
    cpuidAnswer f.val (sub.val.setWidth 32) dst sub.st

/-- R81. -/
def cpuidExtended (fn sub dst : Arg) (s : State) : Res State :=
  andThen (require fn.isIntegral (.invalidOperand 0xC0 1)) fun _ =>
  andThen (require sub.isIntegral (.invalidOperand 0xC0 2)) fun _ =>
  andThen (require (dst.isWritable && dst.canStore 16) (.invalidOperand 0xC0 3)) fun _ =>
  andThen (toU32 0xC0 1 fn s) fun f =>
  andThen (toU32 0xC0 2 sub f.st) fun u => cpuidAnswer f.val u.val dst u.st

/-- CPUID, basic form (R80). -/
def execCpuid (function result : EncodedOperand) (s : State) : Res State :=
  run2 0xC0 function result s fun fn dst => cpuidBasic fn dst s

/-- CPUID, extended form (R81). -/
def execCpuidExt (function subfunction result : EncodedOperand) (s : State) : Res State :=
  run3 0xC0 function subfunction result s fun fn sub dst => cpuidExtended fn sub dst s

end Sys2Proof.Machine
end

