-- ==== Sys2Proof/Machine/SelectorCheck.lean ====
section
/-! DEFINITION. `SELECTOR_CHECK(op, selector, State)` (R6, R103, R104): the terms a launch writes it
with, read in a State, and what its rules answer (log 19). -/

namespace Sys2Proof.Machine

/-- A Bool as a number. -/
def bit (b : Bool) : Nat := if b = true then 1 else 0

/-- The register under this name. -/
def State.named (s : State) : NamedReg → Nat
  | .cs => s.seg.cs.toNat
  | .ds => s.seg.ds.toNat
  | .es => s.seg.es.toNat
  | .ss => s.seg.ss.toNat
  | .fs => s.seg.fs.toNat
  | .gs => s.seg.gs.toNat
  | .cr0 => s.cr0.toNat
  | .cr2 => s.cr2.toNat
  | .cr3 => s.cr3.toNat
  | .cr4 => s.cr4.toNat
  | .cr8 => s.cr8.toNat
  | .eflags => s.eflags.toNat
  | .gdtrLimit => s.gdtr.limit.toNat
  | .gdtrBase => s.gdtr.base.toNat
  | .idtrLimit => s.idtr.limit.toNat
  | .idtrBase => s.idtr.base.toNat
  | .ldtrSelector => s.ldtr.selector.toNat
  | .ldtrHidden => s.ldtr.hidden.toNat
  | .trSelector => s.tr.selector.toNat
  | .trHidden => s.tr.hidden.toNat
  | .lastTsc => s.lastTsc.toNat
  | .pc => s.pc
  | .supervisor => bit (decide (s.priv = .supervisor))

/-- An event as four numbers: its kind, then port, address, page key or register, then size and
value; 0 where an event has no such part. -/
def eventParts : Event → Nat × Nat × Nat × Nat
  | .ioRead p n v => (1, p.toNat, n, v)
  | .ioWrite p n v => (2, p.toNat, n, v)
  | .memRead a n v => (3, a, n, v)
  | .memWrite a n v => (4, a, n, v)
  | .cacheInvalidate => (5, 0, 0, 0)
  | .cacheWriteBackInvalidate => (6, 0, 0, 0)
  | .cacheWriteBack a => (7, a, 0, 0)
  | .tlbInvalidate k => (8, k, 0, 0)
  | .msrWrite i v => (9, i.toNat, 0, v.toNat)

/-- One part of an event. -/
def eventPart (e : Event) : EventPart → Nat
  | .kind => (eventParts e).1
  | .place => (eventParts e).2.1
  | .size => (eventParts e).2.2.1
  | .value => (eventParts e).2.2.2

/-- The part of the event with this number, counted from 0; 0 where `history` is shorter. -/
def historyPart (h : List Event) (k : Nat) (p : EventPart) : Nat :=
  match h[k]? with
  | some e => eventPart e p
  | none => 0

def termOp : TermOp → Nat → Nat → Nat
  | .add, x, y => x + y
  | .sub, x, y => x - y
  | .mul, x, y => x * y
  | .div, x, y => x / y
  | .mod, x, y => x % y
  | .lt, x, y => bit (decide (x < y))
  | .eq, x, y => bit (decide (x = y))

/-- The number a term stands for in this State. Nothing is recorded: the check is no access (R103). -/
def evalTerm (sel : BitVec 16) (s : State) : StateTerm → Nat
  | .const n => n
  | .selector => sel.toNat
  | .cell reg => (s.gpr.get reg).toNat
  | .named r => s.named r
  | .msr i => (msrGet s.msr (BitVec.ofNat 32 (evalTerm sel s i))).toNat
  | .visible a => (s.visible (evalTerm sel s a)).toNat
  | .behind a => (Memory.get s.mem (evalTerm sel s a)).toNat
  | .modified a => bit (Sparse.get? s.cache (evalTerm sel s a)).isSome
  | .inTlb k => bit (s.tlb.contains (evalTerm sel s k))
  | .historyLength => s.history.length
  | .event k p => historyPart s.history (evalTerm sel s k) p
  | .app op x y => termOp op (evalTerm sel s x) (evalTerm sel s y)
  | .cond c x y => if evalTerm sel s c ≠ 0 then evalTerm sel s x else evalTerm sel s y

/-- The rule speaks of this operation, selector and State. -/
def selectorRuleApplies (op : SelectorOp) (sel : BitVec 16) (s : State) (r : SelectorRule) : Bool :=
  decide (r.op = op) &&
    (match r.selector with
      | none => true
      | some x => decide (x = sel)) &&
    match r.state with
    | none => true
    | some c => decide (evalTerm sel s c ≠ 0)

/-- What is known of `SELECTOR_CHECK(op, sel, s)`; nothing known is a draw (R6, R103, R104). -/
def selectorVerdict (op : SelectorOp) (sel : BitVec 16) (s : State) : Option Bool :=
  (s.params.selectorRules.find? (selectorRuleApplies op sel s)).map SelectorRule.accepted

end Sys2Proof.Machine
end

