-- ==== Sys2Proof/Machine/DescriptorTables.lean ====
section
/-! DEFINITION. LGDT, LIDT, LLDT and LTR (44_descriptor_tables R100 to R105). -/

namespace Sys2Proof.Machine

/-- Limit and base of an operand's value (R56, R100): 16 bits, then `BASE_BITS`. -/
def tableRegOf (m : Mode) (v : Nat) : TableReg :=
  ⟨BitVec.ofNat 16 v, BitVec.ofNat 64 (v / 2 ^ 16 % 2 ^ baseBits m)⟩

/-- The memory operand of exactly `PD_BYTES` bytes, read as limit and base; privilege comes before
the read (R100, R101, R102). -/
def readTableReg (opcode : Byte) (x : Arg) (s : State) : Res (Got TableReg) :=
  andThen (require (x.isMemory && decide (x.size = pdBytes s.params.mode)) (.invalidOperand opcode 1))
    fun _ =>
  andThen (requireSupervisor opcode s) fun _ =>
  andThen (loadBytes x (pdBytes s.params.mode) 1 s) fun g =>
    .next ⟨tableRegOf s.params.mode g.val, g.st⟩

/-- The 16-bit selector operand (R103, R104): privilege, the read, the platform's verdict on the
State in which the selector has been read (log 29). -/
def readSelector (opcode : Byte) (op : SelectorOp) (x : Arg) (s : State) : Res (Got (BitVec 16)) :=
  andThen (require (x.isIntegral && decide (x.width = 16)) (.invalidOperand opcode 1)) fun _ =>
  andThen (requireSupervisor opcode s) fun _ =>
  andThen (readInt x s) fun g =>
    let ok := verdictOrDraw (selectorVerdict op (BitVec.ofNat 16 g.val) g.st) g.st
    andThen (require ok.val (.selectorFault (BitVec.ofNat 16 g.val))) fun _ =>
      .next ⟨BitVec.ofNat 16 g.val, ok.st⟩

/-- LGDT (R101). -/
def execLgdt (src : EncodedOperand) (s : State) : Res State :=
  run1 0xC7 src s fun x =>
    andThen (readTableReg 0xC7 x s) fun g => .next { g.st with gdtr := g.val }

/-- LIDT (R102). -/
def execLidt (src : EncodedOperand) (s : State) : Res State :=
  run1 0xC8 src s fun x =>
    andThen (readTableReg 0xC8 x s) fun g => .next { g.st with idtr := g.val }

/-- LLDT (R103): the selector, and a draw for what the processor caches with it. -/
def execLldt (src : EncodedOperand) (s : State) : Res State :=
  run1 0xC9 src s fun x =>
    andThen (readSelector 0xC9 .lldt x s) fun g =>
      .next { (draw g.st).st with ldtr := ⟨g.val, (draw g.st).val⟩ }

/-- LTR (R104). -/
def execLtr (src : EncodedOperand) (s : State) : Res State :=
  run1 0xCA src s fun x =>
    andThen (readSelector 0xCA .ltr x s) fun g =>
      .next { (draw g.st).st with tr := ⟨g.val, (draw g.st).val⟩ }

end Sys2Proof.Machine
end

