-- ==== Sys2Proof/Machine/InterruptFlag.lean ====
section
/-! DEFINITION. CLI and STI (42_interrupt_flag R90, R91, R92). -/

namespace Sys2Proof.Machine

/-- IF written, no other bit of EFLAGS (R20). -/
def State.setIf (s : State) (b : Bool) : State := { s with eflags := withIf s.eflags b }

/-- CLI (R90). -/
def execCli (s : State) : Res State :=
  run0 0xC3 s (andThen (requireSupervisor 0xC3 s) fun _ => .next (s.setIf false))

/-- STI (R91), without the delay the source does not give it (R92). -/
def execSti (s : State) : Res State :=
  run0 0xC4 s (andThen (requireSupervisor 0xC4 s) fun _ => .next (s.setIf true))

end Sys2Proof.Machine
end

