-- ==== Sys2Proof/Machine/Msr.lean ====
section
/-! DEFINITION. RDMSR and WRMSR (46_msr R113 to R116). -/

namespace Sys2Proof.Machine

/-- What RDMSR reads (R114). -/
def msrRead (idx : BitVec 32) (s : State) : Res (Got (BitVec 64)) :=
  match msrClass s.params idx with
  | .absent => raise (.msrFault idx)
  | .plain _ => .next ⟨msrGet s.msr idx, s⟩
  | .opaqueReg => .next (draw s)

/-- What WRMSR does to the file (R115). -/
def msrWrite (idx : BitVec 32) (v : BitVec 64) (s : State) : Res State :=
  match msrClass s.params idx with
  | .absent => raise (.msrFault idx)
  | .opaqueReg => refuse (.msrOpaqueWrite idx)
  | .plain legal =>
    if msrLegal legal v = true then
      .next (({ s with msr := msrSet s.msr idx v }).log (.msrWrite idx v))
    else raise (.msrFault idx)

/-- R114. -/
def rdmsrBody (ecx dst : Arg) (s : State) : Res State :=
  andThen (require ecx.isIntegral (.invalidOperand 0xCC 1)) fun _ =>
  andThen (require (dst.isWritable && dst.canStore 8) (.invalidOperand 0xCC 2)) fun _ =>
  andThen (requireSupervisor 0xCC s) fun _ =>
  andThen (toU32 0xCC 1 ecx s) fun idx =>
  andThen (msrRead idx.val idx.st) fun v =>
    storeBytes dst 8 8 v.val.toNat (clobber [.a, .c, .d] v.st)

/-- R115. -/
def wrmsrBody (ecx src : Arg) (s : State) : Res State :=
  andThen (require ecx.isIntegral (.invalidOperand 0xCD 1)) fun _ =>
  andThen (require (src.canLoad 8) (.invalidOperand 0xCD 2)) fun _ =>
  andThen (requireSupervisor 0xCD s) fun _ =>
  andThen (toU32 0xCD 1 ecx s) fun idx =>
  andThen (loadBytes src 8 8 idx.st) fun v =>
  andThen (msrWrite idx.val (BitVec.ofNat 64 v.val) v.st) fun t =>
    .next (clobber [.a, .c, .d] t)

/-- RDMSR (R114). -/
def execRdmsr (ecxValue result : EncodedOperand) (s : State) : Res State :=
  run2 0xCC ecxValue result s fun e r => rdmsrBody e r s

/-- WRMSR (R115). -/
def execWrmsr (ecxValue edxEax : EncodedOperand) (s : State) : Res State :=
  run2 0xCD ecxValue edxEax s fun e v => wrmsrBody e v s

end Sys2Proof.Machine
end

