-- ==== Sys2Proof/Machine/PortIo.lean ====
section
/-! DEFINITION. IN and OUT (41_port_io R85, R86, R87). -/

namespace Sys2Proof.Machine

/-- A port operand: integral, 8 or 16 bits (R86, R87). -/
def isPort (x : Arg) : Bool := x.isIntegral && [8, 16].contains x.width

/-- A datum: integral, 8, 16 or 32 bits, so a transfer of 1, 2 or 4 bytes (R86, R87). -/
def isDatum (x : Arg) : Bool := x.isIntegral && [8, 16, 32].contains x.width

/-- `IO_PERMITTED` (R140). -/
def requireIo (opcode : Byte) (port : BitVec 16) (n : Nat) (s : State) : Res Unit :=
  require (ioPermitted s.params s.priv port n) (.privilege opcode)

/-- R86, checks in the order of R137 (static checks left to right, log 20). The destination is
checked before the port is read (D30). -/
def portInBody (dst port : Arg) (s : State) : Res State :=
  andThen (require (isDatum dst && dst.isWritable) (.invalidOperand 0xC1 1)) fun _ =>
  andThen (require (isPort port) (.invalidOperand 0xC1 2)) fun _ =>
  andThen (readInt port s) fun p =>
  andThen (requireIo 0xC1 (BitVec.ofNat 16 p.val) dst.size p.st) fun _ =>
  andThen (checkDest dst dst.size dst.size p.st) fun _ =>
    let v := ioRead (BitVec.ofNat 16 p.val) dst.size p.st
    .next (putBytes dst dst.size v.val (clobber [.a, .d] v.st))

/-- R87. -/
def portOutBody (port value : Arg) (s : State) : Res State :=
  andThen (require (isPort port) (.invalidOperand 0xC2 1)) fun _ =>
  andThen (require (isDatum value) (.invalidOperand 0xC2 2)) fun _ =>
  andThen (readInt port s) fun p =>
  andThen (readInt value p.st) fun v =>
  andThen (requireIo 0xC2 (BitVec.ofNat 16 p.val) value.size v.st) fun _ =>
    .next (clobber [.a, .d] (ioWrite (BitVec.ofNat 16 p.val) value.size v.val v.st))

/-- IN (R86). -/
def execPortIn (dest port : EncodedOperand) (s : State) : Res State :=
  run2 0xC1 dest port s fun d p => portInBody d p s

/-- OUT (R87). -/
def execPortOut (port value : EncodedOperand) (s : State) : Res State :=
  run2 0xC2 port value s fun p v => portOutBody p v s

end Sys2Proof.Machine
end

