-- ==== Sys2Proof/Machine/Tlb.lean ====
section
/-! DEFINITION. INVLPG (45_tlb R110, R111). -/

namespace Sys2Proof.Machine

/-- The set of keys without one of them (R28). -/
def tlbWithout (t : List Nat) (k : Nat) : List Nat := t.filter fun x => decide (x ≠ k)

/-- The entry of the page of `a` removed; memory is not touched (R110). -/
def State.invalidatePage (s : State) (a : Nat) : State :=
  ({ s with tlb := tlbWithout s.tlb (pageOf s.params a) }).log (.tlbInvalidate (pageOf s.params a))

/-- The address a memory operand names. -/
def Arg.address : Arg → Nat
  | .imm _ => 0
  | .gpr _ _ => 0
  | .mem a _ => a

/-- INVLPG (R110). -/
def execInvlpg (addr : EncodedOperand) (s : State) : Res State :=
  run1 0xCB addr s fun x =>
    andThen (require x.isMemory (.invalidOperand 0xCB 1)) fun _ =>
    andThen (requireSupervisor 0xCB s) fun _ => .next (s.invalidatePage x.address)

end Sys2Proof.Machine
end

