-- ==== Sys2Proof/Machine/Dispatch.lean ====
section
/-! DEFINITION. One arm per operation (R65): each a direct call of its meaning. -/

namespace Sys2Proof.Machine

def exec (i : Instr) (s : State) : Host.Outcome State Fault Refusal :=
  match i with
  | .cpuid function result => Sys2Proof.Machine.execCpuid function result s
  | .cpuidExt function subfunction result => Sys2Proof.Machine.execCpuidExt function subfunction result s
  | .portIn dest port => Sys2Proof.Machine.execPortIn dest port s
  | .portOut port value => Sys2Proof.Machine.execPortOut port value s
  | .cli => Sys2Proof.Machine.execCli s
  | .sti => Sys2Proof.Machine.execSti s
  | .invd => Sys2Proof.Machine.execInvd s
  | .wbinvd => Sys2Proof.Machine.execWbinvd s
  | .lgdt src => Sys2Proof.Machine.execLgdt src s
  | .lidt src => Sys2Proof.Machine.execLidt src s
  | .lldt src => Sys2Proof.Machine.execLldt src s
  | .ltr src => Sys2Proof.Machine.execLtr src s
  | .invlpg addr => Sys2Proof.Machine.execInvlpg addr s
  | .rdmsr ecxValue result => Sys2Proof.Machine.execRdmsr ecxValue result s
  | .wrmsr ecxValue edxEax => Sys2Proof.Machine.execWrmsr ecxValue edxEax s
  | .rdpmc ecxValue result => Sys2Proof.Machine.execRdpmc ecxValue result s
  | .rdtsc result => Sys2Proof.Machine.execRdtsc result s

end Sys2Proof.Machine
end

