-- ==== Sys2Proof/Machine/Fetch.lean ====
section
/-! DEFINITION. One step of each agent (R33): the CPU's fetch and dispatch (R73), the cache
background agent (R54), the interrupt source (R143); and the placing of a program (log 25). -/

namespace Sys2Proof.Machine

/-- The text from the next operation on (R25, R52). -/
def State.fetchBytes (s : State) : List Byte := s.params.code.drop s.pc

/-- An illegal encoding in the order of R137: availability first, then InvalidOpcode. -/
def illegal (s : State) (b : Byte) (count : Option Byte) : Res State :=
  andThen (requireAvailable b s) fun _ => raise (.invalidOpcode b count)

/-- What the CPU does where no operation begins at `pc` (R66, R73, R76, R163). -/
def noOperation (s : State) : DecodeError → Res State
  | .empty => .next { s with outcome := .final }
  | .outOfScope b => refuse (.outOfScopeOpcode b)
  | .reserved b => illegal s b none
  | .noCount b => illegal s b none
  | .badCount b n => illegal s b (some n)
  | .badOperand b n => illegal s b (some n)

/-- One CPU step (R73). -/
def cpuStep (s : State) : Res State :=
  if s.params.code.length < s.pc then refuse .pcBeyondCode
  else
    match decode s.params.mode s.params.codec s.fetchBytes with
    | .error e => noOperation s e
    | .ok r => exec r.1 s

/-- `IRQ` announces a vector (R143). Before the first CPU step there is no boundary, and with IF
clear the interrupt stays pending (log 9, log 10). -/
def announce (v : Nat) (s : State) : Res State :=
  if s.pc ≠ 0 ∧ ifOf s.eflags = true then refuse (.interruptDelivery v) else .next s

/-- The move of the agent whose turn it is (R33). -/
def turnStep (s : State) : Res State :=
  match s.turns with
  | [] => cpuStep s
  | .cpu :: rest => cpuStep { s with turns := rest }
  | .writeBack a :: rest => .next (({ s with turns := rest }).writeBack a)
  | .announce v :: rest => announce v { s with turns := rest }

/-- One step of the machine; a run that has ended stays as it ended (R131, R163, log 11, log 12). -/
def machineStep (s : State) : Res State :=
  match s.outcome with
  | .running => turnStep s
  | .final => .next s
  | .faulted f => raise f
  | .refused r => refuse r

/-- A launch whose text holds these bytes at `pc` and whose codec is this one, the CPU to move. -/
def placeProgram (s : State) (text : List Byte) (c : Codec) : State :=
  let before := s.params.code.take s.pc
  let gap := List.replicate (s.pc - s.params.code.length) 0
  { s with
    params := { s.params with code := before ++ gap ++ text, codec := c }
    outcome := .running
    turns := [] }

end Sys2Proof.Machine
end

