-- ==== Sys2Proof/Machine/Step.lean ====
section
/-! DEFINITION. The machine's step and the placing of one instruction where it fetches next. -/

namespace Sys2Proof.Machine

/-- One step of the machine: the move of one agent (R33, R73). -/
def step (s : State) : Host.Outcome State Fault Refusal := machineStep s

/-- The state with an opcode-table word, operand words of zeros, as the next operation (log 25). -/
def State.withFetchWord (s : State) (nbits w : Nat) : State :=
  placeProgram s (tableText s.params.mode nbits w).1 (tableText s.params.mode nbits w).2

end Sys2Proof.Machine
end

