-- ==== Sys2Proof/WellFormed.lean ====
section
/-! DEFINITION. When an operation is one that a text can hold (R62, R76, Definition T1). Each check
is refused on an ill-formed term in Sys2Proof/Tests/Slice0.lean. -/

namespace Sys2Proof

/-- An operand's syntax is in range (a memory operand has a byte, its address fits `MODE`), and its
text spells exactly that syntax under the codec, with no byte left over. -/
def EncodedOperand.wf (m : Mode) (c : Codec) (e : EncodedOperand) : Bool :=
  e.syn.inRange m && decide (codecDecode c e.text = some (e.syn, e.text.length))

def Instr.wf (m : Mode) (c : Codec) (i : Instr) : Bool :=
  i.operands.all (EncodedOperand.wf m c)

end Sys2Proof
end

