-- ==== Sys2Proof/Safety.lean ====
section
/-! DEFINITION. What counts as a safe run, in the terms claims use: complete runs and the named
premises (R130, R161, R163), the states a launch can supply, when an operand can be read or written,
and what an operation leaves unchanged. -/

namespace Sys2Proof.Machine

/-! ## Runs (R130, R163) -/

/-- No fault and no refusal in `k` steps. -/
def SafeRun (k : Nat) (s : State) : Prop := ∃ t, Sys2Proof.core.run k s = .next t

/-- A complete run: `k` steps end with `outcome = final` (R163). -/
def CompleteRun (k : Nat) (s t : State) : Prop :=
  Sys2Proof.core.run k s = .next t ∧ t.outcome = .final

/-! ## The premises of R161 -/

def Supervisor (s : State) : Prop := s.priv = .supervisor

def InterruptsOff (s : State) : Prop := ifOf s.eflags = false

/-- `IRQ` never announces. -/
def NoMaskableInterrupt (s : State) : Prop := ∀ v, Turn.announce v ∉ s.turns

def CacheClean (s : State) : Prop := s.cache = []

/-- No admitted write range meets the program text. -/
def CodeDisjoint (p : Params) : Prop :=
  ∀ a n, memAdmit p a n .write = true → meetsCode p a n = false

/-! ## The states a launch can supply -/

/-- A value kept in 64 bits fits `n` of them. -/
abbrev Fits (n : Nat) (v : BitVec 64) : Prop := v.toNat < 2 ^ n

/-- How wide CR0, CR2, CR3 and CR4 are (R12, R18, C5). -/
def crBits : Mode → Nat
  | .m16 => 32
  | .m32 => 32
  | .m64 => 64

/-- The canonical form of the MSR file: indices rising, none listed that holds 0. -/
def Msr.wf (m : List (Nat × BitVec 64)) : Bool :=
  rising (m.map Prod.fst) && m.all fun e => decide (e.2 ≠ 0)

/-- The invariant: every file in its canonical form, every register within its width, and `pc` within
the text. Every launch of R161 gives such a state, and every step keeps it. -/
structure State.Wf (s : State) : Prop where
  mem   : Memory.wf s.mem = true
  cache : rising (s.cache.map Prod.fst) = true
  msr   : Msr.wf s.msr = true
  tlb   : rising s.tlb = true
  pc    : s.pc ≤ s.params.code.length
  gpr   : ∀ cell, Fits s.params.mode.bits (s.gpr.get cell)
  cr    : Fits (crBits s.params.mode) s.cr0 ∧ Fits (crBits s.params.mode) s.cr2 ∧
          Fits (crBits s.params.mode) s.cr3 ∧ Fits (crBits s.params.mode) s.cr4
  gdtr  : Fits (baseBits s.params.mode) s.gdtr.base
  idtr  : Fits (baseBits s.params.mode) s.idtr.base

/-! ## Who moves, and what is drawn -/

/-- The CPU is to move: no turn is listed, or the first one listed is the CPU's (log 9). -/
abbrev State.CpuMoves (s : State) : Prop := s.turns = [] ∨ s.turns.head? = some .cpu

/-- The verdict the next draw gives where nothing is known of it (R6, log 19). -/
def State.drawnVerdict (s : State) : Bool := (draw s).val.getLsbD 0

/-- The same state in a launch that fixes these first draws (log 7). -/
def State.withDraws (s : State) (ds : List (BitVec 64)) : State :=
  { s with params := { s.params with draws := ds } }

/-! ## Operands as claims see them -/

/-- The admitted form of a resolved operand (R74): nothing for a register that is absent in this
`MODE`, a segment register or a control register. -/
def admittedArg (m : Mode) : Operand → Option Arg
  | .imm v => some (.imm v)
  | .mem a n => some (.mem a.toNat n)
  | .reg id =>
    match regView m id with
    | some (.gpr cell w) => some (.gpr cell w)
    | some .seg => none
    | some .cr => none
    | none => none

/-- The operand a state sees behind an encoded one, where it resolves and is admitted. -/
def argOf (e : EncodedOperand) (s : State) : Option Arg :=
  (resolve e.syn s).bind (admittedArg s.params.mode)

/-- `a` is a multiple of `e` where the policy asks for it (R43). -/
abbrev Aligned (s : State) (a e : Nat) : Prop := s.params.alignPolicy = .strict → a % e = 0

/-- A read of `k` bytes goes through: no memory, or aligned to `e`, inside the address space and
admitted (R42, R43). -/
abbrev Arg.Readable (x : Arg) (k e : Nat) (s : State) : Prop :=
  match x with
  | .imm _ => True
  | .gpr _ _ => True
  | .mem a _ =>
    Aligned s a e ∧ a + k ≤ 2 ^ s.params.mode.bits ∧ memAdmit s.params a k .read = true

/-- A write of `k` bytes goes through: as a read, and not into the program text (R52). -/
abbrev Arg.Storable (x : Arg) (k e : Nat) (s : State) : Prop :=
  match x with
  | .imm _ => False
  | .gpr _ _ => True
  | .mem a _ =>
    Aligned s a e ∧ a + k ≤ 2 ^ s.params.mode.bits ∧ memAdmit s.params a k .write = true ∧
      meetsCode s.params a k = false

/-- What a read of `k` bytes of memory stops with, the checks in their order: alignment, then the top
of the address space and admission (R42, R43, R137). -/
abbrev Arg.ReadStop (x : Arg) (k e : Nat) (s : State) (stop : Res State) : Prop :=
  match x with
  | .imm _ => False
  | .gpr _ _ => False
  | .mem a _ =>
    ¬ Aligned s a e ∧ stop = .refused .misaligned ∨
    Aligned s a e ∧ (2 ^ s.params.mode.bits < a + k ∨ memAdmit s.params a k .read = false) ∧
      stop = .fault (.memory a)

/-- What a write of `k` bytes of memory stops with: as a read, then the program text (R52). -/
abbrev Arg.WriteStop (x : Arg) (k e : Nat) (s : State) (stop : Res State) : Prop :=
  match x with
  | .imm _ => False
  | .gpr _ _ => False
  | .mem a _ =>
    ¬ Aligned s a e ∧ stop = .refused .misaligned ∨
    Aligned s a e ∧ (2 ^ s.params.mode.bits < a + k ∨ memAdmit s.params a k .write = false) ∧
      stop = .fault (.memory a) ∨
    Aligned s a e ∧ a + k ≤ 2 ^ s.params.mode.bits ∧ memAdmit s.params a k .write = true ∧
      meetsCode s.params a k = true ∧ stop = .refused .codeWrite

/-- The value of an operand's first `k` bytes. -/
def Arg.valueIn (x : Arg) (k : Nat) (s : State) : Nat :=
  match x with
  | .imm v => immNat v
  | .gpr cell w => s.readView cell w
  | .mem a _ => leNat (s.bytesAt a k)

/-- The operand's first `k` bytes hold `v`: a register view reads `v`, and memory holds its bytes,
least significant first. -/
abbrev Arg.Holds (x : Arg) (k v : Nat) (t : State) : Prop :=
  match x with
  | .imm _ => False
  | .gpr cell w => t.readView cell w = v
  | .mem a _ => ∀ i, i < k → t.visible (a + i) = BitVec.ofNat 8 (v / 256 ^ i)

/-- The cell a register operand is a view of. -/
def Arg.cell : Arg → Option GprCell
  | .imm _ => none
  | .gpr cell _ => some cell
  | .mem _ _ => none

/-- `addr` is one of the operand's first `k` bytes. -/
def Arg.covers (x : Arg) (k addr : Nat) : Bool :=
  match x with
  | .imm _ => false
  | .gpr _ _ => false
  | .mem a _ => decide (a ≤ addr) && decide (addr < a + k)

/-- The history entries of reading, and of writing, an operand (R31). -/
def Arg.readEvents (x : Arg) (k : Nat) (s : State) : List Event :=
  match x with
  | .imm _ => []
  | .gpr _ _ => []
  | .mem a _ => [.memRead a k (leNat (s.bytesAt a k))]

def Arg.writeEvents (x : Arg) (k v : Nat) : List Event :=
  match x with
  | .imm _ => []
  | .gpr _ _ => []
  | .mem a _ => [.memWrite a k v]

/-- `q` is one of the answers `CPUID_VALUE(f, sub)` admits (R82): any, where no row narrows it. -/
abbrev CpuidAdmits (p : Params) (f sub : BitVec 32) (q : CpuidQuad) : Prop :=
  match cpuidRow p f sub with
  | none => True
  | some r => q = r.first ∨ q ∈ r.others

/-! ## Frames -/

/-- What no operation changes: the parameters, the segment and control registers, the privilege
level, `outcome`, and who moves next (R17, R18, R26, R32). -/
structure SameFixed (s t : State) : Prop where
  params  : t.params = s.params
  seg     : t.seg = s.seg
  cr0     : t.cr0 = s.cr0
  cr2     : t.cr2 = s.cr2
  cr3     : t.cr3 = s.cr3
  cr4     : t.cr4 = s.cr4
  cr8     : t.cr8 = s.cr8
  priv    : t.priv = s.priv
  outcome : t.outcome = s.outcome
  turns   : t.turns = s.turns

/-- The special registers and files: EFLAGS, the table registers, the MSRs, the TLB and the last
time-stamp value. -/
structure SameSpecial (s t : State) : Prop where
  eflags  : t.eflags = s.eflags
  gdtr    : t.gdtr = s.gdtr
  idtr    : t.idtr = s.idtr
  ldtr    : t.ldtr = s.ldtr
  tr      : t.tr = s.tr
  msr     : t.msr = s.msr
  tlb     : t.tlb = s.tlb
  lastTsc : t.lastTsc = s.lastTsc

/-- The cells that are neither the destination's nor, under `CLOBBER = draw`, working cells (R16). -/
def SameCells (working : List GprCell) (dst : Option GprCell) (s t : State) : Prop :=
  ∀ cell, dst ≠ some cell → (s.params.clobber = .preserve ∨ cell ∉ working) →
    t.gpr.get cell = s.gpr.get cell

/-- Every byte outside the destination's first `k` reads as before, and nothing reached `mem`. -/
def SameMemoryBut (dst : Arg) (k : Nat) (s t : State) : Prop :=
  t.mem = s.mem ∧ ∀ a, dst.covers k a = false → t.visible a = s.visible a

/-- No byte changed, in the cache or behind it. -/
def SameMemory (s t : State) : Prop :=
  t.mem = s.mem ∧ t.cache = s.cache ∧ ∀ a, t.visible a = s.visible a

end Sys2Proof.Machine
end

