-- ==== Sys2Proof/Certificates/Slice0/Obligations.lean ====
section
/-! DEFINITION. The statements for the provers, from the numbered rules of spec/. A statement about an
operation says that it completes, under conditions on the state and the operands alone, what it
gives, and what it leaves unchanged; a statement about a stop says when it stops. The definitions they
use beside the model's stand in Sys2Proof/Safety.lean. -/

open Sys2Proof Sys2Proof.Machine

/-! ## Encoding and dispatch -/

/-- Nine words written out from the map of R65 and Definition T1's vectors (95_test_vectors S5 to S8, A1,
B1, G10, M2, N9v) decode to the operation they spell. -/
def Obligations.DecodesWordsOfTheMap : Prop :=
  decode .m32 .test [0xC3, 0x00] = .ok (.cli, []) ∧
  decode .m32 .test [0xC4, 0x00] = .ok (.sti, []) ∧
  decode .m16 .test [0xC5, 0x00] = .ok (.invd, []) ∧
  decode .m64 .test [0xC6, 0x00] = .ok (.wbinvd, []) ∧
  decode .m64 .test [0xCF, 0x01, 0x10, 0x20, 0x00] =
    .ok (.rdtsc ⟨[0x10, 0x20, 0x00], .absolute (.reg 0x0020)⟩, []) ∧
  decode .m32 .test [0xC9, 0x01, 0x02, 0x28, 0x00] =
    .ok (.lldt ⟨[0x02, 0x28, 0x00], .absolute (.imm (.imm16 0x0028))⟩, []) ∧
  decode .m64 .test [0xCC, 0x02, 0x01, 0x1B, 0x10, 0x20, 0x00] =
    .ok (.rdmsr ⟨[0x01, 0x1B], .absolute (.imm (.imm8 0x1B))⟩
      ⟨[0x10, 0x20, 0x00], .absolute (.reg 0x0020)⟩, []) ∧
  decode .m32 .test
      [0xC0, 0x02, 0x04, 0, 0, 0, 0, 0x20, 0x10, 0x00, 0x20, 0, 0, 0, 0, 0, 0] =
    .ok (.cpuid ⟨[0x04, 0, 0, 0, 0], .absolute (.imm (.imm32 0))⟩
      ⟨[0x20, 0x10, 0x00, 0x20, 0, 0, 0, 0, 0, 0], .absolute (.mem 0x2000 16)⟩, []) ∧
  decode .m32 .test [0xC1, 0x02, 0x20, 0x01, 0x00, 0x10, 0, 0, 0, 0, 0, 0, 0x01, 0x60] =
    .ok (.portIn ⟨[0x20, 0x01, 0x00, 0x10, 0, 0, 0, 0, 0, 0], .absolute (.mem 0x1000 1)⟩
      ⟨[0x01, 0x60], .absolute (.imm (.imm8 0x60))⟩, [])

/-- Decoding the encoding of a well-formed operation gives it back, and the bytes behind it stay
(R60, R65, R68, R73, over the codec of Definition T1). -/
def Obligations.DecodeOfEncodeGivesTheOperation : Prop :=
  ∀ (m : Mode) (i : Instr) (rest : List Byte), i.wf m .test = true →
    decode m .test (encode i ++ rest) = .ok (i, rest)

/-- Decoding drops no bit, whatever the codec: the encoding of what was decoded, and the bytes
behind it, are the bytes given. -/
def Obligations.EncodeOfDecodeGivesTheBytes : Prop :=
  ∀ (m : Mode) (c : Codec) (bytes rest : List Byte) (i : Instr),
    decode m c bytes = .ok (i, rest) → encode i ++ rest = bytes

/-- Every operand that Definition T1 can spell decodes to itself from its spelling, at every value. -/
def Obligations.TestCodecReadsItsOwnSpelling : Prop :=
  ∀ (m : Mode) (op : Operand) (text rest : List Byte), op.inRange m = true →
    testSpell op = some text →
      decodeOperand m .test (text ++ rest) = some ⟨text, .absolute op⟩

/-- When the bytes at `pc` decode to an operation and the CPU is to move, the step is that operation's
meaning, with the turn used up and nothing else around it (R73).
Whose turn it is stands in the model's field `turns` (log 9). -/
def Obligations.StepRunsTheDecodedOperation : Prop :=
  ∀ (s : State) (i : Instr) (rest : List Byte),
    s.outcome = .running → s.pc ≤ s.params.code.length →
    decode s.params.mode s.params.codec (s.params.code.drop s.pc) = .ok (i, rest) →
    (s.turns = [] → step s = exec i s) ∧
    (∀ more, s.turns = .cpu :: more → step s = exec i { s with turns := more })

/-- R66: an opcode 0xD0 to 0xDF is an illegal operation, whatever follows it.
That the CPU is to move stands in the model's field `turns` (log 9). -/
def Obligations.ReservedOpcodeIsIllegal : Prop :=
  ∀ (s : State) (b : Byte) (rest : List Byte),
    s.outcome = .running → s.CpuMoves → s.params.code.drop s.pc = b :: rest →
    s.params.puType = .cpu → s.params.archType = .x86 →
    0xD0 ≤ b.toNat → b.toNat ≤ 0xDF → step s = .fault (.invalidOpcode b none)

/-- R76: an assigned opcode with a count byte its row does not list, with no count byte, or with an
operand that is none, is an illegal operation. That an operand the codec does find, but that is none of
R62's (no bytes, an address outside the address space, a length past the text), counts as none is the
model's choice (deduced, log 27); that the CPU is to move stands in the field `turns` (log 9). -/
def Obligations.IllegalCountOrOperandIsInvalidOpcode : Prop :=
  ∀ (s : State) (b : Byte), s.outcome = .running → s.CpuMoves →
    s.params.puType = .cpu → s.params.archType = .x86 → 0xC0 ≤ b.toNat → b.toNat ≤ 0xCF →
    (s.params.code.drop s.pc = [b] → step s = .fault (.invalidOpcode b none)) ∧
    (∀ (op : Opcode) (n : Byte) (rest : List Byte),
      Opcode.ofByte b = some op → s.params.code.drop s.pc = b :: n :: rest →
      (n.toNat ∉ op.counts → step s = .fault (.invalidOpcode b (some n))) ∧
      (n.toNat ∈ op.counts →
        decodeOperands s.params.mode s.params.codec n.toNat rest = none →
        step s = .fault (.invalidOpcode b (some n))))

/-- R67: where either condition fails, every opcode 0xC0 to 0xDF raises Unavailable, whatever follows.
That the CPU is to move stands in the model's field `turns` (log 9). -/
def Obligations.UnavailableRangeRaisesUnavailable : Prop :=
  ∀ (s : State) (b : Byte) (rest : List Byte),
    s.outcome = .running → s.CpuMoves → s.params.code.drop s.pc = b :: rest →
    (s.params.puType ≠ .cpu ∨ s.params.archType ≠ .x86) →
    0xC0 ≤ b.toNat → b.toNat ≤ 0xDF → step s = .fault (.unavailable b)

/-- An opcode outside the range is refused, available or not (R73, R137 item 1).
That the CPU is to move stands in the model's field `turns` (log 9). -/
def Obligations.OpcodeOutsideTheRangeIsRefused : Prop :=
  ∀ (s : State) (b : Byte) (rest : List Byte),
    s.outcome = .running → s.CpuMoves → s.params.code.drop s.pc = b :: rest →
    (b.toNat < 0xC0 ∨ 0xDF < b.toNat) → step s = .refused (.outOfScopeOpcode b)

/-- The end of the text is the end of the run (R163), the turn used up (log 9); a run that has ended
stays as it ended (the model's choice for a final state, log 12). -/
def Obligations.EndOfTextEndsTheRun : Prop :=
  (∀ s : State, s.outcome = .running → s.CpuMoves → s.pc = s.params.code.length →
    step s = .next { s with turns := s.turns.tail, outcome := .final }) ∧
  (∀ s : State, s.outcome = .final → step s = .next s)

/-- The model's form of R131 (its own choice, log 11): a stop is an outcome of `step`, the state left behind
it is `State.record` of that outcome, which differs in `outcome` alone, and a step there stops again with
the same reason. -/
def Obligations.StopsArePreciseAndTerminal : Prop :=
  (∀ (s : State) (f : Fault), step s = .fault f →
    s.record (step s) = { s with outcome := .faulted f } ∧
    step (s.record (step s)) = .fault f) ∧
  (∀ (s : State) (r : Refusal), step s = .refused r →
    s.record (step s) = { s with outcome := .refused r } ∧
    step (s.record (step s)) = .refused r)

/-! ## Invariants and rules of the whole machine -/

/-- Every step keeps the canonical forms, the registers' widths and `pc` within the text.
The canonical forms and the 64-bit homes are the model's own (log 15, 23). -/
def Obligations.StepKeepsTheStateWellFormed : Prop :=
  ∀ s t : State, s.Wf → step s = .next t → t.Wf

/-- The launch state the model names is well formed, and has the values R34 fixes.
The other values of the launch are the model's choice (log 2, 3, 4). -/
def Obligations.ResetIsWellFormed : Prop :=
  State.reset.Wf ∧ State.reset.pc = 0 ∧ State.reset.history = [] ∧
    State.reset.outcome = .running ∧ State.reset.lastTsc = 0

/-- No step of any agent changes a parameter, a segment register, a control register or the
privilege level (R17, R18, R26, R32). -/
def Obligations.NoStepChangesWhatIsFixed : Prop :=
  ∀ s t : State, step s = .next t →
    t.params = s.params ∧ t.seg = s.seg ∧ t.cr0 = s.cr0 ∧ t.cr2 = s.cr2 ∧ t.cr3 = s.cr3 ∧
    t.cr4 = s.cr4 ∧ t.cr8 = s.cr8 ∧ t.priv = s.priv

/-- R20: no operation but CLI and STI changes EFLAGS, and these change bit 9 alone.
That IF is bit 9 is the spec's general knowledge G4 (log 16). -/
def Obligations.OnlyCliAndStiChangeEflags : Prop :=
  ∀ (i : Instr) (s t : State), exec i s = .next t →
    (i ≠ .cli → i ≠ .sti → t.eflags = s.eflags) ∧
    (∀ k : Nat, k ≠ 9 → t.eflags.getLsbD k = s.eflags.getLsbD k)

/-- Each special register is written by its own operation only (R21, R22, R23, R24, R28). -/
def Obligations.SpecialRegistersHaveOneWriter : Prop :=
  ∀ (i : Instr) (s t : State), exec i s = .next t →
    ((∀ e, i ≠ .lgdt e) → t.gdtr = s.gdtr) ∧ ((∀ e, i ≠ .lidt e) → t.idtr = s.idtr) ∧
    ((∀ e, i ≠ .lldt e) → t.ldtr = s.ldtr) ∧ ((∀ e, i ≠ .ltr e) → t.tr = s.tr) ∧
    ((∀ e v, i ≠ .wrmsr e v) → t.msr = s.msr) ∧ ((∀ e, i ≠ .invlpg e) → t.tlb = s.tlb) ∧
    ((∀ e, i ≠ .rdtsc e) → t.lastTsc = s.lastTsc)

/-- Every operation that completes falls through: `pc` advances by its length, at least 2, and the
run goes on (R25, R68, R75). -/
def Obligations.EveryOperationFallsThrough : Prop :=
  ∀ (i : Instr) (s t : State), exec i s = .next t →
    t.pc = s.pc + (encode i).length ∧ 2 ≤ (encode i).length ∧ t.outcome = s.outcome ∧
      t.turns = s.turns

/-- `history` only grows: what an agent did is never forgotten or reordered (R31). -/
def Obligations.HistoryOnlyGrows : Prop :=
  ∀ s t : State, step s = .next t → ∃ events, t.history = s.history ++ events

/-- At user level no operation that completes changes EFLAGS, a table register, an MSR, the TLB or what
stands in `mem` behind the cache (R139, R140). -/
def Obligations.UserLevelCannotReachPrivilegedState : Prop :=
  ∀ (i : Instr) (s t : State), s.priv = .user → exec i s = .next t →
    t.priv = .user ∧ t.eflags = s.eflags ∧ t.gdtr = s.gdtr ∧ t.idtr = s.idtr ∧ t.ldtr = s.ldtr ∧
    t.tr = s.tr ∧ t.msr = s.msr ∧ t.tlb = s.tlb ∧ t.mem = s.mem

/-- With IF clear no step ends in the delivery of an interrupt (R90, R143).
That IF is bit 9 is the spec's general knowledge G4 (log 16). -/
def Obligations.NoDeliveryWhileIfIsClear : Prop :=
  ∀ (s : State) (v : Nat), s.outcome = .running → s.eflags.getLsbD 9 = false →
    step s ≠ .refused (.interruptDelivery v)

/-- Under TSC_MONOTONIC the last time-stamp value never decreases (R120, R122). -/
def Obligations.MonotonicTimeStampNeverDecreases : Prop :=
  ∀ s t : State, s.params.tscMonotonic = true → step s = .next t →
    s.lastTsc.toNat ≤ t.lastTsc.toNat

/-- R164: every run ends. A program is straight-line text and the other agents' turns are finitely many
(log 9), so after one step per byte left, one per turn and the final one the run is complete,
faulted or refused. That the run is still complete after more steps than it needs, as it is here where
an operation has two bytes or more, rests on the model's choice for a final state (log 12). -/
def Obligations.EveryRunEnds : Prop :=
  ∀ (s : State) (k : Nat), s.outcome = .running → s.pc ≤ s.params.code.length →
    s.params.code.length - s.pc + s.turns.length < k →
    (∃ t, CompleteRun k s t) ∨ (∃ f, Sys2Proof.core.run k s = .fault f) ∨
      ∃ r, Sys2Proof.core.run k s = .refused r

/-! ## The other agents -/

/-- R54: the cache background agent moves one modified byte to `mem`, records it, changes nothing
else, and no read can tell. Where the byte its turn names is not modified R54 gives it no step; that
`step` then answers the state with the turn used up is the model's choice (log 9). -/
def Obligations.WriteBackIsInvisibleToReads : Prop :=
  ∀ (s : State) (a : Nat) (more : List Turn),
    s.outcome = .running → s.turns = .writeBack a :: more →
    (∀ b : Byte, Sparse.get? s.cache a = some b →
      ∃ t, step s = .next t ∧ Memory.get t.mem a = b ∧ Sparse.get? t.cache a = none ∧
        (∀ x, t.visible x = s.visible x) ∧
        (∀ x, x ≠ a → Memory.get t.mem x = Memory.get s.mem x ∧
          Sparse.get? t.cache x = Sparse.get? s.cache x) ∧
        t = { s with mem := t.mem, cache := t.cache, turns := more,
                     history := s.history ++ [.cacheWriteBack a] }) ∧
    (Sparse.get? s.cache a = none → step s = .next { s with turns := more })

/-- R143: an announced interrupt is delivered at a boundary exactly where IF is set. Otherwise R143 leaves
it pending, and IRQ may announce it again; that the announcement's turn is used up and no pending bit is
kept is the model's choice (log 9, log 24). Before the first operation there is no boundary (deduced
from 'between two CPU steps', log 10).
That IF is bit 9 is the spec's general knowledge G4 (log 16). -/
def Obligations.InterruptIsDeliveredWhereIfIsSet : Prop :=
  ∀ (s : State) (v : Nat) (more : List Turn),
    s.outcome = .running → s.turns = .announce v :: more →
    (s.pc ≠ 0 → s.eflags.getLsbD 9 = true → step s = .refused (.interruptDelivery v)) ∧
    (s.eflags.getLsbD 9 = false → step s = .next { s with turns := more }) ∧
    (s.pc = 0 → step s = .next { s with turns := more })

/-! ## Memory and registers -/

/-- A read after a write gives the value written, every other byte reads as before, and `mem` behind
the cache is not touched (R41, R42, R49).
The byte order is the spec's general knowledge G1 (log 16). -/
def Obligations.ReadAfterWriteGivesTheValue : Prop :=
  ∀ (a n v : Nat) (s t : State), memWrite a n v s = .next t →
    leNat (t.bytesAt a n) = v % 256 ^ n ∧
    (∀ i, i < n → t.visible (a + i) = BitVec.ofNat 8 (v / 256 ^ i)) ∧
    (∀ x, x < a ∨ a + n ≤ x → t.visible x = s.visible x) ∧
    t.mem = s.mem ∧ t.gpr = s.gpr ∧ t.history = s.history ++ [.memWrite a n v]

/-- When a memory access goes through and what stops it otherwise: past the top or not admitted raises
Memory with the first byte's address, and a store into the text is refused (R42, R45, R134).
`memAdmit` is the model's rule list for MEM_ADMIT (log 26). -/
def Obligations.MemoryAccessIsAdmittedWholeOrNotAtAll : Prop :=
  ∀ (a n v : Nat) (s : State),
    ((2 ^ s.params.mode.bits < a + n ∨ memAdmit s.params a n .read = false) →
      memRead a n s = .fault (.memory a)) ∧
    ((2 ^ s.params.mode.bits < a + n ∨ memAdmit s.params a n .write = false) →
      memWrite a n v s = .fault (.memory a)) ∧
    (a + n ≤ 2 ^ s.params.mode.bits → memAdmit s.params a n .write = true →
      meetsCode s.params a n = true → memWrite a n v s = .refused .codeWrite) ∧
    (a + n ≤ 2 ^ s.params.mode.bits → memAdmit s.params a n .read = true →
      memRead a n s = .next ⟨leNat (s.bytesAt a n),
        { s with history := s.history ++ [.memRead a n (leNat (s.bytesAt a n))] }⟩) ∧
    (a + n ≤ 2 ^ s.params.mode.bits → memAdmit s.params a n .write = true →
      meetsCode s.params a n = false → ∃ t, memWrite a n v s = .next t)

/-- R15: a 16-bit write keeps the upper bits of a wider cell, a 32-bit write in `MODE = 64` clears
them, a write as wide as `MODE` replaces the cell, and no other cell changes.
The aliasing is the spec's general knowledge G2 (log 16). -/
def Obligations.RegisterViewsAlias : Prop :=
  ∀ (s : State) (cell : GprCell) (v : Nat),
    (s.params.mode ≠ .m16 → v < 2 ^ 16 →
      ((s.writeView cell 16 v).gpr.get cell).toNat =
        (s.gpr.get cell).toNat / 2 ^ 16 * 2 ^ 16 + v) ∧
    (s.params.mode = .m16 → v < 2 ^ 16 → ((s.writeView cell 16 v).gpr.get cell).toNat = v) ∧
    (s.params.mode ≠ .m16 → v < 2 ^ 32 → ((s.writeView cell 32 v).gpr.get cell).toNat = v) ∧
    (s.params.mode = .m64 → v < 2 ^ 64 → ((s.writeView cell 64 v).gpr.get cell).toNat = v) ∧
    (∀ w other, other ≠ cell → (s.writeView cell w v).gpr.get other = s.gpr.get other) ∧
    (∀ w, s.readView cell w = (s.gpr.get cell).toNat % 2 ^ w)

/-! ## CPUID -/

/-- R80, its effect: the basic form stores one of the answers admitted for the function and some
subfunction, EAX, EBX, ECX and EDX in that order, and touches no register but A, B, C and D.
The byte order and the working cells are the spec's general knowledge (log 16). -/
def Obligations.CpuidBasicStoresAnAdmittedAnswer : Prop :=
  ∀ (e r : EncodedOperand) (x : Arg) (f : BitVec 32) (a n : Nat) (s : State),
    s.available = true → argOf e s = some x → argOf r s = some (.mem a n) → 16 ≤ n →
    x.isIntegral = true → x.Readable x.size x.size s → x.valueIn x.size s = f.toNat →
    (cpuidPriv s.params f = .user ∨ s.priv = .supervisor) → (Arg.mem a n).Storable 16 4 s →
    ∃ (t : State) (sub : BitVec 32) (q : CpuidQuad), exec (.cpuid e r) s = .next t ∧
      CpuidAdmits s.params f sub q ∧
      t.bytesAt a 4 = leBytes 4 q.eax.toNat ∧ t.bytesAt (a + 4) 4 = leBytes 4 q.ebx.toNat ∧
      t.bytesAt (a + 8) 4 = leBytes 4 q.ecx.toNat ∧
      t.bytesAt (a + 12) 4 = leBytes 4 q.edx.toNat ∧
      t.pc = s.pc + 2 + e.text.length + r.text.length ∧
      t.history = s.history ++ x.readEvents x.size s ++ [.memWrite a 16 (quadNat q)] ∧
      SameFixed s t ∧ SameSpecial s t ∧ SameCells [.a, .b, .c, .d] none s t ∧
      SameMemoryBut (.mem a n) 16 s t

/-- R81, its effect: as the basic form, with the subfunction given.
The byte order and the working cells are the spec's general knowledge (log 16). -/
def Obligations.CpuidExtendedStoresAnAdmittedAnswer : Prop :=
  ∀ (e u r : EncodedOperand) (x y : Arg) (f sub : BitVec 32) (a n : Nat) (s : State),
    s.available = true → argOf e s = some x → argOf u s = some y → argOf r s = some (.mem a n) →
    16 ≤ n → x.isIntegral = true → y.isIntegral = true →
    x.Readable x.size x.size s → x.valueIn x.size s = f.toNat →
    y.Readable y.size y.size s → y.valueIn y.size s = sub.toNat →
    (cpuidPriv s.params f = .user ∨ s.priv = .supervisor) → (Arg.mem a n).Storable 16 4 s →
    ∃ (t : State) (q : CpuidQuad), exec (.cpuidExt e u r) s = .next t ∧
      CpuidAdmits s.params f sub q ∧
      t.bytesAt a 4 = leBytes 4 q.eax.toNat ∧ t.bytesAt (a + 4) 4 = leBytes 4 q.ebx.toNat ∧
      t.bytesAt (a + 8) 4 = leBytes 4 q.ecx.toNat ∧
      t.bytesAt (a + 12) 4 = leBytes 4 q.edx.toNat ∧
      t.pc = s.pc + 2 + e.text.length + u.text.length + r.text.length ∧
      t.history = s.history ++ x.readEvents x.size s ++ y.readEvents y.size s ++
        [.memWrite a 16 (quadNat q)] ∧
      SameFixed s t ∧ SameSpecial s t ∧ SameCells [.a, .b, .c, .d] none s t ∧
      SameMemoryBut (.mem a n) 16 s t

/-! ## IN and OUT -/

/-- R86, its effect: the device's answer, as many bytes as the destination has, lands in the
destination, in a register view as R15 writes one; the port is read once, before the store.
`ioAnswer` is the model's form of IO_DEVICE (log 8); the working cells and the aliasing are the
spec's general knowledge (log 16). -/
def Obligations.InStoresTheDevicesAnswer : Prop :=
  ∀ (d p : EncodedOperand) (dst x : Arg) (port : BitVec 16) (s : State),
    s.available = true → argOf d s = some dst → argOf p s = some x →
    isDatum dst = true → dst.isWritable = true → isPort x = true →
    x.Readable x.size x.size s → x.valueIn x.size s = port.toNat →
    ioPermitted s.params s.priv port dst.size = true → dst.Storable dst.size dst.size s →
    ∃ (t : State) (v : Nat), exec (.portIn d p) s = .next t ∧
      v = ioAnswer s.params (s.history ++ x.readEvents x.size s) port dst.size ∧
      v < 256 ^ dst.size ∧ dst.Holds dst.size v t ∧
      (∀ cell, dst = .gpr cell 16 → s.params.mode ≠ .m16 →
        (s.params.clobber = .preserve ∨ cell ∉ [GprCell.a, GprCell.d]) →
        (t.gpr.get cell).toNat / 2 ^ 16 = (s.gpr.get cell).toNat / 2 ^ 16) ∧
      (∀ cell, dst = .gpr cell 32 → (t.gpr.get cell).toNat = v) ∧
      t.pc = s.pc + 2 + d.text.length + p.text.length ∧
      t.history = s.history ++ x.readEvents x.size s ++ [.ioRead port dst.size v] ++
        dst.writeEvents dst.size v ∧
      SameFixed s t ∧ SameSpecial s t ∧ SameCells [.a, .d] dst.cell s t ∧
      SameMemoryBut dst dst.size s t

/-- R87, its effect: one write event of the value's own size, and no change but the working cells A
and D.
The working cells are the spec's general knowledge G7 (log 16). -/
def Obligations.OutSendsTheValue : Prop :=
  ∀ (p v : EncodedOperand) (x y : Arg) (port : BitVec 16) (s : State),
    s.available = true → argOf p s = some x → argOf v s = some y →
    isPort x = true → isDatum y = true →
    x.Readable x.size x.size s → x.valueIn x.size s = port.toNat → y.Readable y.size y.size s →
    ioPermitted s.params s.priv port y.size = true →
    ∃ t : State, exec (.portOut p v) s = .next t ∧
      t.history = s.history ++ x.readEvents x.size s ++ y.readEvents y.size s ++
        [.ioWrite port y.size (y.valueIn y.size s)] ∧
      t.pc = s.pc + 2 + p.text.length + v.text.length ∧
      SameFixed s t ∧ SameSpecial s t ∧ SameCells [.a, .d] none s t ∧ SameMemory s t

/-! ## CLI and STI -/

/-- R90: CLI clears bit 9 of EFLAGS, changes nothing else but `pc`, needs supervisor, and no
maskable interrupt is delivered behind it.
That IF is bit 9 is the spec's general knowledge G4 (log 16). -/
def Obligations.CliClearsTheInterruptFlag : Prop :=
  encode .cli = [0xC3, 0x00] ∧
  ∀ s : State, s.available = true →
    (s.priv = .supervisor →
      exec .cli s = .next { s with eflags := s.eflags &&& 0xFFFFFDFF#32, pc := s.pc + 2 } ∧
      ∀ t v, exec .cli s = .next t → announce v t = .next t) ∧
    (s.priv = .user → exec .cli s = .fault (.privilege 0xC3))

/-- R91 and R92: STI sets bit 9 of EFLAGS, changes nothing else but `pc`, needs supervisor, and an
interrupt may be delivered at the very next boundary.
That IF is bit 9 is the spec's general knowledge G4 (log 16). -/
def Obligations.StiSetsTheInterruptFlag : Prop :=
  encode .sti = [0xC4, 0x00] ∧
  ∀ s : State, s.available = true →
    (s.priv = .supervisor →
      exec .sti s = .next { s with eflags := s.eflags ||| 0x00000200#32, pc := s.pc + 2 } ∧
      ∀ t v, exec .sti s = .next t → announce v t = .refused (.interruptDelivery v)) ∧
    (s.priv = .user → exec .sti s = .fault (.privilege 0xC4))

/-! ## INVD and WBINVD -/

/-- R95: INVD drops every modified byte, so that every byte reads as `mem` held it, and changes nothing
else but `history` and `pc`; it needs supervisor. -/
def Obligations.InvdDropsModifiedBytes : Prop :=
  encode .invd = [0xC5, 0x00] ∧
  ∀ s : State, s.available = true →
    (s.priv = .supervisor → ∃ t, exec .invd s = .next t ∧
      t = { s with cache := [], history := s.history ++ [.cacheInvalidate], pc := s.pc + 2 } ∧
      ∀ a, t.visible a = Memory.get s.mem a) ∧
    (s.priv = .user → exec .invd s = .fault (.privilege 0xC5))

/-- R96: WBINVD puts into `mem` what every read saw, empties the cache, changes no read's answer and
nothing else but `history` and `pc`; an INVD behind it loses nothing; it needs supervisor. -/
def Obligations.WbinvdWritesBackAndInvalidates : Prop :=
  encode .wbinvd = [0xC6, 0x00] ∧
  ∀ s : State, s.available = true →
    (s.priv = .supervisor → ∃ t, exec .wbinvd s = .next t ∧
      t.cache = [] ∧ (∀ a, Memory.get t.mem a = s.visible a) ∧ (∀ a, t.visible a = s.visible a) ∧
      t = { s with mem := t.mem, cache := [], pc := s.pc + 2,
                   history := s.history ++ [.cacheWriteBackInvalidate] } ∧
      ∃ u, exec .invd t = .next u ∧ ∀ a, u.visible a = s.visible a) ∧
    (s.priv = .user → exec .wbinvd s = .fault (.privilege 0xC6))

/-! ## LGDT, LIDT, LLDT, LTR -/

/-- R101, its effect, with the layout of R100: limit from two bytes, base from the four or eight bytes
behind them, and nothing else changes but `history` and `pc`.
The byte order and the ten bytes of MODE 64 are the spec's general knowledge (log 16). -/
def Obligations.LgdtLoadsLimitAndBase : Prop :=
  ∀ (e : EncodedOperand) (a : Nat) (k : Nat) (s : State),
    s.available = true → s.priv = .supervisor → (k = if s.params.mode = .m64 then 8 else 4) →
    argOf e s = some (.mem a (2 + k)) → (Arg.mem a (2 + k)).Readable (2 + k) 1 s →
    ∃ t : State, exec (.lgdt e) s = .next t ∧
      t.gdtr.limit.toNat = leNat (s.bytesAt a 2) ∧ t.gdtr.base.toNat = leNat (s.bytesAt (a + 2) k) ∧
      t = { s with gdtr := t.gdtr, pc := s.pc + 2 + e.text.length,
                   history := s.history ++ [.memRead a (2 + k) (leNat (s.bytesAt a (2 + k)))] }

/-- R102, its effect: as LGDT, for IDTR.
The byte order and the ten bytes of MODE 64 are the spec's general knowledge (log 16). -/
def Obligations.LidtLoadsLimitAndBase : Prop :=
  ∀ (e : EncodedOperand) (a : Nat) (k : Nat) (s : State),
    s.available = true → s.priv = .supervisor → (k = if s.params.mode = .m64 then 8 else 4) →
    argOf e s = some (.mem a (2 + k)) → (Arg.mem a (2 + k)).Readable (2 + k) 1 s →
    ∃ t : State, exec (.lidt e) s = .next t ∧
      t.idtr.limit.toNat = leNat (s.bytesAt a 2) ∧ t.idtr.base.toNat = leNat (s.bytesAt (a + 2) k) ∧
      t = { s with idtr := t.idtr, pc := s.pc + 2 + e.text.length,
                   history := s.history ++ [.memRead a (2 + k) (leNat (s.bytesAt a (2 + k)))] }

/-- R103, its effect: an accepted selector is loaded and a rejected one faults; where nothing is known
of the verdict the next draw decides between the two. `hidden` is any value, and nothing else
changes but `history`, `pc` and the draw counter. `selectorVerdict` is the model's rule list for
SELECTOR_CHECK (log 19), asked about the State in which the selector has been read (log 29). -/
def Obligations.LldtLoadsTheSelector : Prop :=
  ∀ (e : EncodedOperand) (x : Arg) (sel : BitVec 16) (s : State),
    s.available = true → s.priv = .supervisor → argOf e s = some x →
    x.isIntegral = true → x.width = 16 → x.Readable 2 2 s → x.valueIn 2 s = sel.toNat →
    let completes := ∃ t, exec (.lldt e) s = .next t ∧ t.ldtr.selector = sel ∧
      t = { s with ldtr := t.ldtr, drawn := t.drawn, pc := s.pc + 2 + e.text.length,
                   history := s.history ++ x.readEvents 2 s }
    let faults := exec (.lldt e) s = .fault (.selectorFault sel)
    let verdict := selectorVerdict .lldt sel { s with history := s.history ++ x.readEvents 2 s }
    (verdict = some true → completes) ∧ (verdict = some false → faults) ∧
    (verdict = none → (s.drawnVerdict = true → completes) ∧ (s.drawnVerdict = false → faults))

/-- R104, its effect: as LLDT, for the task register: an accepted selector is loaded and a rejected one
faults; where nothing is known of the verdict the next draw decides between the two. `hidden` is any value, and nothing else
changes but `history`, `pc` and the draw counter. `selectorVerdict` is the model's rule list for
SELECTOR_CHECK (log 19), asked about the State in which the selector has been read (log 29). -/
def Obligations.LtrLoadsTheSelector : Prop :=
  ∀ (e : EncodedOperand) (x : Arg) (sel : BitVec 16) (s : State),
    s.available = true → s.priv = .supervisor → argOf e s = some x →
    x.isIntegral = true → x.width = 16 → x.Readable 2 2 s → x.valueIn 2 s = sel.toNat →
    let completes := ∃ t, exec (.ltr e) s = .next t ∧ t.tr.selector = sel ∧
      t = { s with tr := t.tr, drawn := t.drawn, pc := s.pc + 2 + e.text.length,
                   history := s.history ++ x.readEvents 2 s }
    let faults := exec (.ltr e) s = .fault (.selectorFault sel)
    let verdict := selectorVerdict .ltr sel { s with history := s.history ++ x.readEvents 2 s }
    (verdict = some true → completes) ∧ (verdict = some false → faults) ∧
    (verdict = none → (s.drawnVerdict = true → completes) ∧ (s.drawnVerdict = false → faults))

/-! ## INVLPG -/

/-- R110, its effect: the entry of the operand's page is gone and every other stays, whether or not the
address is aligned or admitted; nothing else changes but `history` and `pc`.
That the addressed byte is not accessed is the spec's general knowledge G27 (log 16). -/
def Obligations.InvlpgRemovesTheEntry : Prop :=
  ∀ (e : EncodedOperand) (a n : Nat) (s : State),
    s.available = true → s.priv = .supervisor → argOf e s = some (.mem a n) →
    ∃ t : State, exec (.invlpg e) s = .next t ∧
      (∀ k, k ∈ t.tlb ↔ k ∈ s.tlb ∧ k ≠ pageOf s.params a) ∧
      t = { s with tlb := t.tlb, pc := s.pc + 2 + e.text.length,
                   history := s.history ++ [.tlbInvalidate (pageOf s.params a)] }

/-! ## RDMSR and WRMSR -/

/-- R114, its effect: the register's 64 bits, EAX lowest, land in the destination; a plain register
gives its value and an opaque one any value; A, C and D may be clobbered, nothing else changes.
The halves' order is the spec's general knowledge G11 (log 16). -/
def Obligations.RdmsrStoresTheRegister : Prop :=
  ∀ (e r : EncodedOperand) (x dst : Arg) (idx : BitVec 32) (s : State),
    s.available = true → s.priv = .supervisor → argOf e s = some x → argOf r s = some dst →
    x.isIntegral = true → dst.isWritable = true → dst.canStore 8 = true →
    x.Readable x.size x.size s → x.valueIn x.size s = idx.toNat → dst.Storable 8 8 s →
    msrClass s.params idx ≠ .absent →
    ∃ (t : State) (v : BitVec 64), exec (.rdmsr e r) s = .next t ∧
      (∀ legal, msrClass s.params idx = .plain legal → v = msrGet s.msr idx) ∧
      dst.Holds 8 v.toNat t ∧ t.pc = s.pc + 2 + e.text.length + r.text.length ∧
      t.history = s.history ++ x.readEvents x.size s ++ dst.writeEvents 8 v.toNat ∧
      SameFixed s t ∧ SameSpecial s t ∧ SameCells [.a, .c, .d] dst.cell s t ∧
      SameMemoryBut dst 8 s t

/-- R115, its effect on a plain register and a legal value: that register holds the value, every other
register keeps its own, and nothing else changes but A, C, D, `history` and `pc`.
The halves' order is the spec's general knowledge G11 (log 16). -/
def Obligations.WrmsrWritesThePlainRegister : Prop :=
  ∀ (e r : EncodedOperand) (x y : Arg) (idx : BitVec 32) (v : BitVec 64) (legal : List ValueRange)
    (s : State),
    s.available = true → s.priv = .supervisor → argOf e s = some x → argOf r s = some y →
    x.isIntegral = true → y.canLoad 8 = true →
    x.Readable x.size x.size s → x.valueIn x.size s = idx.toNat →
    y.Readable 8 8 s → y.valueIn 8 s = v.toNat →
    msrClass s.params idx = .plain legal → msrLegal legal v = true →
    ∃ t : State, exec (.wrmsr e r) s = .next t ∧
      msrGet t.msr idx = v ∧ (∀ j, j ≠ idx → msrGet t.msr j = msrGet s.msr j) ∧
      t.pc = s.pc + 2 + e.text.length + r.text.length ∧
      t.history = s.history ++ x.readEvents x.size s ++ y.readEvents 8 s ++ [.msrWrite idx v] ∧
      SameFixed s t ∧ SameSpecial { s with msr := t.msr } t ∧ SameCells [.a, .c, .d] none s t ∧
      SameMemory s t

/-! ## RDPMC and RDTSC -/

/-- R121, its effect: where the privilege CR4.PCE asks for is met and the counter exists, any 64-bit
value lands in the destination; a counter that does not exist faults; where nothing is known of it the
next draw decides between the two.
CR4.PCE at bit 8 and its sense are the spec's general knowledge G5 (log 16); `pmcVerdict` is the
model's rule list for PMC_EXISTS (log 19). -/
def Obligations.RdpmcStoresAnyValue : Prop :=
  ∀ (e r : EncodedOperand) (x dst : Arg) (idx : BitVec 32) (s : State),
    s.available = true → (s.cr4.getLsbD 8 = true ∨ s.priv = .supervisor) →
    argOf e s = some x → argOf r s = some dst →
    x.isIntegral = true → dst.isWritable = true → dst.canStore 8 = true →
    x.Readable x.size x.size s → x.valueIn x.size s = idx.toNat → dst.Storable 8 8 s →
    let completes := ∃ (t : State) (v : BitVec 64), exec (.rdpmc e r) s = .next t ∧
      dst.Holds 8 v.toNat t ∧ t.pc = s.pc + 2 + e.text.length + r.text.length ∧
      t.history = s.history ++ x.readEvents x.size s ++ dst.writeEvents 8 v.toNat ∧
      SameFixed s t ∧ SameSpecial s t ∧ SameCells [.a, .c, .d] dst.cell s t ∧
      SameMemoryBut dst 8 s t
    (pmcVerdict s.params idx = some true → completes) ∧
    (pmcVerdict s.params idx = some false → exec (.rdpmc e r) s = .fault (.pmcFault idx)) ∧
    (pmcVerdict s.params idx = none → (s.drawnVerdict = true → completes) ∧
      (s.drawnVerdict = false → exec (.rdpmc e r) s = .fault (.pmcFault idx)))

/-- R122, its effect: where the privilege CR4.TSD asks for is met, a 64-bit value lands in the
destination; under TSC_MONOTONIC it is not below the last one, which it replaces.
CR4.TSD at bit 2 and its sense are the spec's general knowledge G5 (log 16). -/
def Obligations.RdtscStoresTheTimeStamp : Prop :=
  ∀ (r : EncodedOperand) (dst : Arg) (s : State),
    s.available = true → (s.cr4.getLsbD 2 = false ∨ s.priv = .supervisor) →
    argOf r s = some dst → dst.isWritable = true → dst.canStore 8 = true → dst.Storable 8 8 s →
    ∃ (t : State) (v : BitVec 64), exec (.rdtsc r) s = .next t ∧ dst.Holds 8 v.toNat t ∧
      (s.params.tscMonotonic = true → s.lastTsc.toNat ≤ v.toNat ∧ t.lastTsc = v) ∧
      (s.params.tscMonotonic = false → t.lastTsc = s.lastTsc) ∧
      t.pc = s.pc + 2 + r.text.length ∧
      t.history = s.history ++ dst.writeEvents 8 v.toNat ∧
      SameFixed s t ∧ SameSpecial { s with lastTsc := t.lastTsc } t ∧
      SameCells [.a, .d] dst.cell s t ∧ SameMemoryBut dst 8 s t

/-! ## Where operations stop -/

/-- Resolution and R74, for every operand of every operation, left to right: where those before it are
admitted, an operand that is none of R62's is refused, an ID that names nothing in this `MODE` is
InvalidOperand at the operand's own position, and a segment or control register is refused. -/
def Obligations.EveryOperandIsResolvedAndAdmitted : Prop :=
  ∀ (i : Instr) (before after : List EncodedOperand) (e : EncodedOperand) (s : State),
    s.available = true → i.operands = before ++ e :: after →
    (∀ x ∈ before, (argOf x s).isSome = true) →
    (resolve e.syn s = none → exec i s = .refused .operandShape) ∧
    (∀ id, resolve e.syn s = some (.reg id) →
      (regView s.params.mode id = none →
        exec i s = .fault (.invalidOperand i.opcode.byte (before.length + 1))) ∧
      (regView s.params.mode id = some .seg → exec i s = .refused .regClass) ∧
      (regView s.params.mode id = some .cr → exec i s = .refused .regClass))

/-- The static checks come next, operands left to right, before privilege and before any read
(R80, R81, R86, R87, R137 item 5), for CPUID, IN and OUT.
That IN's checks go left to right, and not as its pseudocode lists them, is deduced (log 20). -/
def Obligations.StaticChecksOfCpuidInAndOut : Prop :=
  ∀ (e₁ e₂ e₃ : EncodedOperand) (x y z : Arg) (s : State), s.available = true →
    argOf e₁ s = some x → argOf e₂ s = some y → argOf e₃ s = some z →
    (x.isIntegral = false → exec (.cpuid e₁ e₂) s = .fault (.invalidOperand 0xC0 1)) ∧
    (x.isIntegral = true → (y.isWritable && y.canStore 16) = false →
      exec (.cpuid e₁ e₂) s = .fault (.invalidOperand 0xC0 2)) ∧
    (x.isIntegral = false → exec (.cpuidExt e₁ e₂ e₃) s = .fault (.invalidOperand 0xC0 1)) ∧
    (x.isIntegral = true → y.isIntegral = false →
      exec (.cpuidExt e₁ e₂ e₃) s = .fault (.invalidOperand 0xC0 2)) ∧
    (x.isIntegral = true → y.isIntegral = true → (z.isWritable && z.canStore 16) = false →
      exec (.cpuidExt e₁ e₂ e₃) s = .fault (.invalidOperand 0xC0 3)) ∧
    ((x.isIntegral = false ∨ x.isWritable = false ∨ x.width ∉ [8, 16, 32]) →
      exec (.portIn e₁ e₂) s = .fault (.invalidOperand 0xC1 1)) ∧
    (x.isIntegral = true → x.isWritable = true → x.width ∈ [8, 16, 32] →
      (y.isIntegral = false ∨ y.width ∉ [8, 16]) →
      exec (.portIn e₁ e₂) s = .fault (.invalidOperand 0xC1 2)) ∧
    ((x.isIntegral = false ∨ x.width ∉ [8, 16]) →
      exec (.portOut e₁ e₂) s = .fault (.invalidOperand 0xC2 1)) ∧
    (x.isIntegral = true → x.width ∈ [8, 16] →
      (y.isIntegral = false ∨ y.width ∉ [8, 16, 32]) →
      exec (.portOut e₁ e₂) s = .fault (.invalidOperand 0xC2 2))

/-- The static checks of the other operations (R101 to R104, R110, R114, R115, R121, R122). -/
def Obligations.StaticChecksOfTheSystemOperations : Prop :=
  ∀ (e₁ e₂ : EncodedOperand) (x y : Arg) (s : State), s.available = true →
    argOf e₁ s = some x → argOf e₂ s = some y →
    (((∀ a, x ≠ .mem a 6) ∧ s.params.mode ≠ .m64 ∨ (∀ a, x ≠ .mem a 10) ∧ s.params.mode = .m64) →
      exec (.lgdt e₁) s = .fault (.invalidOperand 0xC7 1) ∧
      exec (.lidt e₁) s = .fault (.invalidOperand 0xC8 1)) ∧
    ((x.isIntegral = false ∨ x.width ≠ 16) →
      exec (.lldt e₁) s = .fault (.invalidOperand 0xC9 1) ∧
      exec (.ltr e₁) s = .fault (.invalidOperand 0xCA 1)) ∧
    (x.isMemory = false → exec (.invlpg e₁) s = .fault (.invalidOperand 0xCB 1)) ∧
    (x.isIntegral = false →
      exec (.rdmsr e₁ e₂) s = .fault (.invalidOperand 0xCC 1) ∧
      exec (.wrmsr e₁ e₂) s = .fault (.invalidOperand 0xCD 1) ∧
      exec (.rdpmc e₁ e₂) s = .fault (.invalidOperand 0xCE 1)) ∧
    (x.isIntegral = true → (y.isWritable && y.canStore 8) = false →
      exec (.rdmsr e₁ e₂) s = .fault (.invalidOperand 0xCC 2) ∧
      exec (.rdpmc e₁ e₂) s = .fault (.invalidOperand 0xCE 2)) ∧
    (x.isIntegral = true → y.canLoad 8 = false →
      exec (.wrmsr e₁ e₂) s = .fault (.invalidOperand 0xCD 2)) ∧
    ((x.isWritable && x.canStore 8) = false →
      exec (.rdtsc e₁) s = .fault (.invalidOperand 0xCF 1))

/-- At user level each operation whose requirement rests on no operand's value raises Privilege once
its static checks passed, before any operand is read (R137 item 6, R140).
The places and the sense of CR4.PCE and CR4.TSD are the spec's general knowledge G5 (log 16). -/
def Obligations.UserLevelRaisesPrivilege : Prop :=
  ∀ (e₁ e₂ : EncodedOperand) (x y : Arg) (s : State), s.available = true → s.priv = .user →
    argOf e₁ s = some x → argOf e₂ s = some y →
    (x.isMemory = true → x.size = pdBytes s.params.mode →
      exec (.lgdt e₁) s = .fault (.privilege 0xC7) ∧
      exec (.lidt e₁) s = .fault (.privilege 0xC8)) ∧
    (x.isIntegral = true → x.width = 16 →
      exec (.lldt e₁) s = .fault (.privilege 0xC9) ∧
      exec (.ltr e₁) s = .fault (.privilege 0xCA)) ∧
    (x.isMemory = true → exec (.invlpg e₁) s = .fault (.privilege 0xCB)) ∧
    (x.isIntegral = true → y.isWritable = true → y.canStore 8 = true →
      exec (.rdmsr e₁ e₂) s = .fault (.privilege 0xCC)) ∧
    (x.isIntegral = true → y.canLoad 8 = true →
      exec (.wrmsr e₁ e₂) s = .fault (.privilege 0xCD)) ∧
    (x.isIntegral = true → y.isWritable = true → y.canStore 8 = true →
      s.cr4.getLsbD 8 = false → exec (.rdpmc e₁ e₂) s = .fault (.privilege 0xCE)) ∧
    (x.isWritable = true → x.canStore 8 = true → s.cr4.getLsbD 2 = true →
      exec (.rdtsc e₁) s = .fault (.privilege 0xCF))

/-- CPUID, IN and OUT read their source operands first and then check the privilege their values ask
for; IN and OUT then leave no port event (R137 items 7 and 8, R140). -/
def Obligations.ValueDependentPrivilegeIsChecked : Prop :=
  ∀ (e₁ e₂ e₃ : EncodedOperand) (x y z : Arg) (f sub : BitVec 32) (port : BitVec 16) (s : State),
    s.available = true → argOf e₁ s = some x → argOf e₂ s = some y → argOf e₃ s = some z →
    (x.isIntegral = true → y.isWritable = true → y.canStore 16 = true →
      x.Readable x.size x.size s → x.valueIn x.size s = f.toNat → s.priv = .user →
      cpuidPriv s.params f = .supervisor → exec (.cpuid e₁ e₂) s = .fault (.privilege 0xC0)) ∧
    (x.isIntegral = true → y.isIntegral = true → z.isWritable = true → z.canStore 16 = true →
      x.Readable x.size x.size s → x.valueIn x.size s = f.toNat →
      y.Readable y.size y.size s → y.valueIn y.size s = sub.toNat → s.priv = .user →
      cpuidPriv s.params f = .supervisor →
      exec (.cpuidExt e₁ e₂ e₃) s = .fault (.privilege 0xC0)) ∧
    (isDatum x = true → x.isWritable = true → isPort y = true → y.Readable y.size y.size s →
      y.valueIn y.size s = port.toNat → ioPermitted s.params s.priv port x.size = false →
      exec (.portIn e₁ e₂) s = .fault (.privilege 0xC1)) ∧
    (isPort x = true → isDatum y = true → x.Readable x.size x.size s → y.Readable y.size y.size s →
      x.valueIn x.size s = port.toNat → ioPermitted s.params s.priv port y.size = false →
      exec (.portOut e₁ e₂) s = .fault (.privilege 0xC2))

/-- A 64-bit value whose upper half is not zero feeds no 32-bit register: the operation faults
instead of cutting it, at the operand's own position (R64, D6). It is read before CPUID asks for a
privilege, and behind the one RDMSR, WRMSR and RDPMC ask for (R137 items 6 to 8).
CR4.PCE at bit 8 and its sense are the spec's general knowledge G5 (log 16). -/
def Obligations.WideValueForANarrowRegisterFaults : Prop :=
  ∀ (e₁ e₂ e₃ : EncodedOperand) (x y z : Arg) (s : State),
    s.available = true → argOf e₁ s = some x → argOf e₂ s = some y → argOf e₃ s = some z →
    x.isIntegral = true → x.Readable x.size x.size s →
    (2 ^ 32 ≤ x.valueIn x.size s →
      (y.isWritable = true → y.canStore 16 = true →
        exec (.cpuid e₁ e₂) s = .fault (.invalidOperand 0xC0 1)) ∧
      (y.isIntegral = true → z.isWritable = true → z.canStore 16 = true →
        exec (.cpuidExt e₁ e₂ e₃) s = .fault (.invalidOperand 0xC0 1)) ∧
      (s.priv = .supervisor → y.isWritable = true → y.canStore 8 = true →
        exec (.rdmsr e₁ e₂) s = .fault (.invalidOperand 0xCC 1)) ∧
      (s.priv = .supervisor → y.canLoad 8 = true →
        exec (.wrmsr e₁ e₂) s = .fault (.invalidOperand 0xCD 1)) ∧
      (s.cr4.getLsbD 8 = true ∨ s.priv = .supervisor → y.isWritable = true → y.canStore 8 = true →
        exec (.rdpmc e₁ e₂) s = .fault (.invalidOperand 0xCE 1))) ∧
    (x.valueIn x.size s < 2 ^ 32 → y.isIntegral = true → y.Readable y.size y.size s →
      2 ^ 32 ≤ y.valueIn y.size s → z.isWritable = true → z.canStore 16 = true →
      exec (.cpuidExt e₁ e₂ e₃) s = .fault (.invalidOperand 0xC0 2))

/-- An absent model-specific register faults for both operations, an illegal value faults, and writing an
opaque register is refused (R114, R115, R137 item 9). -/
def Obligations.MsrAccessStops : Prop :=
  ∀ (e r : EncodedOperand) (x y : Arg) (idx : BitVec 32) (v : BitVec 64) (s : State),
    s.available = true → s.priv = .supervisor → argOf e s = some x → argOf r s = some y →
    x.isIntegral = true → x.Readable x.size x.size s → x.valueIn x.size s = idx.toNat →
    (y.isWritable = true → y.canStore 8 = true → msrClass s.params idx = .absent →
      exec (.rdmsr e r) s = .fault (.msrFault idx)) ∧
    (y.canLoad 8 = true → y.Readable 8 8 s → y.valueIn 8 s = v.toNat →
      (msrClass s.params idx = .absent → exec (.wrmsr e r) s = .fault (.msrFault idx)) ∧
      (∀ legal, msrClass s.params idx = .plain legal → msrLegal legal v = false →
        exec (.wrmsr e r) s = .fault (.msrFault idx)) ∧
      (msrClass s.params idx = .opaqueReg →
        exec (.wrmsr e r) s = .refused (.msrOpaqueWrite idx)))

/-- A source operand in memory, at whatever position, is checked whole before it is used, and before the
destination is looked at: misaligned under ALIGN_POLICY = strict is refused, past the top or not
admitted raises Memory with its first byte's address (R42, R43, R64, R137 item 7). The sources are read
left to right, before the privilege that CPUID, IN and OUT ask for and behind the one the others ask for.
CR4.PCE at bit 8 and its sense are the spec's general knowledge G5 (log 16). -/
def Obligations.SourceIsCheckedBeforeItIsUsed : Prop :=
  ∀ (e₁ e₂ e₃ : EncodedOperand) (x y z : Arg) (s : State) (stop : Res State),
    s.available = true → argOf e₁ s = some x → argOf e₂ s = some y → argOf e₃ s = some z →
    (x.isIntegral = true → x.ReadStop x.size x.size s stop →
      (y.isWritable = true → y.canStore 16 = true → exec (.cpuid e₁ e₂) s = stop) ∧
      (y.isIntegral = true → z.isWritable = true → z.canStore 16 = true →
        exec (.cpuidExt e₁ e₂ e₃) s = stop) ∧
      (isPort x = true → isDatum y = true → exec (.portOut e₁ e₂) s = stop) ∧
      (s.priv = .supervisor → x.width = 16 → exec (.lldt e₁) s = stop ∧ exec (.ltr e₁) s = stop) ∧
      (s.priv = .supervisor → y.isWritable = true → y.canStore 8 = true →
        exec (.rdmsr e₁ e₂) s = stop) ∧
      (s.priv = .supervisor → y.canLoad 8 = true → exec (.wrmsr e₁ e₂) s = stop) ∧
      (s.cr4.getLsbD 8 = true ∨ s.priv = .supervisor → y.isWritable = true → y.canStore 8 = true →
        exec (.rdpmc e₁ e₂) s = stop)) ∧
    (x.isIntegral = true → x.Readable x.size x.size s →
      (x.valueIn x.size s < 2 ^ 32 → y.isIntegral = true → y.ReadStop y.size y.size s stop →
        z.isWritable = true → z.canStore 16 = true → exec (.cpuidExt e₁ e₂ e₃) s = stop) ∧
      (isPort x = true → isDatum y = true → y.ReadStop y.size y.size s stop →
        exec (.portOut e₁ e₂) s = stop) ∧
      (s.priv = .supervisor → x.valueIn x.size s < 2 ^ 32 → y.canLoad 8 = true →
        y.ReadStop 8 8 s stop → exec (.wrmsr e₁ e₂) s = stop)) ∧
    (isDatum x = true → x.isWritable = true → isPort y = true → y.ReadStop y.size y.size s stop →
      exec (.portIn e₁ e₂) s = stop)

/-- A destination in memory is checked whole before anything changes, in this order: alignment, the top
and admission, the program text (R42, R43, R52, R137 item 10), for every operation that has one: CPUID's
16 bytes with elements of 4, IN's 1, 2 or 4 bytes before the device is touched, and the 8 bytes of RDMSR,
RDPMC and RDTSC. Every earlier check passes.
CR4.PCE at bit 8, CR4.TSD at bit 2 and their senses are the spec's general knowledge G5 (log 16);
`pmcVerdict` is the model's rule list for PMC_EXISTS (log 19). -/
def Obligations.DestinationIsCheckedBeforeTheStore : Prop :=
  ∀ (e₁ e₂ e₃ : EncodedOperand) (x y z : Arg) (f sub : BitVec 32) (port : BitVec 16) (s : State)
    (stop : Res State),
    s.available = true → argOf e₁ s = some x → argOf e₂ s = some y → argOf e₃ s = some z →
    (x.canStore 8 = true → x.WriteStop 8 8 s stop →
      (s.cr4.getLsbD 2 = false ∨ s.priv = .supervisor) → exec (.rdtsc e₁) s = stop) ∧
    (isDatum x = true → isPort y = true → y.Readable y.size y.size s →
      y.valueIn y.size s = port.toNat → ioPermitted s.params s.priv port x.size = true →
      x.WriteStop x.size x.size s stop → exec (.portIn e₁ e₂) s = stop) ∧
    (x.isIntegral = true → x.Readable x.size x.size s → x.valueIn x.size s = f.toNat →
      ((cpuidPriv s.params f = .user ∨ s.priv = .supervisor) →
        (y.canStore 16 = true → y.WriteStop 16 4 s stop → exec (.cpuid e₁ e₂) s = stop) ∧
        (y.isIntegral = true → y.Readable y.size y.size s → y.valueIn y.size s = sub.toNat →
          z.canStore 16 = true → z.WriteStop 16 4 s stop → exec (.cpuidExt e₁ e₂ e₃) s = stop)) ∧
      (y.canStore 8 = true → y.WriteStop 8 8 s stop →
        (s.priv = .supervisor → msrClass s.params f ≠ .absent → exec (.rdmsr e₁ e₂) s = stop) ∧
        (s.cr4.getLsbD 8 = true ∨ s.priv = .supervisor →
          (pmcVerdict s.params f = some true ∨
            pmcVerdict s.params f = none ∧ s.drawnVerdict = true) →
          exec (.rdpmc e₁ e₂) s = stop)))

/-- The read of LGDT and LIDT is never refused for alignment: it is admitted whole or raises Memory with
the first byte's address (R42, R43, R101, R102). -/
def Obligations.TableOperandIsReadAtAnyAlignment : Prop :=
  ∀ (e : EncodedOperand) (a k : Nat) (s : State),
    s.available = true → s.priv = .supervisor → (k = if s.params.mode = .m64 then 10 else 6) →
    argOf e s = some (.mem a k) →
    (2 ^ s.params.mode.bits < a + k ∨ memAdmit s.params a k .read = false) →
    exec (.lgdt e) s = .fault (.memory a) ∧ exec (.lidt e) s = .fault (.memory a)

/-! ## Draws -/

/-- A draw can be any value (R8), and so can a verdict of which nothing is known (R6): some launch fixes
it, with every earlier draw of the run as it was. That a launch can fix draws is the model's choice
(log 7). -/
def Obligations.AnyValueCanBeDrawn : Prop :=
  ∀ (s : State) (v : BitVec 64), ∃ ds : List (BitVec 64),
    (draw (s.withDraws ds)).val = v ∧
    (∀ k, k < s.drawn → drawnValue (s.withDraws ds).params k = drawnValue s.params k) ∧
    ∀ b : Bool, ∃ ds' : List (BitVec 64), (s.withDraws ds').drawnVerdict = b

/-- Every answer `CPUID_VALUE` admits can be the one stored (R80, R81, R82), however large the set is: some
launch's draws pick it. That a launch can fix draws is the model's choice (log 7); the byte order is the
spec's general knowledge (log 16). -/
def Obligations.EveryAdmittedCpuidAnswerCanBeStored : Prop :=
  ∀ (e u r : EncodedOperand) (x y : Arg) (f sub : BitVec 32) (q : CpuidQuad) (a n : Nat) (s : State),
    s.available = true → (∀ ds, argOf e (s.withDraws ds) = some x) →
    (∀ ds, argOf u (s.withDraws ds) = some y) → (∀ ds, argOf r (s.withDraws ds) = some (.mem a n)) →
    16 ≤ n → x.isIntegral = true → y.isIntegral = true →
    x.Readable x.size x.size s → x.valueIn x.size s = f.toNat →
    y.Readable y.size y.size s → y.valueIn y.size s = sub.toNat →
    (cpuidPriv s.params f = .user ∨ s.priv = .supervisor) → (Arg.mem a n).Storable 16 4 s →
    CpuidAdmits s.params f sub q →
    (∃ ds t, exec (.cpuid e r) (s.withDraws ds) = .next t ∧
      t.bytesAt a 16 = leBytes 16 (quadNat q)) ∧
    ∃ ds t, exec (.cpuidExt e u r) (s.withDraws ds) = .next t ∧
      t.bytesAt a 16 = leBytes 16 (quadNat q)
end

