-- ==== Sys2Proof/Laws/Results.lean ====
section
/-! SUPPORT. What the shared checks and operand operations answer: one lemma each for when they go on
and what they then give, so that no later proof unfolds them. -/

namespace Sys2Proof.Machine

variable {α β : Type}

/-! ## Going on -/

@[simp] theorem andThen_next (a : α) (f : α → Res β) : andThen (.next a) f = f a := rfl
@[simp] theorem andThen_fault (r : Fault) (f : α → Res β) : andThen (.fault r) f = .fault r := rfl
@[simp] theorem andThen_refused (r : Refusal) (f : α → Res β) :
    andThen (.refused r) f = .refused r := rfl

/-- A chain goes on exactly where both parts do. -/
theorem andThen_eq_next {x : Res α} {f : α → Res β} {b : β} :
    andThen x f = .next b ↔ ∃ a, x = .next a ∧ f a = .next b := by
  cases x <;> simp

/-- A chain is refused where its first part is, or where the part behind a success is. -/
theorem andThen_eq_refused {x : Res α} {f : α → Res β} {r : Refusal} :
    andThen x f = .refused r ↔ x = .refused r ∨ ∃ a, x = .next a ∧ f a = .refused r := by
  cases x <;> simp

theorem andThen_eq_fault {x : Res α} {f : α → Res β} {r : Fault} :
    andThen x f = .fault r ↔ x = .fault r ∨ ∃ a, x = .next a ∧ f a = .fault r := by
  cases x <;> simp

theorem andThen_assoc {γ : Type} (x : Res α) (f : α → Res β) (g : β → Res γ) :
    andThen (andThen x f) g = andThen x fun a => andThen (f a) g := by
  cases x <;> rfl

@[simp] theorem require_true (f : Fault) : require true f = .next () := rfl
@[simp] theorem require_false (f : Fault) : require false f = .fault f := rfl

theorem require_eq_next {b : Bool} {f : Fault} {u : Unit} :
    require b f = .next u ↔ b = true := by
  cases b <;> simp

theorem require_eq_fault {b : Bool} {f r : Fault} : require b f = .fault r ↔ b = false ∧ f = r := by
  cases b <;> simp

@[simp] theorem require_ne_refused {b : Bool} {f : Fault} {r : Refusal} :
    (require b f = .refused r) ↔ False := by
  cases b <;> simp

/-! ## Checks -/

theorem checkAlign_eq_next {a e : Nat} {s : State} {u : Unit} :
    checkAlign a e s = .next u ↔ Aligned s a e := by
  unfold checkAlign Aligned refuse
  by_cases h : s.params.alignPolicy = .strict <;> by_cases k : a % e = 0 <;> simp [h, k]

theorem checkRead_eq_next {a n : Nat} {s : State} {u : Unit} :
    checkRead a n s = .next u ↔
      a + n ≤ 2 ^ s.params.mode.bits ∧ memAdmit s.params a n .read = true := by
  unfold checkRead raise
  split <;> simp_all

theorem checkWrite_eq_next {a n : Nat} {s : State} {u : Unit} :
    checkWrite a n s = .next u ↔
      a + n ≤ 2 ^ s.params.mode.bits ∧ memAdmit s.params a n .write = true ∧
        meetsCode s.params a n = false := by
  unfold checkWrite raise refuse
  split
  · split <;> simp_all
  · simp_all

/-! ## Operand access -/

/-- The state a read leaves: only `history` may grow. -/
def afterRead (x : Arg) (k : Nat) (s : State) : State :=
  { s with history := s.history ++ x.readEvents k s }

/-- What `load_bytes` does, said once: it goes on exactly for a readable operand, with its value, and
only `history` grows. -/
theorem loadBytes_eq_next {x : Arg} {k e : Nat} {s : State} {g : Got Nat} :
    loadBytes x k e s = .next g ↔
      x.Readable k e s ∧ g = ⟨x.valueIn k s, afterRead x k s⟩ := by
  cases x with
  | imm v => simp [loadBytes, Arg.Readable, Arg.valueIn, afterRead, Arg.readEvents, eq_comm]
  | gpr cell w => simp [loadBytes, Arg.Readable, Arg.valueIn, afterRead, Arg.readEvents, eq_comm]
  | mem a n =>
    simp only [loadBytes, memRead, andThen_eq_next, checkAlign_eq_next, checkRead_eq_next,
      Arg.Readable, Arg.valueIn, afterRead, Arg.readEvents, State.log, Host.Outcome.next.injEq]
    constructor
    · rintro ⟨-, h1, -, ⟨h2, h3⟩, rfl⟩; exact ⟨⟨h1, h2, h3⟩, rfl⟩
    · rintro ⟨⟨h1, h2, h3⟩, rfl⟩; exact ⟨(), h1, (), ⟨h2, h3⟩, rfl⟩

/-- A read that stops, stops with what `ReadStop` says, whatever was to follow. -/
theorem loadBytes_stops {x : Arg} {k e : Nat} {s : State} {stop : Res State}
    (h : x.ReadStop k e s stop) (f : Got Nat → Res State) :
    andThen (loadBytes x k e s) f = stop := by
  cases x with
  | imm v => exact h.elim
  | gpr cell w => exact h.elim
  | mem a n =>
    rcases h with ⟨h, rfl⟩ | ⟨h, hr, rfl⟩
    · have hc : checkAlign a e s = .refused .misaligned :=
        if_pos (by simpa only [Aligned, Classical.not_imp] using h)
      simp only [loadBytes, hc, andThen_refused]
    · have hn : ¬ (a + k ≤ 2 ^ s.params.mode.bits ∧ memAdmit s.params a k .read = true) := by
        rintro ⟨h1, h2⟩
        rcases hr with hr | hr
        · omega
        · rw [h2] at hr; cases hr
      simp only [loadBytes, (checkAlign_eq_next (u := ())).2 h, andThen_next, memRead, checkRead, hn,
        if_false, raise, andThen_fault]

theorem readInt_eq_next {x : Arg} {s : State} {g : Got Nat} :
    readInt x s = .next g ↔
      x.Readable x.size x.size s ∧ g = ⟨x.valueIn x.size s, afterRead x x.size s⟩ :=
  loadBytes_eq_next

theorem toU32_eq_next {op : Byte} {pos : Nat} {x : Arg} {s : State} {g : Got (BitVec 32)} :
    toU32 op pos x s = .next g ↔
      x.Readable x.size x.size s ∧ x.valueIn x.size s < 2 ^ 32 ∧
        g = ⟨BitVec.ofNat 32 (x.valueIn x.size s), afterRead x x.size s⟩ := by
  unfold toU32 raise
  simp only [andThen_eq_next, readInt_eq_next]
  constructor
  · rintro ⟨a, ⟨hr, rfl⟩, h⟩
    by_cases hv : x.valueIn x.size s < 2 ^ 32
    · simp only [hv, if_true] at h; exact ⟨hr, hv, by cases h; rfl⟩
    · simp only [hv, if_false] at h; cases h
  · rintro ⟨hr, hv, rfl⟩
    exact ⟨_, ⟨hr, rfl⟩, by simp only [hv, if_true]⟩

theorem checkDest_eq_next {x : Arg} {k e : Nat} {s : State} {u : Unit} (hw : x.isWritable = true) :
    checkDest x k e s = .next u ↔ x.Storable k e s := by
  cases x with
  | imm v => simp [Arg.isWritable] at hw
  | gpr cell w => simp [checkDest, Arg.Storable]
  | mem a n =>
    simp [checkDest, andThen_eq_next, checkAlign_eq_next, checkWrite_eq_next, Arg.Storable]

/-- A destination that is turned away stops with what `WriteStop` says, whatever was to follow. -/
theorem checkDest_stops {x : Arg} {k e : Nat} {s : State} {stop : Res State}
    (h : x.WriteStop k e s stop) (f : Unit → Res State) : andThen (checkDest x k e s) f = stop := by
  cases x with
  | imm v => exact h.elim
  | gpr cell w => exact h.elim
  | mem a n =>
    rcases h with ⟨h, rfl⟩ | ⟨h, hr, rfl⟩ | ⟨h, h1, h2, h3, rfl⟩
    · have hc : checkAlign a e s = .refused .misaligned :=
        if_pos (by simpa only [Aligned, Classical.not_imp] using h)
      simp only [checkDest, hc, andThen_refused]
    · have hn : ¬ (a + k ≤ 2 ^ s.params.mode.bits ∧ memAdmit s.params a k .write = true) := by
        rintro ⟨h1, h2⟩
        rcases hr with hr | hr
        · omega
        · rw [h2] at hr; cases hr
      simp only [checkDest, (checkAlign_eq_next (u := ())).2 h, andThen_next, checkWrite, hn, if_false,
        raise, andThen_fault]
    · simp only [checkDest, (checkAlign_eq_next (u := ())).2 h, andThen_next, checkWrite, h1, h2, h3,
        and_self, if_true, refuse, andThen_refused]

/-- What `store_bytes` does, said once. -/
theorem storeBytes_eq_next {x : Arg} {k e v : Nat} {s t : State} (hw : x.isWritable = true) :
    storeBytes x k e v s = .next t ↔ x.Storable k e s ∧ t = putBytes x k v s := by
  simp [storeBytes, andThen_eq_next, checkDest_eq_next hw, eq_comm (a := t)]

/-! ## The frame of a meaning -/

theorem argAt_eq_next {op : Byte} {pos : Nat} {e : EncodedOperand} {s : State} {x : Arg} :
    argAt op pos e s = .next x ↔ argOf e s = some x := by
  unfold argAt argOf
  cases h : resolve e.syn s with
  | none => simp [refuse]
  | some o =>
    cases o with
    | imm v => simp [admitOperand, admittedArg]
    | mem a n => simp [admitOperand, admittedArg]
    | reg id =>
      cases hv : regView s.params.mode id with
      | none => simp [admitOperand, admittedArg, hv, raise]
      | some w => cases w <;> simp [admitOperand, admittedArg, hv, refuse]

theorem finish_eq_next {es : List EncodedOperand} {x : Res State} {t : State} :
    finish es x = .next t ↔ ∃ u, x = .next u ∧ t = u.advance (opLength es) := by
  simp [finish, andThen_eq_next, eq_comm (a := t)]

theorem requireAvailable_eq_next {op : Byte} {s : State} {u : Unit} :
    requireAvailable op s = .next u ↔ s.available = true := require_eq_next

theorem requireSupervisor_eq_next {op : Byte} {s : State} {u : Unit} :
    requireSupervisor op s = .next u ↔ s.priv = .supervisor := by
  simp [requireSupervisor, require_eq_next]

theorem run0_eq_next {op : Byte} {s t : State} {body : Res State} :
    run0 op s body = .next t ↔
      s.available = true ∧ ∃ u, body = .next u ∧ t = u.advance 2 := by
  simp [run0, andThen_eq_next, requireAvailable_eq_next, finish_eq_next, opLength]

theorem run1_eq_next {op : Byte} {e₁ : EncodedOperand} {s t : State} {body : Arg → Res State} :
    run1 op e₁ s body = .next t ↔
      s.available = true ∧ ∃ x₁, argOf e₁ s = some x₁ ∧
        ∃ u, body x₁ = .next u ∧ t = u.advance (opLength [e₁]) := by
  simp [run1, andThen_eq_next, requireAvailable_eq_next, finish_eq_next, argAt_eq_next]

theorem run2_eq_next {op : Byte} {e₁ e₂ : EncodedOperand} {s t : State}
    {body : Arg → Arg → Res State} :
    run2 op e₁ e₂ s body = .next t ↔
      s.available = true ∧ ∃ x₁, argOf e₁ s = some x₁ ∧ ∃ x₂, argOf e₂ s = some x₂ ∧
        ∃ u, body x₁ x₂ = .next u ∧ t = u.advance (opLength [e₁, e₂]) := by
  simp [run2, andThen_eq_next, requireAvailable_eq_next, finish_eq_next, argAt_eq_next]

theorem run3_eq_next {op : Byte} {e₁ e₂ e₃ : EncodedOperand} {s t : State}
    {body : Arg → Arg → Arg → Res State} :
    run3 op e₁ e₂ e₃ s body = .next t ↔
      s.available = true ∧ ∃ x₁, argOf e₁ s = some x₁ ∧ ∃ x₂, argOf e₂ s = some x₂ ∧
        ∃ x₃, argOf e₃ s = some x₃ ∧
          ∃ u, body x₁ x₂ x₃ = .next u ∧ t = u.advance (opLength [e₁, e₂, e₃]) := by
  simp [run3, andThen_eq_next, requireAvailable_eq_next, finish_eq_next, argAt_eq_next]

end Sys2Proof.Machine
end

