-- ==== Sys2Proof/Laws/Memory.lean ====
section
/-! SUPPORT. The laws of sparse files, of memory behind the cache and of byte order: a read after a
write gives the value written, a write leaves every other place alone, and every operation keeps the
canonical form. -/

namespace Sys2Proof.Machine

/-! ## Sparse files -/

section Sparse

variable {α : Type}

@[simp] theorem get?_nil (k : Nat) : Sparse.get? ([] : List (Nat × α)) k = none := rfl

theorem get?_set (l : List (Nat × α)) (k j : Nat) (v : α) :
    Sparse.get? (Sparse.set l k v) j = if k = j then some v else Sparse.get? l j := by
  induction l with
  | nil => simp [Sparse.set, Sparse.get?]
  | cons e l ih =>
    simp only [Sparse.set]
    split
    · simp [Sparse.get?]
    · split
      · rename_i h; subst h; by_cases hk : e.1 = j <;> simp [Sparse.get?, hk]
      · rename_i h
        simp only [Sparse.get?, ih]
        by_cases hk : k = j
        · subst hk; simp [Ne.symm h]
        · simp [hk]

theorem get?_erase (l : List (Nat × α)) (k j : Nat) :
    Sparse.get? (Sparse.erase l k) j = if k = j then none else Sparse.get? l j := by
  induction l with
  | nil => simp [Sparse.erase]
  | cons e l ih =>
    simp only [Sparse.erase] at ih ⊢
    by_cases h : e.1 = k
    · subst h
      simp only [List.filter_cons, ne_eq, not_true, decide_false, Bool.false_eq_true, if_false, ih,
        Sparse.get?]
      by_cases hj : e.1 = j <;> simp [hj]
    · simp only [List.filter_cons, ne_eq, h, not_false_eq_true, decide_true, if_true, Sparse.get?, ih]
      by_cases hj : e.1 = j
      · subst hj; simp [Ne.symm h]
      · simp [hj]

theorem rising_iff (l : List Nat) : rising l = true ↔ l.Pairwise (· < ·) := by
  induction l with
  | nil => simp [rising]
  | cons a l ih =>
    cases l with
    | nil => simp [rising]
    | cons b l =>
      simp only [rising, Bool.and_eq_true, decide_eq_true_eq, ih, List.pairwise_cons,
        List.mem_cons, forall_eq_or_imp]
      constructor
      · rintro ⟨hab, hb, hl⟩
        exact ⟨⟨hab, fun x hx => hab.trans (hb x hx)⟩, hb, hl⟩
      · rintro ⟨⟨hab, -⟩, hb, hl⟩
        exact ⟨hab, hb, hl⟩

theorem mem_set_keys {l : List (Nat × α)} {k j : Nat} {v : α}
    (h : j ∈ (Sparse.set l k v).map Prod.fst) : j = k ∨ j ∈ l.map Prod.fst := by
  induction l with
  | nil => simpa [Sparse.set] using h
  | cons e l ih =>
    simp only [Sparse.set] at h
    split at h
    · simpa using h
    · split at h
      · simp only [List.map_cons, List.mem_cons] at h ⊢; tauto
      · simp only [List.map_cons, List.mem_cons] at h ⊢
        rcases h with h | h
        · exact .inr (.inl h)
        · rcases ih h with h | h
          · exact .inl h
          · exact .inr (.inr h)

/-- Writing keeps the keys rising. -/
theorem rising_set {l : List (Nat × α)} (k : Nat) (v : α)
    (h : rising (l.map Prod.fst) = true) : rising ((Sparse.set l k v).map Prod.fst) = true := by
  rw [rising_iff] at *
  induction l with
  | nil => simp [Sparse.set]
  | cons e l ih =>
    simp only [List.map_cons, List.pairwise_cons] at h
    simp only [Sparse.set]
    split
    · rename_i hk
      simp only [List.map_cons, List.pairwise_cons, List.mem_cons, forall_eq_or_imp]
      exact ⟨⟨hk, fun a ha => hk.trans (h.1 a ha)⟩, h⟩
    · split
      · rename_i hk; subst hk
        simpa only [List.map_cons, List.pairwise_cons] using h
      · simp only [List.map_cons, List.pairwise_cons]
        refine ⟨fun a ha => ?_, ih h.2⟩
        rcases mem_set_keys ha with rfl | ha
        · omega
        · exact h.1 a ha

theorem erase_sublist (l : List (Nat × α)) (k : Nat) : (Sparse.erase l k).Sublist l :=
  List.filter_sublist

/-- Erasing keeps the keys rising. -/
theorem rising_erase {l : List (Nat × α)} (k : Nat)
    (h : rising (l.map Prod.fst) = true) : rising ((Sparse.erase l k).map Prod.fst) = true := by
  rw [rising_iff] at *
  exact h.sublist ((erase_sublist l k).map _)

theorem mem_set {l : List (Nat × α)} {k : Nat} {v : α} {e : Nat × α}
    (h : e ∈ Sparse.set l k v) : e = (k, v) ∨ e ∈ l := by
  induction l with
  | nil => simpa [Sparse.set] using h
  | cons d l ih =>
    simp only [Sparse.set] at h
    split at h
    · simpa using h
    · split at h
      · simp only [List.mem_cons] at h ⊢; tauto
      · simp only [List.mem_cons] at h ⊢
        rcases h with h | h
        · exact .inr (.inl h)
        · rcases ih h with h | h
          · exact .inl h
          · exact .inr (.inr h)

end Sparse

/-! ## Memory -/

/-- A read of a byte of `mem` after a write. -/
theorem memory_get_set (m : List Host.Cell) (a b : Nat) (v : Byte) :
    Memory.get (Memory.set m a v) b = if a = b then v else Memory.get m b := by
  unfold Memory.get Memory.set
  by_cases hv : v = unlistedByte
  · simp only [hv, if_true, get?_erase]; by_cases h : a = b <;> simp [h]
  · simp only [hv, if_false, get?_set]; by_cases h : a = b <;> simp [h]

/-- Writing a byte of `mem` keeps the canonical form. -/
theorem memory_set_wf {m : List Host.Cell} (a : Nat) (v : Byte) (h : Memory.wf m = true) :
    Memory.wf (Memory.set m a v) = true := by
  simp only [Memory.wf, Bool.and_eq_true, List.all_eq_true, decide_eq_true_eq] at h ⊢
  unfold Memory.set
  split
  · exact ⟨rising_erase a h.1, fun e he => h.2 e ((erase_sublist m a).subset he)⟩
  · rename_i hv
    refine ⟨rising_set a v h.1, fun e he => ?_⟩
    rcases mem_set he with rfl | he
    · exact hv
    · exact h.2 e he

/-- Writing every modified byte back keeps the canonical form. -/
theorem writeBackAll_wf {m : List Host.Cell} (c : List Host.Cell) (h : Memory.wf m = true) :
    Memory.wf (writeBackAll m c) = true := by
  induction c with
  | nil => exact h
  | cons e c ih => exact memory_set_wf _ _ ih

/-- The reset state's memory is canonical. -/
theorem reset_memory_wf : Memory.wf State.reset.mem = true := by decide

/-- After every modified byte is written back, `mem` holds what a read saw. -/
theorem get_writeBackAll (s : State) (a : Nat) :
    Memory.get (writeBackAll s.mem s.cache) a = s.visible a := by
  unfold State.visible
  generalize s.cache = c
  induction c with
  | nil => rfl
  | cons e c ih =>
    simp only [writeBackAll, memory_get_set, Sparse.get?]
    by_cases h : e.1 = a
    · simp [h]
    · simpa [h] using ih

/-! ## Bytes in a row -/

theorem get?_cacheBytes (bs : List Byte) (l : List Host.Cell) (a b : Nat) :
    Sparse.get? (cacheBytes l a bs) b =
      if a ≤ b then (match bs[b - a]? with | some v => some v | none => Sparse.get? l b)
      else Sparse.get? l b := by
  induction bs generalizing l a with
  | nil => simp [cacheBytes]
  | cons v bs ih =>
    rw [cacheBytes, ih, get?_set]
    by_cases h : a = b
    · subst h; simp
    · by_cases h2 : a ≤ b
      · have h3 : a + 1 ≤ b := by omega
        have h4 : b - a = b - (a + 1) + 1 := by omega
        simp only [h2, h3, if_true, h, if_false, h4, List.getElem?_cons_succ]
      · have h3 : ¬a + 1 ≤ b := by omega
        simp only [h2, h3, if_false, h]

theorem rising_cacheBytes (bs : List Byte) {l : List Host.Cell} (a : Nat)
    (h : rising (l.map Prod.fst) = true) : rising ((cacheBytes l a bs).map Prod.fst) = true := by
  induction bs generalizing l a with
  | nil => exact h
  | cons v bs ih => exact ih _ (rising_set a v h)

@[simp] theorem length_leBytes (n v : Nat) : (leBytes n v).length = n := by
  induction n generalizing v with
  | zero => rfl
  | succ n ih => simp [leBytes, ih]

/-- Byte `i` of a little-endian value (R41). -/
theorem getElem?_leBytes (n v i : Nat) :
    (leBytes n v)[i]? = if i < n then some (BitVec.ofNat 8 (v / 256 ^ i)) else none := by
  induction n generalizing v i with
  | zero => simp [leBytes]
  | succ n ih =>
    cases i with
    | zero => simp [leBytes]
    | succ i =>
      rw [leBytes, List.getElem?_cons_succ, ih, Nat.div_div_eq_div_mul]
      simp only [Nat.add_lt_add_iff_right, pow_succ']

/-- Bytes and value convert back and forth (R41). -/
theorem leNat_leBytes (n v : Nat) : leNat (leBytes n v) = v % 256 ^ n := by
  induction n generalizing v with
  | zero => simp [leBytes, leNat, Nat.mod_one]
  | succ n ih =>
    rw [leBytes, leNat, ih, pow_succ', Nat.mod_mul]
    simp

theorem leNat_lt (bs : List Byte) : leNat bs < 256 ^ bs.length := by
  induction bs with
  | nil => simp [leNat]
  | cons b bs ih =>
    have hb : b.toNat < 256 := b.isLt
    rw [leNat, List.length_cons, pow_succ']
    omega

@[simp] theorem length_bytesAt (s : State) (a n : Nat) : (s.bytesAt a n).length = n := by
  induction n generalizing a with
  | zero => rfl
  | succ n ih => simp [State.bytesAt, ih]

theorem getElem?_bytesAt (s : State) (a n i : Nat) :
    (s.bytesAt a n)[i]? = if i < n then some (s.visible (a + i)) else none := by
  induction n generalizing a i with
  | zero => simp [State.bytesAt]
  | succ n ih =>
    cases i with
    | zero => simp [State.bytesAt]
    | succ i =>
      rw [State.bytesAt, List.getElem?_cons_succ, ih]
      have h : a + 1 + i = a + (i + 1) := by omega
      simp only [Nat.add_lt_add_iff_right, h]

/-- Two states whose reads agree on `n` bytes read the same bytes. -/
theorem bytesAt_congr {s t : State} {a n : Nat}
    (h : ∀ i, i < n → t.visible (a + i) = s.visible (a + i)) : t.bytesAt a n = s.bytesAt a n := by
  apply List.ext_getElem?
  intro i
  simp only [getElem?_bytesAt]
  by_cases hi : i < n
  · simp [hi, h i hi]
  · simp [hi]

/-! ## A store -/

/-- What a read sees after a store: the stored bytes where it wrote, and else what it saw before. -/
theorem visible_store (s : State) (a n v b : Nat) :
    (s.store a n v).visible b =
      if a ≤ b ∧ b < a + n then BitVec.ofNat 8 (v / 256 ^ (b - a)) else s.visible b := by
  unfold State.visible State.store State.log
  simp only [get?_cacheBytes, getElem?_leBytes]
  by_cases h : a ≤ b
  · by_cases h2 : b < a + n
    · have h3 : b - a < n := by omega
      simp [h, h2, h3]
    · have h3 : ¬b - a < n := by omega
      simp [h, h2, h3]
  · simp [h]

/-- A read of the stored place gives the stored value (R42). -/
theorem bytesAt_store (s : State) (a n v : Nat) : (s.store a n v).bytesAt a n = leBytes n v := by
  apply List.ext_getElem?
  intro i
  simp only [getElem?_bytesAt, getElem?_leBytes, visible_store]
  by_cases hi : i < n <;> simp [hi]

/-- A chain of reads sees only the cache and `mem`. -/
theorem visible_congr {s t : State} (hc : t.cache = s.cache) (hm : t.mem = s.mem) (a : Nat) :
    t.visible a = s.visible a := by
  unfold State.visible; rw [hc, hm]

/-! ## The cache background agent (R54) -/

theorem visible_writeBack (s : State) (a b : Nat) : (s.writeBack a).visible b = s.visible b := by
  unfold State.writeBack
  split
  · rfl
  · rename_i v h
    simp only [State.visible, State.log, get?_erase, memory_get_set]
    by_cases hb : a = b
    · subst hb; simp [h]
    · simp [hb]

theorem writeBack_mem_wf {s : State} (a : Nat) (h : Memory.wf s.mem = true) :
    Memory.wf (s.writeBack a).mem = true := by
  unfold State.writeBack
  split
  · exact h
  · exact memory_set_wf _ _ h

theorem writeBack_cache_rising {s : State} (a : Nat)
    (h : rising (s.cache.map Prod.fst) = true) :
    rising ((s.writeBack a).cache.map Prod.fst) = true := by
  unfold State.writeBack
  split
  · exact h
  · exact rising_erase _ h

/-! ## The other sparse files -/

/-- Writing a model-specific register, then reading any (R23). -/
theorem msrGet_msrSet (m : List (Nat × BitVec 64)) (i j : BitVec 32) (v : BitVec 64) :
    msrGet (msrSet m i v) j = if i = j then v else msrGet m j := by
  unfold msrGet msrSet
  have hij : i.toNat = j.toNat ↔ i = j := BitVec.toNat_inj
  by_cases hv : v = 0
  · simp only [hv, if_true, get?_erase, hij]; by_cases h : i = j <;> simp [h]
  · simp only [hv, if_false, get?_set, hij]; by_cases h : i = j <;> simp [h]

theorem msrSet_wf {m : List (Nat × BitVec 64)} (i : BitVec 32) (v : BitVec 64)
    (h : Msr.wf m = true) : Msr.wf (msrSet m i v) = true := by
  simp only [Msr.wf, Bool.and_eq_true, List.all_eq_true, decide_eq_true_eq] at h ⊢
  unfold msrSet
  split
  · exact ⟨rising_erase _ h.1, fun e he => h.2 e ((erase_sublist m _).subset he)⟩
  · rename_i hv
    refine ⟨rising_set _ v h.1, fun e he => ?_⟩
    rcases mem_set he with rfl | he
    · exact hv
    · exact h.2 e he

theorem mem_tlbWithout {t : List Nat} {k j : Nat} : j ∈ tlbWithout t k ↔ j ∈ t ∧ j ≠ k := by
  simp [tlbWithout]

theorem tlbWithout_rising {t : List Nat} (k : Nat) (h : rising t = true) :
    rising (tlbWithout t k) = true := by
  rw [rising_iff] at *
  exact h.sublist List.filter_sublist

end Sys2Proof.Machine
end

