-- ==== Sys2Proof/Laws/Decode.lean ====
section
/-! SUPPORT. The laws of the decoder and the encoder: what the opcode map answers, that the bytes
behind an operand do not change how Definition T1 reads it, and what a successful decoding says. -/

namespace Sys2Proof

open Machine (length_leBytes leNat_leBytes)

/-! ## The opcode map -/

theorem Opcode.ofByte_byte (op : Opcode) : Opcode.ofByte op.byte = some op := by
  cases op <;> decide

theorem Opcode.byte_of_ofByte {b : Byte} {op : Opcode} (h : Opcode.ofByte b = some op) :
    op.byte = b := by
  have := List.find?_some h
  simpa using this

/-- Every assigned opcode lies in the range. -/
theorem Opcode.byte_range (op : Opcode) : ¬ (op.byte.toNat < 0xC0 ∨ 0xDF < op.byte.toNat) := by
  cases op <;> decide

/-- Nothing is assigned from 0xD0 on (R66). -/
theorem Opcode.ofByte_none {b : Byte} (h : 0xD0 ≤ b.toNat) : Opcode.ofByte b = none := by
  cases hb : Opcode.ofByte b with
  | none => rfl
  | some op =>
    have := Opcode.byte_of_ofByte hb
    subst this
    exfalso; revert h; cases op <;> decide

/-- Every byte from 0xC0 to 0xCF is assigned (R65). -/
theorem Opcode.ofByte_some {b : Byte} (h : 0xC0 ≤ b.toNat) (h2 : b.toNat ≤ 0xCF) :
    ∃ op, Opcode.ofByte b = some op := by
  have key : ∀ n, 0xC0 ≤ n → n ≤ 0xCF → (Opcode.ofByte (BitVec.ofNat 8 n)).isSome = true := by
    intro n h1 h2
    interval_cases n <;> rfl
  have h3 := key _ h h2
  rw [BitVec.ofNat_toNat, BitVec.setWidth_eq] at h3
  exact Option.isSome_iff_exists.1 h3

theorem assemble_operands (i : Instr) : assemble i.opcode i.operands = some i := by cases i <;> rfl

theorem assemble_inv {op : Opcode} {es : List EncodedOperand} {i : Instr}
    (h : assemble op es = some i) : i.opcode = op ∧ i.operands = es := by
  unfold assemble at h
  split at h <;> cases h <;> exact ⟨rfl, rfl⟩

/-- The count byte of an operation is one its row lists, and no count is cut to a byte. -/
theorem counts_operands (i : Instr) :
    i.opcode.counts.contains (BitVec.ofNat 8 i.operands.length).toNat = true ∧
      (BitVec.ofNat 8 i.operands.length).toNat = i.operands.length := by
  cases i <;> exact ⟨rfl, rfl⟩

/-! ## Definition T1 -/

theorem leField_append {n : Nat} {bs rest : List Byte} {v : Nat} (h : leField n bs = some v) :
    leField n (bs ++ rest) = some v := by
  unfold leField at *
  split at h
  · rename_i hn
    have : n ≤ (bs ++ rest).length := by simp; omega
    rw [if_pos this, ← h, List.take_append_of_le_length hn]
  · cases h

theorem leField_leBytes (n v : Nat) (rest : List Byte) :
    leField n (leBytes n v ++ rest) = some (v % 256 ^ n) := by
  unfold leField
  rw [if_pos (by simp), List.take_left' (by simp), leNat_leBytes]

theorem testBody_append {tag : Nat} {bs rest : List Byte} {r : Operand × Nat}
    (h : testBody tag bs = some r) : testBody tag (bs ++ rest) = some r := by
  unfold testBody at *
  split_ifs at h ⊢
  all_goals first
    | (simp only [Option.map_eq_some_iff] at h ⊢
       obtain ⟨v, hv, rfl⟩ := h
       exact ⟨v, leField_append hv, rfl⟩)
    | skip
  · cases bs with
    | nil => cases h
    | cons b bs =>
      simp only [List.cons_append, Option.map_eq_some_iff] at h ⊢
      obtain ⟨v, hv, rfl⟩ := h
      exact ⟨v, leField_append hv, rfl⟩

theorem testCodec_append {bs rest : List Byte} {r : OperandSyntax × Nat}
    (h : testCodec bs = some r) : testCodec (bs ++ rest) = some r := by
  cases bs with
  | nil => cases h
  | cons b bs =>
    simp only [testCodec, List.cons_append, Option.map_eq_some_iff] at h ⊢
    obtain ⟨v, hv, rfl⟩ := h
    exact ⟨v, testBody_append hv, rfl⟩

theorem decodeOperand_wf {m : Mode} {e : EncodedOperand} {rest : List Byte}
    (h : e.wf m .test = true) : decodeOperand m .test (e.text ++ rest) = some e := by
  simp only [EncodedOperand.wf, Bool.and_eq_true] at h
  have h2 : testCodec e.text = some (e.syn, e.text.length) := of_decide_eq_true h.2
  simp [decodeOperand, codecDecode, testCodec_append h2, h.1]

theorem decodeOperands_wf {m : Mode} (es : List EncodedOperand) {rest : List Byte}
    (h : es.all (EncodedOperand.wf m .test) = true) :
    decodeOperands m .test es.length (operandBytes es ++ rest) = some (es, rest) := by
  induction es with
  | nil => rfl
  | cons e es ih =>
    simp only [List.all_cons, Bool.and_eq_true] at h
    simp only [List.length_cons, decodeOperands, operandBytes, List.append_assoc,
      decodeOperand_wf h.1]
    rw [List.drop_left, ih h.2]

/-! ## What a successful decoding says -/

theorem decodeOperand_text {m : Mode} {c : Codec} {bs : List Byte} {e : EncodedOperand}
    (h : decodeOperand m c bs = some e) : e.text ++ bs.drop e.text.length = bs := by
  unfold decodeOperand at h
  split at h
  · cases h
  · split at h
    · rename_i r hr hc
      cases h
      simp only [List.length_take]
      rw [Nat.min_eq_left hc.1, List.take_append_drop]
    · cases h

theorem decodeOperands_text {m : Mode} {c : Codec} :
    ∀ {n : Nat} {bs : List Byte} {r : List EncodedOperand × List Byte},
      decodeOperands m c n bs = some r → operandBytes r.1 ++ r.2 = bs ∧ r.1.length = n := by
  intro n
  induction n with
  | zero => intro bs r h; cases h; exact ⟨rfl, rfl⟩
  | succ n ih =>
    intro bs r h
    simp only [decodeOperands] at h
    split at h
    · cases h
    · rename_i e he
      split at h
      · cases h
      · rename_i r' hr'
        cases h
        obtain ⟨h1, h2⟩ := ih hr'
        refine ⟨?_, by simp [h2]⟩
        simp only [operandBytes, List.append_assoc, h1]
        exact decodeOperand_text he

/-- Where decoding succeeds, the bytes were the operation's opcode, its count, its operands' texts and
the rest. -/
theorem decode_ok {m : Mode} {c : Codec} {bs rest : List Byte} {i : Instr}
    (h : decode m c bs = .ok (i, rest)) :
    ∃ b1 tail, bs = i.opcode.byte :: b1 :: tail ∧ b1.toNat = i.operands.length ∧
      operandBytes i.operands ++ rest = tail := by
  unfold decode at h
  split at h
  · cases h
  · rename_i b0 rst
    split at h
    · cases h
    · split at h
      · cases h
      · rename_i op hop
        split at h
        · cases h
        · rename_i b1 tail
          split at h
          · split at h
            · cases h
            · rename_i r hr
              split at h
              · cases h
              · rename_i j hj
                cases h
                obtain ⟨h1, h2⟩ := assemble_inv hj
                obtain ⟨h3, h4⟩ := decodeOperands_text hr
                exact ⟨b1, tail, by rw [h1, Opcode.byte_of_ofByte hop], by rw [h2, h4],
                  by rw [h2, h3]⟩
          · cases h

/-- Where decoding fails on a byte of the range, the reason is an illegal encoding of that byte. -/
theorem decode_error {m : Mode} {c : Codec} {b : Byte} {rest : List Byte} {e : DecodeError}
    (hr : ¬ (b.toNat < 0xC0 ∨ 0xDF < b.toNat)) (h : decode m c (b :: rest) = .error e) :
    e = .reserved b ∨ e = .noCount b ∨ (∃ n, e = .badCount b n) ∨ ∃ n, e = .badOperand b n := by
  simp only [decode, hr, if_false] at h
  split at h
  · cases h; simp
  · split at h
    · cases h; simp
    · split at h
      · split at h
        · cases h; simp
        · split at h
          · cases h; simp
          · cases h
      · cases h; simp

/-! ## Lengths (R68) -/

theorem length_operandBytes (es : List EncodedOperand) :
    (operandBytes es).length + 2 = opLength es := by
  induction es with
  | nil => rfl
  | cons e es ih => simp only [operandBytes, opLength, List.length_append]; omega

theorem length_encode (i : Instr) : (encode i).length = opLength i.operands := by
  simp only [encode, List.length_cons, ← length_operandBytes]

theorem two_le_opLength (es : List EncodedOperand) : 2 ≤ opLength es := by
  induction es with
  | nil => exact le_refl _
  | cons e es ih => simp only [opLength]; omega

theorem opLength_one (e : EncodedOperand) : opLength [e] = 2 + e.text.length := by
  simp [opLength]; omega

theorem opLength_two (e f : EncodedOperand) :
    opLength [e, f] = 2 + e.text.length + f.text.length := by
  simp [opLength]; omega

theorem opLength_three (e f g : EncodedOperand) :
    opLength [e, f, g] = 2 + e.text.length + f.text.length + g.text.length := by
  simp [opLength]; omega

/-- A decoded operation is no longer than the bytes it was decoded from. -/
theorem opLength_le_of_decode {m : Mode} {c : Codec} {bs rest : List Byte} {i : Instr}
    (h : decode m c bs = .ok (i, rest)) : opLength i.operands ≤ bs.length := by
  obtain ⟨b1, tail, rfl, -, rfl⟩ := decode_ok h
  simp only [List.length_cons, List.length_append, ← length_operandBytes]
  omega

end Sys2Proof
end

