-- ==== Sys2Proof/Laws/State.lean ====
section
/-! SUPPORT. The record updates of the model, field by field: one lemma per field per update, so that
no later proof unfolds an update. -/

namespace Sys2Proof.Machine

/-! ## `log` -/

@[simp] theorem State.log_params (s : State) (e : Event) :
    (s.log e).params = s.params := rfl
@[simp] theorem State.log_gpr (s : State) (e : Event) :
    (s.log e).gpr = s.gpr := rfl
@[simp] theorem State.log_seg (s : State) (e : Event) :
    (s.log e).seg = s.seg := rfl
@[simp] theorem State.log_cr0 (s : State) (e : Event) :
    (s.log e).cr0 = s.cr0 := rfl
@[simp] theorem State.log_cr2 (s : State) (e : Event) :
    (s.log e).cr2 = s.cr2 := rfl
@[simp] theorem State.log_cr3 (s : State) (e : Event) :
    (s.log e).cr3 = s.cr3 := rfl
@[simp] theorem State.log_cr4 (s : State) (e : Event) :
    (s.log e).cr4 = s.cr4 := rfl
@[simp] theorem State.log_cr8 (s : State) (e : Event) :
    (s.log e).cr8 = s.cr8 := rfl
@[simp] theorem State.log_eflags (s : State) (e : Event) :
    (s.log e).eflags = s.eflags := rfl
@[simp] theorem State.log_gdtr (s : State) (e : Event) :
    (s.log e).gdtr = s.gdtr := rfl
@[simp] theorem State.log_idtr (s : State) (e : Event) :
    (s.log e).idtr = s.idtr := rfl
@[simp] theorem State.log_ldtr (s : State) (e : Event) :
    (s.log e).ldtr = s.ldtr := rfl
@[simp] theorem State.log_tr (s : State) (e : Event) :
    (s.log e).tr = s.tr := rfl
@[simp] theorem State.log_msr (s : State) (e : Event) :
    (s.log e).msr = s.msr := rfl
@[simp] theorem State.log_lastTsc (s : State) (e : Event) :
    (s.log e).lastTsc = s.lastTsc := rfl
@[simp] theorem State.log_pc (s : State) (e : Event) :
    (s.log e).pc = s.pc := rfl
@[simp] theorem State.log_priv (s : State) (e : Event) :
    (s.log e).priv = s.priv := rfl
@[simp] theorem State.log_cache (s : State) (e : Event) :
    (s.log e).cache = s.cache := rfl
@[simp] theorem State.log_tlb (s : State) (e : Event) :
    (s.log e).tlb = s.tlb := rfl
@[simp] theorem State.log_mem (s : State) (e : Event) :
    (s.log e).mem = s.mem := rfl
@[simp] theorem State.log_history (s : State) (e : Event) :
    (s.log e).history = s.history ++ [e] := rfl
@[simp] theorem State.log_outcome (s : State) (e : Event) :
    (s.log e).outcome = s.outcome := rfl
@[simp] theorem State.log_drawn (s : State) (e : Event) :
    (s.log e).drawn = s.drawn := rfl
@[simp] theorem State.log_turns (s : State) (e : Event) :
    (s.log e).turns = s.turns := rfl

/-! ## `advance` -/

@[simp] theorem State.advance_params (s : State) (n : Nat) :
    (s.advance n).params = s.params := rfl
@[simp] theorem State.advance_gpr (s : State) (n : Nat) :
    (s.advance n).gpr = s.gpr := rfl
@[simp] theorem State.advance_seg (s : State) (n : Nat) :
    (s.advance n).seg = s.seg := rfl
@[simp] theorem State.advance_cr0 (s : State) (n : Nat) :
    (s.advance n).cr0 = s.cr0 := rfl
@[simp] theorem State.advance_cr2 (s : State) (n : Nat) :
    (s.advance n).cr2 = s.cr2 := rfl
@[simp] theorem State.advance_cr3 (s : State) (n : Nat) :
    (s.advance n).cr3 = s.cr3 := rfl
@[simp] theorem State.advance_cr4 (s : State) (n : Nat) :
    (s.advance n).cr4 = s.cr4 := rfl
@[simp] theorem State.advance_cr8 (s : State) (n : Nat) :
    (s.advance n).cr8 = s.cr8 := rfl
@[simp] theorem State.advance_eflags (s : State) (n : Nat) :
    (s.advance n).eflags = s.eflags := rfl
@[simp] theorem State.advance_gdtr (s : State) (n : Nat) :
    (s.advance n).gdtr = s.gdtr := rfl
@[simp] theorem State.advance_idtr (s : State) (n : Nat) :
    (s.advance n).idtr = s.idtr := rfl
@[simp] theorem State.advance_ldtr (s : State) (n : Nat) :
    (s.advance n).ldtr = s.ldtr := rfl
@[simp] theorem State.advance_tr (s : State) (n : Nat) :
    (s.advance n).tr = s.tr := rfl
@[simp] theorem State.advance_msr (s : State) (n : Nat) :
    (s.advance n).msr = s.msr := rfl
@[simp] theorem State.advance_lastTsc (s : State) (n : Nat) :
    (s.advance n).lastTsc = s.lastTsc := rfl
@[simp] theorem State.advance_pc (s : State) (n : Nat) :
    (s.advance n).pc = s.pc + n := rfl
@[simp] theorem State.advance_priv (s : State) (n : Nat) :
    (s.advance n).priv = s.priv := rfl
@[simp] theorem State.advance_cache (s : State) (n : Nat) :
    (s.advance n).cache = s.cache := rfl
@[simp] theorem State.advance_tlb (s : State) (n : Nat) :
    (s.advance n).tlb = s.tlb := rfl
@[simp] theorem State.advance_mem (s : State) (n : Nat) :
    (s.advance n).mem = s.mem := rfl
@[simp] theorem State.advance_history (s : State) (n : Nat) :
    (s.advance n).history = s.history := rfl
@[simp] theorem State.advance_outcome (s : State) (n : Nat) :
    (s.advance n).outcome = s.outcome := rfl
@[simp] theorem State.advance_drawn (s : State) (n : Nat) :
    (s.advance n).drawn = s.drawn := rfl
@[simp] theorem State.advance_turns (s : State) (n : Nat) :
    (s.advance n).turns = s.turns := rfl

/-! ## `store` -/

@[simp] theorem State.store_params (s : State) (a n v : Nat) :
    (s.store a n v).params = s.params := rfl
@[simp] theorem State.store_gpr (s : State) (a n v : Nat) :
    (s.store a n v).gpr = s.gpr := rfl
@[simp] theorem State.store_seg (s : State) (a n v : Nat) :
    (s.store a n v).seg = s.seg := rfl
@[simp] theorem State.store_cr0 (s : State) (a n v : Nat) :
    (s.store a n v).cr0 = s.cr0 := rfl
@[simp] theorem State.store_cr2 (s : State) (a n v : Nat) :
    (s.store a n v).cr2 = s.cr2 := rfl
@[simp] theorem State.store_cr3 (s : State) (a n v : Nat) :
    (s.store a n v).cr3 = s.cr3 := rfl
@[simp] theorem State.store_cr4 (s : State) (a n v : Nat) :
    (s.store a n v).cr4 = s.cr4 := rfl
@[simp] theorem State.store_cr8 (s : State) (a n v : Nat) :
    (s.store a n v).cr8 = s.cr8 := rfl
@[simp] theorem State.store_eflags (s : State) (a n v : Nat) :
    (s.store a n v).eflags = s.eflags := rfl
@[simp] theorem State.store_gdtr (s : State) (a n v : Nat) :
    (s.store a n v).gdtr = s.gdtr := rfl
@[simp] theorem State.store_idtr (s : State) (a n v : Nat) :
    (s.store a n v).idtr = s.idtr := rfl
@[simp] theorem State.store_ldtr (s : State) (a n v : Nat) :
    (s.store a n v).ldtr = s.ldtr := rfl
@[simp] theorem State.store_tr (s : State) (a n v : Nat) :
    (s.store a n v).tr = s.tr := rfl
@[simp] theorem State.store_msr (s : State) (a n v : Nat) :
    (s.store a n v).msr = s.msr := rfl
@[simp] theorem State.store_lastTsc (s : State) (a n v : Nat) :
    (s.store a n v).lastTsc = s.lastTsc := rfl
@[simp] theorem State.store_pc (s : State) (a n v : Nat) :
    (s.store a n v).pc = s.pc := rfl
@[simp] theorem State.store_priv (s : State) (a n v : Nat) :
    (s.store a n v).priv = s.priv := rfl
@[simp] theorem State.store_cache (s : State) (a n v : Nat) :
    (s.store a n v).cache = cacheBytes s.cache a (leBytes n v) := rfl
@[simp] theorem State.store_tlb (s : State) (a n v : Nat) :
    (s.store a n v).tlb = s.tlb := rfl
@[simp] theorem State.store_mem (s : State) (a n v : Nat) :
    (s.store a n v).mem = s.mem := rfl
@[simp] theorem State.store_history (s : State) (a n v : Nat) :
    (s.store a n v).history = s.history ++ [.memWrite a n v] := rfl
@[simp] theorem State.store_outcome (s : State) (a n v : Nat) :
    (s.store a n v).outcome = s.outcome := rfl
@[simp] theorem State.store_drawn (s : State) (a n v : Nat) :
    (s.store a n v).drawn = s.drawn := rfl
@[simp] theorem State.store_turns (s : State) (a n v : Nat) :
    (s.store a n v).turns = s.turns := rfl

/-! ## `writeView` -/

@[simp] theorem State.writeView_params (s : State) (cell : GprCell) (w v : Nat) :
    (s.writeView cell w v).params = s.params := rfl
@[simp] theorem State.writeView_gpr (s : State) (cell : GprCell) (w v : Nat) :
    (s.writeView cell w v).gpr = s.gpr.set cell (cellAfter s.params.mode w (s.gpr.get cell) v) := rfl
@[simp] theorem State.writeView_seg (s : State) (cell : GprCell) (w v : Nat) :
    (s.writeView cell w v).seg = s.seg := rfl
@[simp] theorem State.writeView_cr0 (s : State) (cell : GprCell) (w v : Nat) :
    (s.writeView cell w v).cr0 = s.cr0 := rfl
@[simp] theorem State.writeView_cr2 (s : State) (cell : GprCell) (w v : Nat) :
    (s.writeView cell w v).cr2 = s.cr2 := rfl
@[simp] theorem State.writeView_cr3 (s : State) (cell : GprCell) (w v : Nat) :
    (s.writeView cell w v).cr3 = s.cr3 := rfl
@[simp] theorem State.writeView_cr4 (s : State) (cell : GprCell) (w v : Nat) :
    (s.writeView cell w v).cr4 = s.cr4 := rfl
@[simp] theorem State.writeView_cr8 (s : State) (cell : GprCell) (w v : Nat) :
    (s.writeView cell w v).cr8 = s.cr8 := rfl
@[simp] theorem State.writeView_eflags (s : State) (cell : GprCell) (w v : Nat) :
    (s.writeView cell w v).eflags = s.eflags := rfl
@[simp] theorem State.writeView_gdtr (s : State) (cell : GprCell) (w v : Nat) :
    (s.writeView cell w v).gdtr = s.gdtr := rfl
@[simp] theorem State.writeView_idtr (s : State) (cell : GprCell) (w v : Nat) :
    (s.writeView cell w v).idtr = s.idtr := rfl
@[simp] theorem State.writeView_ldtr (s : State) (cell : GprCell) (w v : Nat) :
    (s.writeView cell w v).ldtr = s.ldtr := rfl
@[simp] theorem State.writeView_tr (s : State) (cell : GprCell) (w v : Nat) :
    (s.writeView cell w v).tr = s.tr := rfl
@[simp] theorem State.writeView_msr (s : State) (cell : GprCell) (w v : Nat) :
    (s.writeView cell w v).msr = s.msr := rfl
@[simp] theorem State.writeView_lastTsc (s : State) (cell : GprCell) (w v : Nat) :
    (s.writeView cell w v).lastTsc = s.lastTsc := rfl
@[simp] theorem State.writeView_pc (s : State) (cell : GprCell) (w v : Nat) :
    (s.writeView cell w v).pc = s.pc := rfl
@[simp] theorem State.writeView_priv (s : State) (cell : GprCell) (w v : Nat) :
    (s.writeView cell w v).priv = s.priv := rfl
@[simp] theorem State.writeView_cache (s : State) (cell : GprCell) (w v : Nat) :
    (s.writeView cell w v).cache = s.cache := rfl
@[simp] theorem State.writeView_tlb (s : State) (cell : GprCell) (w v : Nat) :
    (s.writeView cell w v).tlb = s.tlb := rfl
@[simp] theorem State.writeView_mem (s : State) (cell : GprCell) (w v : Nat) :
    (s.writeView cell w v).mem = s.mem := rfl
@[simp] theorem State.writeView_history (s : State) (cell : GprCell) (w v : Nat) :
    (s.writeView cell w v).history = s.history := rfl
@[simp] theorem State.writeView_outcome (s : State) (cell : GprCell) (w v : Nat) :
    (s.writeView cell w v).outcome = s.outcome := rfl
@[simp] theorem State.writeView_drawn (s : State) (cell : GprCell) (w v : Nat) :
    (s.writeView cell w v).drawn = s.drawn := rfl
@[simp] theorem State.writeView_turns (s : State) (cell : GprCell) (w v : Nat) :
    (s.writeView cell w v).turns = s.turns := rfl

/-! ## `setIf` -/

@[simp] theorem State.setIf_params (s : State) (b : Bool) :
    (s.setIf b).params = s.params := rfl
@[simp] theorem State.setIf_gpr (s : State) (b : Bool) :
    (s.setIf b).gpr = s.gpr := rfl
@[simp] theorem State.setIf_seg (s : State) (b : Bool) :
    (s.setIf b).seg = s.seg := rfl
@[simp] theorem State.setIf_cr0 (s : State) (b : Bool) :
    (s.setIf b).cr0 = s.cr0 := rfl
@[simp] theorem State.setIf_cr2 (s : State) (b : Bool) :
    (s.setIf b).cr2 = s.cr2 := rfl
@[simp] theorem State.setIf_cr3 (s : State) (b : Bool) :
    (s.setIf b).cr3 = s.cr3 := rfl
@[simp] theorem State.setIf_cr4 (s : State) (b : Bool) :
    (s.setIf b).cr4 = s.cr4 := rfl
@[simp] theorem State.setIf_cr8 (s : State) (b : Bool) :
    (s.setIf b).cr8 = s.cr8 := rfl
@[simp] theorem State.setIf_eflags (s : State) (b : Bool) :
    (s.setIf b).eflags = withIf s.eflags b := rfl
@[simp] theorem State.setIf_gdtr (s : State) (b : Bool) :
    (s.setIf b).gdtr = s.gdtr := rfl
@[simp] theorem State.setIf_idtr (s : State) (b : Bool) :
    (s.setIf b).idtr = s.idtr := rfl
@[simp] theorem State.setIf_ldtr (s : State) (b : Bool) :
    (s.setIf b).ldtr = s.ldtr := rfl
@[simp] theorem State.setIf_tr (s : State) (b : Bool) :
    (s.setIf b).tr = s.tr := rfl
@[simp] theorem State.setIf_msr (s : State) (b : Bool) :
    (s.setIf b).msr = s.msr := rfl
@[simp] theorem State.setIf_lastTsc (s : State) (b : Bool) :
    (s.setIf b).lastTsc = s.lastTsc := rfl
@[simp] theorem State.setIf_pc (s : State) (b : Bool) :
    (s.setIf b).pc = s.pc := rfl
@[simp] theorem State.setIf_priv (s : State) (b : Bool) :
    (s.setIf b).priv = s.priv := rfl
@[simp] theorem State.setIf_cache (s : State) (b : Bool) :
    (s.setIf b).cache = s.cache := rfl
@[simp] theorem State.setIf_tlb (s : State) (b : Bool) :
    (s.setIf b).tlb = s.tlb := rfl
@[simp] theorem State.setIf_mem (s : State) (b : Bool) :
    (s.setIf b).mem = s.mem := rfl
@[simp] theorem State.setIf_history (s : State) (b : Bool) :
    (s.setIf b).history = s.history := rfl
@[simp] theorem State.setIf_outcome (s : State) (b : Bool) :
    (s.setIf b).outcome = s.outcome := rfl
@[simp] theorem State.setIf_drawn (s : State) (b : Bool) :
    (s.setIf b).drawn = s.drawn := rfl
@[simp] theorem State.setIf_turns (s : State) (b : Bool) :
    (s.setIf b).turns = s.turns := rfl

/-! ## `invalidateCache` -/

@[simp] theorem State.invalidateCache_params (s : State) :
    (s.invalidateCache).params = s.params := rfl
@[simp] theorem State.invalidateCache_gpr (s : State) :
    (s.invalidateCache).gpr = s.gpr := rfl
@[simp] theorem State.invalidateCache_seg (s : State) :
    (s.invalidateCache).seg = s.seg := rfl
@[simp] theorem State.invalidateCache_cr0 (s : State) :
    (s.invalidateCache).cr0 = s.cr0 := rfl
@[simp] theorem State.invalidateCache_cr2 (s : State) :
    (s.invalidateCache).cr2 = s.cr2 := rfl
@[simp] theorem State.invalidateCache_cr3 (s : State) :
    (s.invalidateCache).cr3 = s.cr3 := rfl
@[simp] theorem State.invalidateCache_cr4 (s : State) :
    (s.invalidateCache).cr4 = s.cr4 := rfl
@[simp] theorem State.invalidateCache_cr8 (s : State) :
    (s.invalidateCache).cr8 = s.cr8 := rfl
@[simp] theorem State.invalidateCache_eflags (s : State) :
    (s.invalidateCache).eflags = s.eflags := rfl
@[simp] theorem State.invalidateCache_gdtr (s : State) :
    (s.invalidateCache).gdtr = s.gdtr := rfl
@[simp] theorem State.invalidateCache_idtr (s : State) :
    (s.invalidateCache).idtr = s.idtr := rfl
@[simp] theorem State.invalidateCache_ldtr (s : State) :
    (s.invalidateCache).ldtr = s.ldtr := rfl
@[simp] theorem State.invalidateCache_tr (s : State) :
    (s.invalidateCache).tr = s.tr := rfl
@[simp] theorem State.invalidateCache_msr (s : State) :
    (s.invalidateCache).msr = s.msr := rfl
@[simp] theorem State.invalidateCache_lastTsc (s : State) :
    (s.invalidateCache).lastTsc = s.lastTsc := rfl
@[simp] theorem State.invalidateCache_pc (s : State) :
    (s.invalidateCache).pc = s.pc := rfl
@[simp] theorem State.invalidateCache_priv (s : State) :
    (s.invalidateCache).priv = s.priv := rfl
@[simp] theorem State.invalidateCache_cache (s : State) :
    (s.invalidateCache).cache = [] := rfl
@[simp] theorem State.invalidateCache_tlb (s : State) :
    (s.invalidateCache).tlb = s.tlb := rfl
@[simp] theorem State.invalidateCache_mem (s : State) :
    (s.invalidateCache).mem = s.mem := rfl
@[simp] theorem State.invalidateCache_history (s : State) :
    (s.invalidateCache).history = s.history ++ [.cacheInvalidate] := rfl
@[simp] theorem State.invalidateCache_outcome (s : State) :
    (s.invalidateCache).outcome = s.outcome := rfl
@[simp] theorem State.invalidateCache_drawn (s : State) :
    (s.invalidateCache).drawn = s.drawn := rfl
@[simp] theorem State.invalidateCache_turns (s : State) :
    (s.invalidateCache).turns = s.turns := rfl

/-! ## `flushCache` -/

@[simp] theorem State.flushCache_params (s : State) :
    (s.flushCache).params = s.params := rfl
@[simp] theorem State.flushCache_gpr (s : State) :
    (s.flushCache).gpr = s.gpr := rfl
@[simp] theorem State.flushCache_seg (s : State) :
    (s.flushCache).seg = s.seg := rfl
@[simp] theorem State.flushCache_cr0 (s : State) :
    (s.flushCache).cr0 = s.cr0 := rfl
@[simp] theorem State.flushCache_cr2 (s : State) :
    (s.flushCache).cr2 = s.cr2 := rfl
@[simp] theorem State.flushCache_cr3 (s : State) :
    (s.flushCache).cr3 = s.cr3 := rfl
@[simp] theorem State.flushCache_cr4 (s : State) :
    (s.flushCache).cr4 = s.cr4 := rfl
@[simp] theorem State.flushCache_cr8 (s : State) :
    (s.flushCache).cr8 = s.cr8 := rfl
@[simp] theorem State.flushCache_eflags (s : State) :
    (s.flushCache).eflags = s.eflags := rfl
@[simp] theorem State.flushCache_gdtr (s : State) :
    (s.flushCache).gdtr = s.gdtr := rfl
@[simp] theorem State.flushCache_idtr (s : State) :
    (s.flushCache).idtr = s.idtr := rfl
@[simp] theorem State.flushCache_ldtr (s : State) :
    (s.flushCache).ldtr = s.ldtr := rfl
@[simp] theorem State.flushCache_tr (s : State) :
    (s.flushCache).tr = s.tr := rfl
@[simp] theorem State.flushCache_msr (s : State) :
    (s.flushCache).msr = s.msr := rfl
@[simp] theorem State.flushCache_lastTsc (s : State) :
    (s.flushCache).lastTsc = s.lastTsc := rfl
@[simp] theorem State.flushCache_pc (s : State) :
    (s.flushCache).pc = s.pc := rfl
@[simp] theorem State.flushCache_priv (s : State) :
    (s.flushCache).priv = s.priv := rfl
@[simp] theorem State.flushCache_cache (s : State) :
    (s.flushCache).cache = [] := rfl
@[simp] theorem State.flushCache_tlb (s : State) :
    (s.flushCache).tlb = s.tlb := rfl
@[simp] theorem State.flushCache_mem (s : State) :
    (s.flushCache).mem = writeBackAll s.mem s.cache := rfl
@[simp] theorem State.flushCache_history (s : State) :
    (s.flushCache).history = s.history ++ [.cacheWriteBackInvalidate] := rfl
@[simp] theorem State.flushCache_outcome (s : State) :
    (s.flushCache).outcome = s.outcome := rfl
@[simp] theorem State.flushCache_drawn (s : State) :
    (s.flushCache).drawn = s.drawn := rfl
@[simp] theorem State.flushCache_turns (s : State) :
    (s.flushCache).turns = s.turns := rfl

/-! ## `invalidatePage` -/

@[simp] theorem State.invalidatePage_params (s : State) (a : Nat) :
    (s.invalidatePage a).params = s.params := rfl
@[simp] theorem State.invalidatePage_gpr (s : State) (a : Nat) :
    (s.invalidatePage a).gpr = s.gpr := rfl
@[simp] theorem State.invalidatePage_seg (s : State) (a : Nat) :
    (s.invalidatePage a).seg = s.seg := rfl
@[simp] theorem State.invalidatePage_cr0 (s : State) (a : Nat) :
    (s.invalidatePage a).cr0 = s.cr0 := rfl
@[simp] theorem State.invalidatePage_cr2 (s : State) (a : Nat) :
    (s.invalidatePage a).cr2 = s.cr2 := rfl
@[simp] theorem State.invalidatePage_cr3 (s : State) (a : Nat) :
    (s.invalidatePage a).cr3 = s.cr3 := rfl
@[simp] theorem State.invalidatePage_cr4 (s : State) (a : Nat) :
    (s.invalidatePage a).cr4 = s.cr4 := rfl
@[simp] theorem State.invalidatePage_cr8 (s : State) (a : Nat) :
    (s.invalidatePage a).cr8 = s.cr8 := rfl
@[simp] theorem State.invalidatePage_eflags (s : State) (a : Nat) :
    (s.invalidatePage a).eflags = s.eflags := rfl
@[simp] theorem State.invalidatePage_gdtr (s : State) (a : Nat) :
    (s.invalidatePage a).gdtr = s.gdtr := rfl
@[simp] theorem State.invalidatePage_idtr (s : State) (a : Nat) :
    (s.invalidatePage a).idtr = s.idtr := rfl
@[simp] theorem State.invalidatePage_ldtr (s : State) (a : Nat) :
    (s.invalidatePage a).ldtr = s.ldtr := rfl
@[simp] theorem State.invalidatePage_tr (s : State) (a : Nat) :
    (s.invalidatePage a).tr = s.tr := rfl
@[simp] theorem State.invalidatePage_msr (s : State) (a : Nat) :
    (s.invalidatePage a).msr = s.msr := rfl
@[simp] theorem State.invalidatePage_lastTsc (s : State) (a : Nat) :
    (s.invalidatePage a).lastTsc = s.lastTsc := rfl
@[simp] theorem State.invalidatePage_pc (s : State) (a : Nat) :
    (s.invalidatePage a).pc = s.pc := rfl
@[simp] theorem State.invalidatePage_priv (s : State) (a : Nat) :
    (s.invalidatePage a).priv = s.priv := rfl
@[simp] theorem State.invalidatePage_cache (s : State) (a : Nat) :
    (s.invalidatePage a).cache = s.cache := rfl
@[simp] theorem State.invalidatePage_tlb (s : State) (a : Nat) :
    (s.invalidatePage a).tlb = tlbWithout s.tlb (pageOf s.params a) := rfl
@[simp] theorem State.invalidatePage_mem (s : State) (a : Nat) :
    (s.invalidatePage a).mem = s.mem := rfl
@[simp] theorem State.invalidatePage_history (s : State) (a : Nat) :
    (s.invalidatePage a).history = s.history ++ [.tlbInvalidate (pageOf s.params a)] := rfl
@[simp] theorem State.invalidatePage_outcome (s : State) (a : Nat) :
    (s.invalidatePage a).outcome = s.outcome := rfl
@[simp] theorem State.invalidatePage_drawn (s : State) (a : Nat) :
    (s.invalidatePage a).drawn = s.drawn := rfl
@[simp] theorem State.invalidatePage_turns (s : State) (a : Nat) :
    (s.invalidatePage a).turns = s.turns := rfl

/-! ## `draw` -/

@[simp] theorem draw_params (s : State) :
    (draw s).st.params = s.params := rfl
@[simp] theorem draw_gpr (s : State) :
    (draw s).st.gpr = s.gpr := rfl
@[simp] theorem draw_seg (s : State) :
    (draw s).st.seg = s.seg := rfl
@[simp] theorem draw_cr0 (s : State) :
    (draw s).st.cr0 = s.cr0 := rfl
@[simp] theorem draw_cr2 (s : State) :
    (draw s).st.cr2 = s.cr2 := rfl
@[simp] theorem draw_cr3 (s : State) :
    (draw s).st.cr3 = s.cr3 := rfl
@[simp] theorem draw_cr4 (s : State) :
    (draw s).st.cr4 = s.cr4 := rfl
@[simp] theorem draw_cr8 (s : State) :
    (draw s).st.cr8 = s.cr8 := rfl
@[simp] theorem draw_eflags (s : State) :
    (draw s).st.eflags = s.eflags := rfl
@[simp] theorem draw_gdtr (s : State) :
    (draw s).st.gdtr = s.gdtr := rfl
@[simp] theorem draw_idtr (s : State) :
    (draw s).st.idtr = s.idtr := rfl
@[simp] theorem draw_ldtr (s : State) :
    (draw s).st.ldtr = s.ldtr := rfl
@[simp] theorem draw_tr (s : State) :
    (draw s).st.tr = s.tr := rfl
@[simp] theorem draw_msr (s : State) :
    (draw s).st.msr = s.msr := rfl
@[simp] theorem draw_lastTsc (s : State) :
    (draw s).st.lastTsc = s.lastTsc := rfl
@[simp] theorem draw_pc (s : State) :
    (draw s).st.pc = s.pc := rfl
@[simp] theorem draw_priv (s : State) :
    (draw s).st.priv = s.priv := rfl
@[simp] theorem draw_cache (s : State) :
    (draw s).st.cache = s.cache := rfl
@[simp] theorem draw_tlb (s : State) :
    (draw s).st.tlb = s.tlb := rfl
@[simp] theorem draw_mem (s : State) :
    (draw s).st.mem = s.mem := rfl
@[simp] theorem draw_history (s : State) :
    (draw s).st.history = s.history := rfl
@[simp] theorem draw_outcome (s : State) :
    (draw s).st.outcome = s.outcome := rfl
@[simp] theorem draw_drawn (s : State) :
    (draw s).st.drawn = s.drawn + 1 := rfl
@[simp] theorem draw_turns (s : State) :
    (draw s).st.turns = s.turns := rfl

/-! ## `drawCell` -/

@[simp] theorem drawCell_params (s : State) (cell : GprCell) :
    (drawCell s cell).params = s.params := rfl
@[simp] theorem drawCell_gpr (s : State) (cell : GprCell) :
    (drawCell s cell).gpr = s.gpr.set cell
      (BitVec.ofNat 64 ((draw s).val.toNat % 2 ^ s.params.mode.bits)) := rfl
@[simp] theorem drawCell_seg (s : State) (cell : GprCell) :
    (drawCell s cell).seg = s.seg := rfl
@[simp] theorem drawCell_cr0 (s : State) (cell : GprCell) :
    (drawCell s cell).cr0 = s.cr0 := rfl
@[simp] theorem drawCell_cr2 (s : State) (cell : GprCell) :
    (drawCell s cell).cr2 = s.cr2 := rfl
@[simp] theorem drawCell_cr3 (s : State) (cell : GprCell) :
    (drawCell s cell).cr3 = s.cr3 := rfl
@[simp] theorem drawCell_cr4 (s : State) (cell : GprCell) :
    (drawCell s cell).cr4 = s.cr4 := rfl
@[simp] theorem drawCell_cr8 (s : State) (cell : GprCell) :
    (drawCell s cell).cr8 = s.cr8 := rfl
@[simp] theorem drawCell_eflags (s : State) (cell : GprCell) :
    (drawCell s cell).eflags = s.eflags := rfl
@[simp] theorem drawCell_gdtr (s : State) (cell : GprCell) :
    (drawCell s cell).gdtr = s.gdtr := rfl
@[simp] theorem drawCell_idtr (s : State) (cell : GprCell) :
    (drawCell s cell).idtr = s.idtr := rfl
@[simp] theorem drawCell_ldtr (s : State) (cell : GprCell) :
    (drawCell s cell).ldtr = s.ldtr := rfl
@[simp] theorem drawCell_tr (s : State) (cell : GprCell) :
    (drawCell s cell).tr = s.tr := rfl
@[simp] theorem drawCell_msr (s : State) (cell : GprCell) :
    (drawCell s cell).msr = s.msr := rfl
@[simp] theorem drawCell_lastTsc (s : State) (cell : GprCell) :
    (drawCell s cell).lastTsc = s.lastTsc := rfl
@[simp] theorem drawCell_pc (s : State) (cell : GprCell) :
    (drawCell s cell).pc = s.pc := rfl
@[simp] theorem drawCell_priv (s : State) (cell : GprCell) :
    (drawCell s cell).priv = s.priv := rfl
@[simp] theorem drawCell_cache (s : State) (cell : GprCell) :
    (drawCell s cell).cache = s.cache := rfl
@[simp] theorem drawCell_tlb (s : State) (cell : GprCell) :
    (drawCell s cell).tlb = s.tlb := rfl
@[simp] theorem drawCell_mem (s : State) (cell : GprCell) :
    (drawCell s cell).mem = s.mem := rfl
@[simp] theorem drawCell_history (s : State) (cell : GprCell) :
    (drawCell s cell).history = s.history := rfl
@[simp] theorem drawCell_outcome (s : State) (cell : GprCell) :
    (drawCell s cell).outcome = s.outcome := rfl
@[simp] theorem drawCell_drawn (s : State) (cell : GprCell) :
    (drawCell s cell).drawn = s.drawn + 1 := rfl
@[simp] theorem drawCell_turns (s : State) (cell : GprCell) :
    (drawCell s cell).turns = s.turns := rfl

/-! ## `clobber`: the working cells and the draw counter, and nothing else -/

/-- What a chain of drawn cells keeps. -/
theorem foldl_drawCell_keeps {β : Type} (f : State → β)
    (h : ∀ s cell, f (drawCell s cell) = f s) (cs : List GprCell) (s : State) :
    f (cs.foldl drawCell s) = f s := by
  induction cs generalizing s with
  | nil => rfl
  | cons cell cs ih => rw [List.foldl_cons, ih, h]

theorem clobber_keeps {β : Type} (f : State → β)
    (h : ∀ s cell, f (drawCell s cell) = f s) (cs : List GprCell) (s : State) :
    f (clobber cs s) = f s := by
  unfold clobber
  cases s.params.clobber with
  | preserve => rfl
  | draw => exact foldl_drawCell_keeps f h cs s

@[simp] theorem clobber_params (cs : List GprCell) (s : State) :
    (clobber cs s).params = s.params :=
  clobber_keeps (fun t => t.params) (fun _ _ => rfl) cs s
@[simp] theorem clobber_seg (cs : List GprCell) (s : State) :
    (clobber cs s).seg = s.seg :=
  clobber_keeps (fun t => t.seg) (fun _ _ => rfl) cs s
@[simp] theorem clobber_cr0 (cs : List GprCell) (s : State) :
    (clobber cs s).cr0 = s.cr0 :=
  clobber_keeps (fun t => t.cr0) (fun _ _ => rfl) cs s
@[simp] theorem clobber_cr2 (cs : List GprCell) (s : State) :
    (clobber cs s).cr2 = s.cr2 :=
  clobber_keeps (fun t => t.cr2) (fun _ _ => rfl) cs s
@[simp] theorem clobber_cr3 (cs : List GprCell) (s : State) :
    (clobber cs s).cr3 = s.cr3 :=
  clobber_keeps (fun t => t.cr3) (fun _ _ => rfl) cs s
@[simp] theorem clobber_cr4 (cs : List GprCell) (s : State) :
    (clobber cs s).cr4 = s.cr4 :=
  clobber_keeps (fun t => t.cr4) (fun _ _ => rfl) cs s
@[simp] theorem clobber_cr8 (cs : List GprCell) (s : State) :
    (clobber cs s).cr8 = s.cr8 :=
  clobber_keeps (fun t => t.cr8) (fun _ _ => rfl) cs s
@[simp] theorem clobber_eflags (cs : List GprCell) (s : State) :
    (clobber cs s).eflags = s.eflags :=
  clobber_keeps (fun t => t.eflags) (fun _ _ => rfl) cs s
@[simp] theorem clobber_gdtr (cs : List GprCell) (s : State) :
    (clobber cs s).gdtr = s.gdtr :=
  clobber_keeps (fun t => t.gdtr) (fun _ _ => rfl) cs s
@[simp] theorem clobber_idtr (cs : List GprCell) (s : State) :
    (clobber cs s).idtr = s.idtr :=
  clobber_keeps (fun t => t.idtr) (fun _ _ => rfl) cs s
@[simp] theorem clobber_ldtr (cs : List GprCell) (s : State) :
    (clobber cs s).ldtr = s.ldtr :=
  clobber_keeps (fun t => t.ldtr) (fun _ _ => rfl) cs s
@[simp] theorem clobber_tr (cs : List GprCell) (s : State) :
    (clobber cs s).tr = s.tr :=
  clobber_keeps (fun t => t.tr) (fun _ _ => rfl) cs s
@[simp] theorem clobber_msr (cs : List GprCell) (s : State) :
    (clobber cs s).msr = s.msr :=
  clobber_keeps (fun t => t.msr) (fun _ _ => rfl) cs s
@[simp] theorem clobber_lastTsc (cs : List GprCell) (s : State) :
    (clobber cs s).lastTsc = s.lastTsc :=
  clobber_keeps (fun t => t.lastTsc) (fun _ _ => rfl) cs s
@[simp] theorem clobber_pc (cs : List GprCell) (s : State) :
    (clobber cs s).pc = s.pc :=
  clobber_keeps (fun t => t.pc) (fun _ _ => rfl) cs s
@[simp] theorem clobber_priv (cs : List GprCell) (s : State) :
    (clobber cs s).priv = s.priv :=
  clobber_keeps (fun t => t.priv) (fun _ _ => rfl) cs s
@[simp] theorem clobber_cache (cs : List GprCell) (s : State) :
    (clobber cs s).cache = s.cache :=
  clobber_keeps (fun t => t.cache) (fun _ _ => rfl) cs s
@[simp] theorem clobber_tlb (cs : List GprCell) (s : State) :
    (clobber cs s).tlb = s.tlb :=
  clobber_keeps (fun t => t.tlb) (fun _ _ => rfl) cs s
@[simp] theorem clobber_mem (cs : List GprCell) (s : State) :
    (clobber cs s).mem = s.mem :=
  clobber_keeps (fun t => t.mem) (fun _ _ => rfl) cs s
@[simp] theorem clobber_history (cs : List GprCell) (s : State) :
    (clobber cs s).history = s.history :=
  clobber_keeps (fun t => t.history) (fun _ _ => rfl) cs s
@[simp] theorem clobber_outcome (cs : List GprCell) (s : State) :
    (clobber cs s).outcome = s.outcome :=
  clobber_keeps (fun t => t.outcome) (fun _ _ => rfl) cs s
@[simp] theorem clobber_turns (cs : List GprCell) (s : State) :
    (clobber cs s).turns = s.turns :=
  clobber_keeps (fun t => t.turns) (fun _ _ => rfl) cs s

/-! ## `putBytes`: one register, or the cache and `history` -/

@[simp] theorem putBytes_params (x : Arg) (k v : Nat) (s : State) :
    (putBytes x k v s).params = s.params := by cases x <;> rfl
@[simp] theorem putBytes_seg (x : Arg) (k v : Nat) (s : State) :
    (putBytes x k v s).seg = s.seg := by cases x <;> rfl
@[simp] theorem putBytes_cr0 (x : Arg) (k v : Nat) (s : State) :
    (putBytes x k v s).cr0 = s.cr0 := by cases x <;> rfl
@[simp] theorem putBytes_cr2 (x : Arg) (k v : Nat) (s : State) :
    (putBytes x k v s).cr2 = s.cr2 := by cases x <;> rfl
@[simp] theorem putBytes_cr3 (x : Arg) (k v : Nat) (s : State) :
    (putBytes x k v s).cr3 = s.cr3 := by cases x <;> rfl
@[simp] theorem putBytes_cr4 (x : Arg) (k v : Nat) (s : State) :
    (putBytes x k v s).cr4 = s.cr4 := by cases x <;> rfl
@[simp] theorem putBytes_cr8 (x : Arg) (k v : Nat) (s : State) :
    (putBytes x k v s).cr8 = s.cr8 := by cases x <;> rfl
@[simp] theorem putBytes_eflags (x : Arg) (k v : Nat) (s : State) :
    (putBytes x k v s).eflags = s.eflags := by cases x <;> rfl
@[simp] theorem putBytes_gdtr (x : Arg) (k v : Nat) (s : State) :
    (putBytes x k v s).gdtr = s.gdtr := by cases x <;> rfl
@[simp] theorem putBytes_idtr (x : Arg) (k v : Nat) (s : State) :
    (putBytes x k v s).idtr = s.idtr := by cases x <;> rfl
@[simp] theorem putBytes_ldtr (x : Arg) (k v : Nat) (s : State) :
    (putBytes x k v s).ldtr = s.ldtr := by cases x <;> rfl
@[simp] theorem putBytes_tr (x : Arg) (k v : Nat) (s : State) :
    (putBytes x k v s).tr = s.tr := by cases x <;> rfl
@[simp] theorem putBytes_msr (x : Arg) (k v : Nat) (s : State) :
    (putBytes x k v s).msr = s.msr := by cases x <;> rfl
@[simp] theorem putBytes_lastTsc (x : Arg) (k v : Nat) (s : State) :
    (putBytes x k v s).lastTsc = s.lastTsc := by cases x <;> rfl
@[simp] theorem putBytes_pc (x : Arg) (k v : Nat) (s : State) :
    (putBytes x k v s).pc = s.pc := by cases x <;> rfl
@[simp] theorem putBytes_priv (x : Arg) (k v : Nat) (s : State) :
    (putBytes x k v s).priv = s.priv := by cases x <;> rfl
@[simp] theorem putBytes_tlb (x : Arg) (k v : Nat) (s : State) :
    (putBytes x k v s).tlb = s.tlb := by cases x <;> rfl
@[simp] theorem putBytes_mem (x : Arg) (k v : Nat) (s : State) :
    (putBytes x k v s).mem = s.mem := by cases x <;> rfl
@[simp] theorem putBytes_outcome (x : Arg) (k v : Nat) (s : State) :
    (putBytes x k v s).outcome = s.outcome := by cases x <;> rfl
@[simp] theorem putBytes_drawn (x : Arg) (k v : Nat) (s : State) :
    (putBytes x k v s).drawn = s.drawn := by cases x <;> rfl
@[simp] theorem putBytes_turns (x : Arg) (k v : Nat) (s : State) :
    (putBytes x k v s).turns = s.turns := by cases x <;> rfl

/-! ## Ports -/

@[simp] theorem ioRead_st (port : BitVec 16) (n : Nat) (s : State) :
    (ioRead port n s).st = s.log (.ioRead port n (ioAnswer s.params s.history port n)) := rfl

@[simp] theorem ioRead_val (port : BitVec 16) (n : Nat) (s : State) :
    (ioRead port n s).val = ioAnswer s.params s.history port n := rfl

theorem ioWrite_eq (port : BitVec 16) (n v : Nat) (s : State) :
    ioWrite port n v s = s.log (.ioWrite port n v) := rfl

/-! ## The cache background agent's step: `mem`, `cache` and `history` alone (R54) -/

@[simp] theorem State.writeBack_params (s : State) (a : Nat) :
    (s.writeBack a).params = s.params := by
  unfold State.writeBack; split <;> rfl

@[simp] theorem State.writeBack_gpr (s : State) (a : Nat) :
    (s.writeBack a).gpr = s.gpr := by
  unfold State.writeBack; split <;> rfl

@[simp] theorem State.writeBack_seg (s : State) (a : Nat) :
    (s.writeBack a).seg = s.seg := by
  unfold State.writeBack; split <;> rfl

@[simp] theorem State.writeBack_cr0 (s : State) (a : Nat) :
    (s.writeBack a).cr0 = s.cr0 := by
  unfold State.writeBack; split <;> rfl

@[simp] theorem State.writeBack_cr2 (s : State) (a : Nat) :
    (s.writeBack a).cr2 = s.cr2 := by
  unfold State.writeBack; split <;> rfl

@[simp] theorem State.writeBack_cr3 (s : State) (a : Nat) :
    (s.writeBack a).cr3 = s.cr3 := by
  unfold State.writeBack; split <;> rfl

@[simp] theorem State.writeBack_cr4 (s : State) (a : Nat) :
    (s.writeBack a).cr4 = s.cr4 := by
  unfold State.writeBack; split <;> rfl

@[simp] theorem State.writeBack_cr8 (s : State) (a : Nat) :
    (s.writeBack a).cr8 = s.cr8 := by
  unfold State.writeBack; split <;> rfl

@[simp] theorem State.writeBack_eflags (s : State) (a : Nat) :
    (s.writeBack a).eflags = s.eflags := by
  unfold State.writeBack; split <;> rfl

@[simp] theorem State.writeBack_gdtr (s : State) (a : Nat) :
    (s.writeBack a).gdtr = s.gdtr := by
  unfold State.writeBack; split <;> rfl

@[simp] theorem State.writeBack_idtr (s : State) (a : Nat) :
    (s.writeBack a).idtr = s.idtr := by
  unfold State.writeBack; split <;> rfl

@[simp] theorem State.writeBack_ldtr (s : State) (a : Nat) :
    (s.writeBack a).ldtr = s.ldtr := by
  unfold State.writeBack; split <;> rfl

@[simp] theorem State.writeBack_tr (s : State) (a : Nat) :
    (s.writeBack a).tr = s.tr := by
  unfold State.writeBack; split <;> rfl

@[simp] theorem State.writeBack_msr (s : State) (a : Nat) :
    (s.writeBack a).msr = s.msr := by
  unfold State.writeBack; split <;> rfl

@[simp] theorem State.writeBack_lastTsc (s : State) (a : Nat) :
    (s.writeBack a).lastTsc = s.lastTsc := by
  unfold State.writeBack; split <;> rfl

@[simp] theorem State.writeBack_pc (s : State) (a : Nat) :
    (s.writeBack a).pc = s.pc := by
  unfold State.writeBack; split <;> rfl

@[simp] theorem State.writeBack_priv (s : State) (a : Nat) :
    (s.writeBack a).priv = s.priv := by
  unfold State.writeBack; split <;> rfl

@[simp] theorem State.writeBack_tlb (s : State) (a : Nat) :
    (s.writeBack a).tlb = s.tlb := by
  unfold State.writeBack; split <;> rfl

@[simp] theorem State.writeBack_outcome (s : State) (a : Nat) :
    (s.writeBack a).outcome = s.outcome := by
  unfold State.writeBack; split <;> rfl

@[simp] theorem State.writeBack_drawn (s : State) (a : Nat) :
    (s.writeBack a).drawn = s.drawn := by
  unfold State.writeBack; split <;> rfl

@[simp] theorem State.writeBack_turns (s : State) (a : Nat) :
    (s.writeBack a).turns = s.turns := by
  unfold State.writeBack; split <;> rfl

end Sys2Proof.Machine
end

