-- ==== Sys2Proof/Laws/Registers.lean ====
section
/-! SUPPORT. The laws of the register views (R15) and of the working cells (R16). -/

namespace Sys2Proof.Machine

/-- A cell after a write to some cell. -/
theorem gpr_get_set (g : GprFile) (x y : GprCell) (v : BitVec 64) :
    (g.set x v).get y = if x = y then v else g.get y := by
  cases x <;> cases y <;> rfl

/-- A cell after a write through a view: the written one by `cellAfter`, every other as before. -/
theorem writeView_get (s : State) (x y : GprCell) (w v : Nat) :
    (s.writeView x w v).gpr.get y =
      if x = y then cellAfter s.params.mode w (s.gpr.get x) v else s.gpr.get y := by
  simp only [State.writeView_gpr, gpr_get_set]

/-- A read through the view that was written gives the value written, cut to the view (R15). -/
theorem cellAfter_mod (m : Mode) (w : Nat) (hw : w ≤ 64) (old : BitVec 64) (v : Nat) :
    (cellAfter m w old v).toNat % 2 ^ w = v % 2 ^ w := by
  unfold cellAfter
  split
  · rename_i h
    obtain ⟨rfl, -⟩ := h
    simp only [BitVec.toNat_append, BitVec.toNat_ofNat]
    rw [Nat.shiftLeft_eq, Nat.mul_comm, ← Nat.two_pow_add_eq_or_of_lt (Nat.mod_lt _ (by decide))]
    omega
  · have h1 : v % 2 ^ w < 2 ^ w := Nat.mod_lt _ (by positivity)
    have h2 : 2 ^ w ≤ 2 ^ 64 := Nat.pow_le_pow_right (by decide) hw
    rw [BitVec.toNat_ofNat, Nat.mod_eq_of_lt (a := v % 2 ^ w) (by omega), Nat.mod_mod]

theorem readView_writeView (s : State) (x : GprCell) (w v : Nat) (hw : w ≤ 64) :
    (s.writeView x w v).readView x w = v % 2 ^ w := by
  rw [State.readView, writeView_get, if_pos rfl, cellAfter_mod _ _ hw]

/-- A write through a view of a cell keeps it within `MODE`. -/
theorem cellAfter_fits (m : Mode) (w : Nat) (hw : w ≤ m.bits) (old : BitVec 64) (v : Nat)
    (h : Fits m.bits old) : Fits m.bits (cellAfter m w old v) := by
  unfold Fits at *
  unfold cellAfter
  split
  · rename_i hc
    simp only [BitVec.toNat_append, BitVec.toNat_ofNat, BitVec.extractLsb'_toNat,
      Nat.shiftRight_eq_div_pow]
    have h1 : v % 2 ^ 16 < 2 ^ 16 := Nat.mod_lt _ (by decide)
    rw [Nat.shiftLeft_eq, Nat.mul_comm, ← Nat.two_pow_add_eq_or_of_lt h1]
    cases m <;> simp only [Mode.bits] at * <;> omega
  · have h1 : v % 2 ^ w < 2 ^ w := Nat.mod_lt _ (by positivity)
    have h2 : 2 ^ w ≤ 2 ^ m.bits := Nat.pow_le_pow_right (by decide) hw
    rw [BitVec.toNat_ofNat]
    exact lt_of_le_of_lt (Nat.mod_le _ _) (by omega)

/-- Every view the tables name is 16, 32 or 64 bits wide and no wider than `MODE` (R11 to R13). -/
theorem regView_width {m : Mode} {id : BitVec 16} {x : GprCell} {w : Nat}
    (h : regView m id = some (.gpr x w)) : (w = 16 ∨ w = 32 ∨ w = 64) ∧ w ≤ m.bits := by
  unfold regView at h
  simp only [Option.map_eq_some_iff] at h
  obtain ⟨r, hr, hv⟩ := h
  have hm := List.mem_of_find?_eq_some hr
  have hp := List.find?_some hr
  simp only [Bool.and_eq_true, decide_eq_true_eq] at hp
  have key : ∀ r ∈ regTable16 ++ regTable32 ++ regTable64,
      ∀ x w, r.2.2 = .gpr x w → r.2.1 = w ∧ (w = 16 ∨ w = 32 ∨ w = 64) := by
    simp only [regTable16, regTable32, regTable64, List.cons_append, List.nil_append,
      List.forall_mem_cons, List.not_mem_nil, false_imp_iff, implies_true, and_true,
      RegView.gpr.injEq, reduceCtorEq, and_imp]
    repeat' constructor
    all_goals (try (rintro _ _ rfl rfl; decide))
  obtain ⟨h1, h2⟩ := key r hm x w hv
  exact ⟨h2, h1 ▸ hp.2⟩

theorem argOf_gpr_width {e : EncodedOperand} {s : State} {x : GprCell} {w : Nat}
    (h : argOf e s = some (.gpr x w)) : (w = 16 ∨ w = 32 ∨ w = 64) ∧ w ≤ s.params.mode.bits := by
  unfold argOf at h
  rw [Option.bind_eq_some_iff] at h
  obtain ⟨o, -, ho⟩ := h
  cases o with
  | imm v => simp [admittedArg] at ho
  | mem a n => simp [admittedArg] at ho
  | reg id =>
    simp only [admittedArg] at ho
    split at ho <;> simp at ho
    rename_i hv
    obtain ⟨rfl, rfl⟩ := ho
    exact regView_width hv

/-- The clobber leaves every cell alone that it does not work through, and under
`CLOBBER = preserve` every cell (R16). -/
theorem clobber_get (cs : List GprCell) (s : State) (x : GprCell)
    (h : s.params.clobber = .preserve ∨ x ∉ cs) : (clobber cs s).gpr.get x = s.gpr.get x := by
  unfold clobber
  cases hc : s.params.clobber with
  | preserve => rfl
  | draw =>
    have hx : x ∉ cs := by simpa [hc] using h
    clear h hc
    induction cs generalizing s with
    | nil => rfl
    | cons y ys ih =>
      simp only [List.mem_cons, not_or] at hx
      simp only [List.foldl_cons] at ih ⊢
      rw [ih _ hx.2, drawCell_gpr, gpr_get_set, if_neg (Ne.symm hx.1)]

/-- The clobber keeps every cell within `MODE`. -/
theorem clobber_fits (cs : List GprCell) (s : State)
    (h : ∀ x, Fits s.params.mode.bits (s.gpr.get x)) (x : GprCell) :
    Fits s.params.mode.bits ((clobber cs s).gpr.get x) := by
  unfold clobber
  cases s.params.clobber with
  | preserve => exact h x
  | draw =>
    have key : ∀ (cs : List GprCell) (s : State),
        (∀ x, Fits s.params.mode.bits (s.gpr.get x)) →
        ∀ x, Fits s.params.mode.bits ((cs.foldl drawCell s).gpr.get x) := by
      intro cs
      induction cs with
      | nil => intro s h x; exact h x
      | cons y ys ih =>
        intro s h x
        refine ih (drawCell s y) (fun z => ?_) x
        rw [drawCell_params, drawCell_gpr, gpr_get_set]
        split
        · unfold Fits
          rw [BitVec.toNat_ofNat]
          exact lt_of_le_of_lt (Nat.mod_le _ _) (Nat.mod_lt _ (by positivity))
        · exact h z
    exact key cs s h x

@[simp] theorem visible_clobber (cs : List GprCell) (s : State) (a : Nat) :
    (clobber cs s).visible a = s.visible a :=
  visible_congr (clobber_cache cs s) (clobber_mem cs s) a

end Sys2Proof.Machine
end

