-- ==== Sys2Proof/Laws/Meanings.lean ====
section
/-! SUPPORT. What each meaning does, said once: when it goes on, and the state it then gives, in terms
of the shared operations. A statement about an operation cites its lemma here and unfolds nothing. -/

namespace Sys2Proof.Machine

/-! ## A read leaves every field but `history` -/

@[simp] theorem afterRead_params (x : Arg) (k : Nat) (s : State) :
    (afterRead x k s).params = s.params := rfl
@[simp] theorem afterRead_gpr (x : Arg) (k : Nat) (s : State) :
    (afterRead x k s).gpr = s.gpr := rfl
@[simp] theorem afterRead_seg (x : Arg) (k : Nat) (s : State) :
    (afterRead x k s).seg = s.seg := rfl
@[simp] theorem afterRead_cr0 (x : Arg) (k : Nat) (s : State) :
    (afterRead x k s).cr0 = s.cr0 := rfl
@[simp] theorem afterRead_cr2 (x : Arg) (k : Nat) (s : State) :
    (afterRead x k s).cr2 = s.cr2 := rfl
@[simp] theorem afterRead_cr3 (x : Arg) (k : Nat) (s : State) :
    (afterRead x k s).cr3 = s.cr3 := rfl
@[simp] theorem afterRead_cr4 (x : Arg) (k : Nat) (s : State) :
    (afterRead x k s).cr4 = s.cr4 := rfl
@[simp] theorem afterRead_cr8 (x : Arg) (k : Nat) (s : State) :
    (afterRead x k s).cr8 = s.cr8 := rfl
@[simp] theorem afterRead_eflags (x : Arg) (k : Nat) (s : State) :
    (afterRead x k s).eflags = s.eflags := rfl
@[simp] theorem afterRead_gdtr (x : Arg) (k : Nat) (s : State) :
    (afterRead x k s).gdtr = s.gdtr := rfl
@[simp] theorem afterRead_idtr (x : Arg) (k : Nat) (s : State) :
    (afterRead x k s).idtr = s.idtr := rfl
@[simp] theorem afterRead_ldtr (x : Arg) (k : Nat) (s : State) :
    (afterRead x k s).ldtr = s.ldtr := rfl
@[simp] theorem afterRead_tr (x : Arg) (k : Nat) (s : State) :
    (afterRead x k s).tr = s.tr := rfl
@[simp] theorem afterRead_msr (x : Arg) (k : Nat) (s : State) :
    (afterRead x k s).msr = s.msr := rfl
@[simp] theorem afterRead_lastTsc (x : Arg) (k : Nat) (s : State) :
    (afterRead x k s).lastTsc = s.lastTsc := rfl
@[simp] theorem afterRead_pc (x : Arg) (k : Nat) (s : State) :
    (afterRead x k s).pc = s.pc := rfl
@[simp] theorem afterRead_priv (x : Arg) (k : Nat) (s : State) :
    (afterRead x k s).priv = s.priv := rfl
@[simp] theorem afterRead_cache (x : Arg) (k : Nat) (s : State) :
    (afterRead x k s).cache = s.cache := rfl
@[simp] theorem afterRead_tlb (x : Arg) (k : Nat) (s : State) :
    (afterRead x k s).tlb = s.tlb := rfl
@[simp] theorem afterRead_mem (x : Arg) (k : Nat) (s : State) :
    (afterRead x k s).mem = s.mem := rfl
@[simp] theorem afterRead_outcome (x : Arg) (k : Nat) (s : State) :
    (afterRead x k s).outcome = s.outcome := rfl
@[simp] theorem afterRead_drawn (x : Arg) (k : Nat) (s : State) :
    (afterRead x k s).drawn = s.drawn := rfl
@[simp] theorem afterRead_turns (x : Arg) (k : Nat) (s : State) :
    (afterRead x k s).turns = s.turns := rfl
@[simp] theorem afterRead_history (x : Arg) (k : Nat) (s : State) :
    (afterRead x k s).history = s.history ++ x.readEvents k s := rfl

@[simp] theorem visible_afterRead (x : Arg) (k : Nat) (s : State) (a : Nat) :
    (afterRead x k s).visible a = s.visible a := rfl

@[simp] theorem bytesAt_afterRead (x : Arg) (k : Nat) (s : State) (a n : Nat) :
    (afterRead x k s).bytesAt a n = s.bytesAt a n := bytesAt_congr fun _ _ => rfl

@[simp] theorem valueIn_afterRead (y x : Arg) (j k : Nat) (s : State) :
    y.valueIn j (afterRead x k s) = y.valueIn j s := by
  cases y <;> simp [Arg.valueIn, State.readView]

@[simp] theorem readable_afterRead (y x : Arg) (j e k : Nat) (s : State) :
    y.Readable j e (afterRead x k s) ↔ y.Readable j e s := by
  cases y <;> simp [Arg.Readable, Aligned]

/-! ## Readability and storability depend on the parameters alone -/

theorem readable_congr {s t : State} (h : t.params = s.params) (x : Arg) (k e : Nat) :
    x.Readable k e t ↔ x.Readable k e s := by
  cases x <;> simp [Arg.Readable, Aligned, h]

theorem storable_congr {s t : State} (h : t.params = s.params) (x : Arg) (k e : Nat) :
    x.Storable k e t ↔ x.Storable k e s := by
  cases x <;> simp [Arg.Storable, Aligned, h]

theorem readStop_congr {s t : State} (h : t.params = s.params) (x : Arg) (k e : Nat)
    (stop : Res State) : x.ReadStop k e t stop ↔ x.ReadStop k e s stop := by
  cases x <;> simp [Arg.ReadStop, Aligned, h]

theorem writeStop_congr {s t : State} (h : t.params = s.params) (x : Arg) (k e : Nat)
    (stop : Res State) : x.WriteStop k e t stop ↔ x.WriteStop k e s stop := by
  cases x <;> simp [Arg.WriteStop, Aligned, h]

/-! ## Draws and choices -/

@[simp] theorem verdictOrDraw_params (b : Option Bool) (s : State) :
    (verdictOrDraw b s).st.params = s.params := by cases b <;> rfl

/-- A choice made for the machine touches the draw counter alone. -/
def Drawn (s t : State) : Prop := ∃ n, t = { s with drawn := n }

theorem draw_leaves (s : State) : Drawn s (draw s).st := ⟨_, rfl⟩

theorem verdictOrDraw_leaves (b : Option Bool) (s : State) : Drawn s (verdictOrDraw b s).st := by
  cases b with
  | none => exact ⟨_, rfl⟩
  | some b => exact ⟨s.drawn, rfl⟩

theorem drawQuad_leaves (s : State) : Drawn s (drawQuad s).st := ⟨_, rfl⟩

/-- `k` draws advance the counter by `k` and touch nothing else. -/
theorem drawNat_st (k : Nat) (s : State) : (drawNat k s).st = { s with drawn := s.drawn + k } := by
  induction k generalizing s with
  | zero => rfl
  | succ k ih =>
    simp only [drawNat, ih]
    simp [draw, Nat.add_assoc, Nat.add_comm 1 k]

/-- The number `k` draws give is the one they spell in words of 64 bits. -/
theorem drawNat_val (k i : Nat) (s : State)
    (h : ∀ j, j < k → drawnValue s.params (s.drawn + j) = BitVec.ofNat 64 (i / 2 ^ (64 * j))) :
    (drawNat k s).val = i % 2 ^ (64 * k) := by
  induction k generalizing s i with
  | zero => simp [drawNat, Nat.mod_one]
  | succ k ih =>
    have h0 := h 0 (by omega)
    have hk := ih (i / 2 ^ 64) (draw s).st fun j hj => by
      have e := h (j + 1) (by omega)
      rw [Nat.mul_succ, Nat.add_comm _ 64, Nat.pow_add, ← Nat.div_div_eq_div_mul] at e
      rw [← e]
      show drawnValue s.params (s.drawn + 1 + j) = _
      rw [Nat.add_assoc, Nat.add_comm 1 j]
    simp only [drawNat, hk, Nat.mul_succ, Nat.add_comm _ 64, Nat.pow_add 2 64, Nat.mod_mul]
    simp only [Nat.mul_zero, Nat.pow_zero, Nat.div_one, Nat.add_zero] at h0
    simp only [draw, h0, BitVec.toNat_ofNat]

/-- Every number below `n` is what some draws give. -/
theorem drawIndex_val (n i : Nat) (s : State) (hi : i < n)
    (h : ∀ j, j < n.log2 / 64 + 1 →
      drawnValue s.params (s.drawn + j) = BitVec.ofNat 64 (i / 2 ^ (64 * j))) :
    (drawIndex n s).val = i := by
  have hn : n < 2 ^ (64 * (n.log2 / 64 + 1)) :=
    lt_of_lt_of_le Nat.lt_log2_self (Nat.pow_le_pow_right (by omega) (by omega))
  simp only [drawIndex, drawNat_val _ i s h]
  rw [Nat.mod_eq_of_lt (lt_trans hi hn), Nat.mod_eq_of_lt hi]

theorem drawIndex_leaves (n : Nat) (s : State) : Drawn s (drawIndex n s).st :=
  ⟨_, drawNat_st _ s⟩

theorem cpuidPick_leaves (f u : BitVec 32) (s : State) : Drawn s (cpuidPick f u s).st := by
  unfold cpuidPick
  split
  · exact drawQuad_leaves s
  · split
    · exact ⟨s.drawn, rfl⟩
    · exact drawIndex_leaves _ s

/-! ## The meanings -/

theorem execCli_eq_next {s t : State} :
    execCli s = .next t ↔
      s.available = true ∧ s.priv = .supervisor ∧ t = (s.setIf false).advance 2 := by
  simp [execCli, run0_eq_next, andThen_eq_next, requireSupervisor_eq_next]

theorem execSti_eq_next {s t : State} :
    execSti s = .next t ↔
      s.available = true ∧ s.priv = .supervisor ∧ t = (s.setIf true).advance 2 := by
  simp [execSti, run0_eq_next, andThen_eq_next, requireSupervisor_eq_next]

theorem execInvd_eq_next {s t : State} :
    execInvd s = .next t ↔
      s.available = true ∧ s.priv = .supervisor ∧ t = s.invalidateCache.advance 2 := by
  simp [execInvd, run0_eq_next, andThen_eq_next, requireSupervisor_eq_next]

theorem execWbinvd_eq_next {s t : State} :
    execWbinvd s = .next t ↔
      s.available = true ∧ s.priv = .supervisor ∧ t = s.flushCache.advance 2 := by
  simp [execWbinvd, run0_eq_next, andThen_eq_next, requireSupervisor_eq_next]

theorem readTableReg_eq_next {op : Byte} {x : Arg} {s : State} {g : Got TableReg} :
    readTableReg op x s = .next g ↔
      x.isMemory = true ∧ x.size = pdBytes s.params.mode ∧ s.priv = .supervisor ∧
        x.Readable (pdBytes s.params.mode) 1 s ∧
        g = ⟨tableRegOf s.params.mode (x.valueIn (pdBytes s.params.mode) s),
             afterRead x (pdBytes s.params.mode) s⟩ := by
  simp [readTableReg, andThen_eq_next, require_eq_next, requireSupervisor_eq_next,
    loadBytes_eq_next, and_assoc, eq_comm (a := g)]

theorem execLgdt_eq_next {e : EncodedOperand} {s t : State} :
    execLgdt e s = .next t ↔
      s.available = true ∧ ∃ x, argOf e s = some x ∧ ∃ g, readTableReg 0xC7 x s = .next g ∧
        t = ({ g.st with gdtr := g.val }).advance (opLength [e]) := by
  simp [execLgdt, run1_eq_next, andThen_eq_next]

theorem execLidt_eq_next {e : EncodedOperand} {s t : State} :
    execLidt e s = .next t ↔
      s.available = true ∧ ∃ x, argOf e s = some x ∧ ∃ g, readTableReg 0xC8 x s = .next g ∧
        t = ({ g.st with idtr := g.val }).advance (opLength [e]) := by
  simp [execLidt, run1_eq_next, andThen_eq_next]

theorem readSelector_eq_next {op : Byte} {w : SelectorOp} {x : Arg} {s : State}
    {g : Got (BitVec 16)} :
    readSelector op w x s = .next g ↔
      x.isIntegral = true ∧ x.width = 16 ∧ s.priv = .supervisor ∧ x.Readable x.size x.size s ∧
        (verdictOrDraw (selectorVerdict w (BitVec.ofNat 16 (x.valueIn x.size s)) (afterRead x x.size s))
          (afterRead x x.size s)).val = true ∧
        g = ⟨BitVec.ofNat 16 (x.valueIn x.size s),
             (verdictOrDraw (selectorVerdict w (BitVec.ofNat 16 (x.valueIn x.size s)) (afterRead x x.size s))
               (afterRead x x.size s)).st⟩ := by
  simp [readSelector, andThen_eq_next, require_eq_next, requireSupervisor_eq_next,
    readInt_eq_next, and_assoc, eq_comm (a := g)]

theorem execLldt_eq_next {e : EncodedOperand} {s t : State} :
    execLldt e s = .next t ↔
      s.available = true ∧ ∃ x, argOf e s = some x ∧
        ∃ g, readSelector 0xC9 .lldt x s = .next g ∧
          t = ({ (draw g.st).st with ldtr := ⟨g.val, (draw g.st).val⟩ }).advance (opLength [e]) := by
  simp [execLldt, run1_eq_next, andThen_eq_next]

theorem execLtr_eq_next {e : EncodedOperand} {s t : State} :
    execLtr e s = .next t ↔
      s.available = true ∧ ∃ x, argOf e s = some x ∧
        ∃ g, readSelector 0xCA .ltr x s = .next g ∧
          t = ({ (draw g.st).st with tr := ⟨g.val, (draw g.st).val⟩ }).advance (opLength [e]) := by
  simp [execLtr, run1_eq_next, andThen_eq_next]

theorem execInvlpg_eq_next {e : EncodedOperand} {s t : State} :
    execInvlpg e s = .next t ↔
      s.available = true ∧ ∃ x, argOf e s = some x ∧ x.isMemory = true ∧ s.priv = .supervisor ∧
        t = (s.invalidatePage x.address).advance (opLength [e]) := by
  simp [execInvlpg, run1_eq_next, andThen_eq_next, require_eq_next, requireSupervisor_eq_next,
    and_assoc]

theorem cpuidAnswer_eq_next {f u : BitVec 32} {dst : Arg} {s t : State}
    (hw : dst.isWritable = true) :
    cpuidAnswer f u dst s = .next t ↔
      (cpuidPriv s.params f = .user ∨ s.priv = .supervisor) ∧
        dst.Storable 16 4 (clobber [.a, .b, .c, .d] (cpuidPick f u s).st) ∧
        t = putBytes dst 16 (quadNat (cpuidPick f u s).val)
              (clobber [.a, .b, .c, .d] (cpuidPick f u s).st) := by
  simp [cpuidAnswer, requireCpuidPriv, andThen_eq_next, require_eq_next, storeBytes_eq_next hw]

theorem execCpuid_eq_next {e r : EncodedOperand} {s t : State} :
    execCpuid e r s = .next t ↔
      s.available = true ∧ ∃ x, argOf e s = some x ∧ ∃ dst, argOf r s = some dst ∧
        x.isIntegral = true ∧ dst.isWritable = true ∧ dst.canStore 16 = true ∧
        ∃ g, toU32 0xC0 1 x s = .next g ∧
        ∃ u, cpuidAnswer g.val ((draw g.st).val.setWidth 32) dst (draw g.st).st = .next u ∧
          t = u.advance (opLength [e, r]) := by
  simp only [execCpuid, run2_eq_next, cpuidBasic, andThen_eq_next, require_eq_next,
    Bool.and_eq_true]
  constructor
  · rintro ⟨ha, x, hx, d, hd, u, ⟨-, h1, -, ⟨h2, h3⟩, g, hg, h4⟩, rfl⟩
    exact ⟨ha, x, hx, d, hd, h1, h2, h3, g, hg, u, h4, rfl⟩
  · rintro ⟨ha, x, hx, d, hd, h1, h2, h3, g, hg, u, h4, rfl⟩
    exact ⟨ha, x, hx, d, hd, u, ⟨(), h1, (), ⟨h2, h3⟩, g, hg, h4⟩, rfl⟩

theorem execCpuidExt_eq_next {e e₂ r : EncodedOperand} {s t : State} :
    execCpuidExt e e₂ r s = .next t ↔
      s.available = true ∧ ∃ x, argOf e s = some x ∧ ∃ y, argOf e₂ s = some y ∧
        ∃ dst, argOf r s = some dst ∧
        x.isIntegral = true ∧ y.isIntegral = true ∧ dst.isWritable = true ∧
        dst.canStore 16 = true ∧
        ∃ g, toU32 0xC0 1 x s = .next g ∧ ∃ h, toU32 0xC0 2 y g.st = .next h ∧
        ∃ u, cpuidAnswer g.val h.val dst h.st = .next u ∧
          t = u.advance (opLength [e, e₂, r]) := by
  simp only [execCpuidExt, run3_eq_next, cpuidExtended, andThen_eq_next, require_eq_next,
    Bool.and_eq_true]
  constructor
  · rintro ⟨ha, x, hx, y, hy, d, hd, u, ⟨-, h1, -, h2, -, ⟨h3, h4⟩, g, hg, k, hk, h5⟩, rfl⟩
    exact ⟨ha, x, hx, y, hy, d, hd, h1, h2, h3, h4, g, hg, k, hk, u, h5, rfl⟩
  · rintro ⟨ha, x, hx, y, hy, d, hd, h1, h2, h3, h4, g, hg, k, hk, u, h5, rfl⟩
    exact ⟨ha, x, hx, y, hy, d, hd, u, ⟨(), h1, (), h2, (), ⟨h3, h4⟩, g, hg, k, hk, h5⟩, rfl⟩

theorem execPortIn_eq_next {d p : EncodedOperand} {s t : State} :
    execPortIn d p s = .next t ↔
      s.available = true ∧ ∃ dst, argOf d s = some dst ∧ ∃ x, argOf p s = some x ∧
        isDatum dst = true ∧ dst.isWritable = true ∧ isPort x = true ∧
        x.Readable x.size x.size s ∧
        ioPermitted s.params s.priv (BitVec.ofNat 16 (x.valueIn x.size s)) dst.size = true ∧
        dst.Storable dst.size dst.size s ∧
        t = (putBytes dst dst.size
              (ioRead (BitVec.ofNat 16 (x.valueIn x.size s)) dst.size (afterRead x x.size s)).val
              (clobber [.a, .d]
                (ioRead (BitVec.ofNat 16 (x.valueIn x.size s)) dst.size
                  (afterRead x x.size s)).st)).advance (opLength [d, p]) := by
  simp only [execPortIn, run2_eq_next, portInBody, andThen_eq_next, require_eq_next,
    readInt_eq_next, requireIo, Bool.and_eq_true]
  constructor
  · rintro ⟨ha, dst, hd, x, hx, u, ⟨-, ⟨h1, h2⟩, -, h3, g, ⟨h4, rfl⟩, -, h5, w, h6, h7⟩, rfl⟩
    rw [checkDest_eq_next h2] at h6
    simp only [Host.Outcome.next.injEq] at h7
    subst h7
    exact ⟨ha, dst, hd, x, hx, h1, h2, h3, h4, by simpa using h5,
      (storable_congr rfl _ _ _).1 h6, rfl⟩
  · rintro ⟨ha, dst, hd, x, hx, h1, h2, h3, h4, h5, h6, rfl⟩
    exact ⟨ha, dst, hd, x, hx, _, ⟨(), ⟨h1, h2⟩, (), h3, _, ⟨h4, rfl⟩, (), by simpa using h5, (),
      (checkDest_eq_next h2).2 ((storable_congr rfl _ _ _).2 h6), rfl⟩, rfl⟩

theorem execPortOut_eq_next {p v : EncodedOperand} {s t : State} :
    execPortOut p v s = .next t ↔
      s.available = true ∧ ∃ x, argOf p s = some x ∧ ∃ y, argOf v s = some y ∧
        isPort x = true ∧ isDatum y = true ∧
        x.Readable x.size x.size s ∧ y.Readable y.size y.size s ∧
        ioPermitted s.params s.priv (BitVec.ofNat 16 (x.valueIn x.size s)) y.size = true ∧
        t = (clobber [.a, .d]
              (ioWrite (BitVec.ofNat 16 (x.valueIn x.size s)) y.size (y.valueIn y.size s)
                (afterRead y y.size (afterRead x x.size s)))).advance (opLength [p, v]) := by
  simp only [execPortOut, run2_eq_next, portOutBody, andThen_eq_next, require_eq_next,
    readInt_eq_next, requireIo]
  constructor
  · rintro ⟨ha, x, hx, y, hy, u, ⟨-, h1, -, h2, g, ⟨h3, rfl⟩, k, ⟨h4, rfl⟩, -, h5, h6⟩, rfl⟩
    simp only [Host.Outcome.next.injEq, valueIn_afterRead] at h6
    subst h6
    exact ⟨ha, x, hx, y, hy, h1, h2, h3, by simpa using h4, by simpa using h5, rfl⟩
  · rintro ⟨ha, x, hx, y, hy, h1, h2, h3, h4, h5, rfl⟩
    exact ⟨ha, x, hx, y, hy, _, ⟨(), h1, (), h2, _, ⟨h3, rfl⟩, _, ⟨by simpa using h4, rfl⟩, (),
      by simpa using h5, by simp only [valueIn_afterRead]⟩, rfl⟩

theorem execRdmsr_eq_next {e r : EncodedOperand} {s t : State} :
    execRdmsr e r s = .next t ↔
      s.available = true ∧ ∃ x, argOf e s = some x ∧ ∃ dst, argOf r s = some dst ∧
        x.isIntegral = true ∧ dst.isWritable = true ∧ dst.canStore 8 = true ∧
        s.priv = .supervisor ∧
        ∃ g, toU32 0xCC 1 x s = .next g ∧ ∃ v, msrRead g.val g.st = .next v ∧
        dst.Storable 8 8 (clobber [.a, .c, .d] v.st) ∧
        t = (putBytes dst 8 v.val.toNat (clobber [.a, .c, .d] v.st)).advance (opLength [e, r]) := by
  simp only [execRdmsr, run2_eq_next, rdmsrBody, andThen_eq_next, require_eq_next,
    requireSupervisor_eq_next, Bool.and_eq_true]
  constructor
  · rintro ⟨ha, x, hx, d, hd, u, ⟨-, h1, -, ⟨h2, h3⟩, -, h4, g, hg, v, hv, h5⟩, rfl⟩
    rw [storeBytes_eq_next h2] at h5
    obtain ⟨h5, rfl⟩ := h5
    exact ⟨ha, x, hx, d, hd, h1, h2, h3, h4, g, hg, v, hv, h5, rfl⟩
  · rintro ⟨ha, x, hx, d, hd, h1, h2, h3, h4, g, hg, v, hv, h5, rfl⟩
    exact ⟨ha, x, hx, d, hd, _, ⟨(), h1, (), ⟨h2, h3⟩, (), h4, g, hg, v, hv,
      (storeBytes_eq_next h2).2 ⟨h5, rfl⟩⟩, rfl⟩

theorem execWrmsr_eq_next {e r : EncodedOperand} {s t : State} :
    execWrmsr e r s = .next t ↔
      s.available = true ∧ ∃ x, argOf e s = some x ∧ ∃ y, argOf r s = some y ∧
        x.isIntegral = true ∧ y.canLoad 8 = true ∧ s.priv = .supervisor ∧
        ∃ g, toU32 0xCD 1 x s = .next g ∧ y.Readable 8 8 g.st ∧
        ∃ u, msrWrite g.val (BitVec.ofNat 64 (y.valueIn 8 g.st)) (afterRead y 8 g.st) = .next u ∧
          t = (clobber [.a, .c, .d] u).advance (opLength [e, r]) := by
  simp only [execWrmsr, run2_eq_next, wrmsrBody, andThen_eq_next, require_eq_next,
    requireSupervisor_eq_next, loadBytes_eq_next]
  constructor
  · rintro ⟨ha, x, hx, y, hy, u, ⟨-, h1, -, h2, -, h3, g, hg, v, ⟨h4, rfl⟩, w, hw, h5⟩, rfl⟩
    simp only [Host.Outcome.next.injEq] at h5
    subst h5
    exact ⟨ha, x, hx, y, hy, h1, h2, h3, g, hg, h4, w, hw, rfl⟩
  · rintro ⟨ha, x, hx, y, hy, h1, h2, h3, g, hg, h4, w, hw, rfl⟩
    exact ⟨ha, x, hx, y, hy, _, ⟨(), h1, (), h2, (), h3, g, hg, _, ⟨h4, rfl⟩, w, hw, rfl⟩, rfl⟩

theorem requirePmcPriv_eq_next {s : State} {u : Unit} :
    requirePmcPriv s = .next u ↔ crPce s.cr4 = true ∨ s.priv = .supervisor := by
  simp [requirePmcPriv, require_eq_next]

theorem requireTscPriv_eq_next {s : State} {u : Unit} :
    requireTscPriv s = .next u ↔ crTsd s.cr4 = false ∨ s.priv = .supervisor := by
  simp [requireTscPriv, require_eq_next]

theorem execRdpmc_eq_next {e r : EncodedOperand} {s t : State} :
    execRdpmc e r s = .next t ↔
      s.available = true ∧ ∃ x, argOf e s = some x ∧ ∃ dst, argOf r s = some dst ∧
        x.isIntegral = true ∧ dst.isWritable = true ∧ dst.canStore 8 = true ∧
        (crPce s.cr4 = true ∨ s.priv = .supervisor) ∧
        ∃ g, toU32 0xCE 1 x s = .next g ∧
        ∃ k, k = verdictOrDraw (pmcVerdict s.params g.val) g.st ∧ k.val = true ∧
        dst.Storable 8 8 (clobber [.a, .c, .d] (draw k.st).st) ∧
        t = (putBytes dst 8 (draw k.st).val.toNat (clobber [.a, .c, .d] (draw k.st).st)).advance
              (opLength [e, r]) := by
  simp only [execRdpmc, run2_eq_next, rdpmcBody, andThen_eq_next, require_eq_next,
    requirePmcPriv_eq_next, Bool.and_eq_true]
  constructor
  · rintro ⟨ha, x, hx, d, hd, u, ⟨-, h1, -, ⟨h2, h3⟩, -, h4, g, hg, -, hv, h5⟩, rfl⟩
    rw [storeBytes_eq_next h2] at h5
    obtain ⟨h5, rfl⟩ := h5
    exact ⟨ha, x, hx, d, hd, h1, h2, h3, h4, g, hg, _, rfl, hv, h5, rfl⟩
  · rintro ⟨ha, x, hx, d, hd, h1, h2, h3, h4, g, hg, k, rfl, hv, h5, rfl⟩
    exact ⟨ha, x, hx, d, hd, _, ⟨(), h1, (), ⟨h2, h3⟩, (), h4, g, hg, (), hv,
      (storeBytes_eq_next h2).2 ⟨h5, rfl⟩⟩, rfl⟩

theorem execRdtsc_eq_next {r : EncodedOperand} {s t : State} :
    execRdtsc r s = .next t ↔
      s.available = true ∧ ∃ dst, argOf r s = some dst ∧
        dst.isWritable = true ∧ dst.canStore 8 = true ∧
        (crTsd s.cr4 = false ∨ s.priv = .supervisor) ∧
        dst.Storable 8 8 (clobber [.a, .d] (tscRead s).st) ∧
        t = (putBytes dst 8 (tscRead s).val.toNat (clobber [.a, .d] (tscRead s).st)).advance
              (opLength [r]) := by
  simp only [execRdtsc, run1_eq_next, rdtscBody, andThen_eq_next, require_eq_next,
    requireTscPriv_eq_next, Bool.and_eq_true]
  constructor
  · rintro ⟨ha, d, hd, u, ⟨-, ⟨h2, h3⟩, -, h4, h5⟩, rfl⟩
    rw [storeBytes_eq_next h2] at h5
    obtain ⟨h5, rfl⟩ := h5
    exact ⟨ha, d, hd, h2, h3, h4, h5, rfl⟩
  · rintro ⟨ha, d, hd, h2, h3, h4, h5, rfl⟩
    exact ⟨ha, d, hd, _, ⟨(), ⟨h2, h3⟩, (), h4, (storeBytes_eq_next h2).2 ⟨h5, rfl⟩⟩, rfl⟩

/-- What RDMSR's file read gives (R114): nothing for an absent register. -/
theorem msrRead_eq_next {idx : BitVec 32} {s : State} {g : Got (BitVec 64)} :
    msrRead idx s = .next g ↔
      (∃ legal, msrClass s.params idx = .plain legal ∧ g = ⟨msrGet s.msr idx, s⟩) ∨
        (msrClass s.params idx = .opaqueReg ∧ g = draw s) := by
  unfold msrRead raise
  cases msrClass s.params idx <;> simp [eq_comm (a := g)]

/-- What WRMSR does to the file (R115): only a plain register, only a legal value. -/
theorem msrWrite_eq_next {idx : BitVec 32} {v : BitVec 64} {s t : State} :
    msrWrite idx v s = .next t ↔
      ∃ legal, msrClass s.params idx = .plain legal ∧ msrLegal legal v = true ∧
        t = ({ s with msr := msrSet s.msr idx v }).log (.msrWrite idx v) := by
  unfold msrWrite raise refuse
  cases msrClass s.params idx with
  | absent => simp
  | opaqueReg => simp
  | plain legal => by_cases h : msrLegal legal v = true <;> simp [h, eq_comm (a := t)]

/-- The time-stamp read touches the draw counter and the last value alone (R122). -/
theorem tscRead_st (s : State) :
    ∃ n v, (tscRead s).st = { s with drawn := n, lastTsc := v } := by
  unfold tscRead
  split
  · exact ⟨_, _, rfl⟩
  · exact ⟨_, s.lastTsc, rfl⟩

end Sys2Proof.Machine
end

