-- ==== Sys2Proof/Laws/Frames.lean ====
section
/-! SUPPORT. What a store into a destination leaves, and the frame that the operations with a clobber and
a destination share; the pieces of the values CPUID, LGDT and LIDT move. -/

namespace Sys2Proof.Machine

/-! ## Checks that go on -/

theorem argAt_of {op : Byte} {pos : Nat} {e : EncodedOperand} {s : State} {x : Arg}
    (h : argOf e s = some x) : argAt op pos e s = .next x := argAt_eq_next.2 h

theorem toU32_of {op : Byte} {pos : Nat} {x : Arg} {s : State} {f : BitVec 32}
    (h : x.Readable x.size x.size s) (hv : x.valueIn x.size s = f.toNat) :
    toU32 op pos x s = .next ⟨f, afterRead x x.size s⟩ :=
  toU32_eq_next.2 ⟨h, by rw [hv]; exact f.isLt, by rw [hv]; simp⟩

theorem readInt_of {x : Arg} {s : State} (h : x.Readable x.size x.size s) :
    readInt x s = .next ⟨x.valueIn x.size s, afterRead x x.size s⟩ := readInt_eq_next.2 ⟨h, rfl⟩

@[simp] theorem readEvents_afterRead (y x : Arg) (j k : Nat) (s : State) :
    y.readEvents j (afterRead x k s) = y.readEvents j s := by
  cases y <;> simp [Arg.readEvents]

/-! ## A store into a destination -/

theorem isDatum_width {x : Arg} (h : isDatum x = true) : x.width = 8 * x.size := by
  simp only [isDatum, Bool.and_eq_true, List.contains_iff_mem, List.mem_cons, List.not_mem_nil,
    or_false] at h
  unfold Arg.size; omega

theorem argOf_gpr_le {e : EncodedOperand} {s : State} {x : GprCell} {w : Nat}
    (h : argOf e s = some (.gpr x w)) : w ≤ 64 := by
  have := (argOf_gpr_width h).1; omega

/-- A register destination of eight bytes is a 64-bit view. -/
theorem gpr_of_canStore {dst : Arg} (h : dst.canStore 8 = true) :
    ∀ x w, dst = .gpr x w → w = 8 * 8 ∧ w ≤ 64 := by
  rintro x w rfl
  simp [Arg.canStore] at h
  omega

theorem putBytes_history (x : Arg) (k v : Nat) (s : State) :
    (putBytes x k v s).history = s.history ++ x.writeEvents k v := by
  cases x <;> simp [putBytes, Arg.writeEvents]

theorem putBytes_holds {x : Arg} {k v : Nat} {s : State} (hw : x.isWritable = true)
    (hk : ∀ y w, x = .gpr y w → w = 8 * k ∧ w ≤ 64) (hv : v < 256 ^ k) :
    x.Holds k v (putBytes x k v s) := by
  cases x with
  | imm => simp [Arg.isWritable] at hw
  | gpr y w =>
    obtain ⟨rfl, h2⟩ := hk y w rfl
    show (s.writeView y (8 * k) v).readView y (8 * k) = v
    rw [readView_writeView _ _ _ _ h2, Nat.mod_eq_of_lt]
    rwa [show (256 : Nat) = 2 ^ 8 by rfl, ← pow_mul] at hv
  | mem a n =>
    intro i hi
    show (s.store a k v).visible (a + i) = _
    rw [visible_store, if_pos (by omega)]; simp

theorem putBytes_memory {x : Arg} {k v : Nat} {s : State} :
    SameMemoryBut x k s (putBytes x k v s) := by
  refine ⟨by simp, ?_⟩
  intro a ha
  cases x with
  | imm => rfl
  | gpr => rfl
  | mem b n =>
    show (s.store b k v).visible a = _
    rw [visible_store, if_neg]
    simp only [Arg.covers, Bool.and_eq_false_iff, decide_eq_false_iff_not] at ha
    omega

theorem putBytes_cells {x : Arg} {k v : Nat} {s : State} {y : GprCell} (h : x.cell ≠ some y) :
    (putBytes x k v s).gpr.get y = s.gpr.get y := by
  cases x with
  | imm => rfl
  | mem => rfl
  | gpr x w =>
    show (s.writeView x w v).gpr.get y = _
    rw [writeView_get, if_neg]
    rintro rfl; exact h rfl

theorem putBytes_cache_rising {x : Arg} {k v : Nat} {s : State}
    (h : rising (s.cache.map Prod.fst) = true) :
    rising ((putBytes x k v s).cache.map Prod.fst) = true := by
  cases x with
  | imm => exact h
  | gpr => exact h
  | mem a n => exact rising_cacheBytes _ _ h

theorem putBytes_fits {x : Arg} {k v : Nat} {s : State}
    (hx : ∀ y w, x = .gpr y w → w ≤ s.params.mode.bits)
    (h : ∀ y, Fits s.params.mode.bits (s.gpr.get y)) (y : GprCell) :
    Fits s.params.mode.bits ((putBytes x k v s).gpr.get y) := by
  cases x with
  | imm => exact h y
  | mem a n => exact h y
  | gpr x w =>
    simp only [putBytes, writeView_get]
    split
    · exact cellAfter_fits _ _ (hx x w rfl) _ _ (h x)
    · exact h y

/-- The shared shape of CPUID, IN, RDMSR, RDPMC and RDTSC: events, draws, the clobber, the store, `pc`. -/
theorem clobber_put_frame {s s2 : State} {dst : Arg} {k v n : Nat} {cs : List GprCell}
    {ev : List Event} (h2 : ∃ m, s2 = { s with history := s.history ++ ev, drawn := m })
    (hw : dst.isWritable = true) (hk : ∀ x w, dst = .gpr x w → w = 8 * k ∧ w ≤ 64)
    (hv : v < 256 ^ k) :
    let t := (putBytes dst k v (clobber cs s2)).advance n
    dst.Holds k v t ∧ t.pc = s.pc + n ∧ t.history = s.history ++ ev ++ dst.writeEvents k v ∧
      SameFixed s t ∧ SameSpecial s t ∧ SameCells cs dst.cell s t ∧ SameMemoryBut dst k s t := by
  obtain ⟨m, rfl⟩ := h2
  intro t
  refine ⟨?_, ?_, ?_, ?_, ?_, ?_, ?_⟩
  · have := putBytes_holds
      (s := clobber cs { s with history := s.history ++ ev, drawn := m }) hw hk hv
    cases dst <;> exact this
  · simp [t]
  · simp [t, putBytes_history]
  · constructor <;> simp [t]
  · constructor <;> simp [t]
  · intro y h1 h3
    simp only [t, State.advance_gpr]
    rw [putBytes_cells (by simpa using h1)]
    exact clobber_get _ _ _ h3
  · have := putBytes_memory (x := dst) (k := k) (v := v)
      (s := clobber cs { s with history := s.history ++ ev, drawn := m })
    refine ⟨by simp [t], fun a ha => ?_⟩
    have h4 := this.2 a ha
    simp only [visible_clobber] at h4
    exact h4

/-! ## Pieces of a value in memory (R41, R56) -/

theorem bytesAt_advance (s : State) (n a k : Nat) : (s.advance n).bytesAt a k = s.bytesAt a k :=
  bytesAt_congr fun _ _ => rfl

theorem leNat_append (xs ys : List Byte) :
    leNat (xs ++ ys) = leNat xs + 256 ^ xs.length * leNat ys := by
  induction xs with
  | nil => simp [leNat]
  | cons x xs ih => simp only [List.cons_append, leNat, ih, List.length_cons, pow_succ]; ring

theorem bytesAt_add (s : State) (a m n : Nat) :
    s.bytesAt a (m + n) = s.bytesAt a m ++ s.bytesAt (a + m) n := by
  induction m generalizing a with
  | zero => simp [State.bytesAt]
  | succ m ih =>
    rw [Nat.succ_add]
    simp only [State.bytesAt, ih, List.cons_append]
    rw [show a + 1 + m = a + (m + 1) by omega]

theorem leBytes_mod (n v : Nat) : leBytes n (v % 256 ^ n) = leBytes n v := by
  apply List.ext_getElem?
  intro i
  rw [getElem?_leBytes, getElem?_leBytes]
  split
  · rename_i h
    congr 1
    apply BitVec.eq_of_toNat_eq
    simp only [BitVec.toNat_ofNat]
    obtain ⟨d, rfl⟩ : ∃ d, n = i + 1 + d := ⟨n - i - 1, by omega⟩
    have : (256 : Nat) ^ (i + 1 + d) = 256 ^ i * (256 * 256 ^ d) := by ring
    rw [this, Nat.mod_mul_right_div_self]
    exact Nat.mod_mul_right_mod _ _ _
  · rfl

theorem bytesAt_store_off (s : State) (a n v off k : Nat) (h : off + k ≤ n) :
    (s.store a n v).bytesAt (a + off) k = leBytes k (v / 256 ^ off) := by
  apply List.ext_getElem?
  intro i
  rw [getElem?_bytesAt, getElem?_leBytes]
  split
  · rename_i hi
    rw [visible_store, if_pos (by omega)]
    congr 2
    rw [Nat.div_div_eq_div_mul, ← pow_add]
    congr 2; omega
  · rfl

theorem quadNat_lt (q : CpuidQuad) : quadNat q < 256 ^ 16 := by
  unfold quadNat
  have := q.eax.isLt; have := q.ebx.isLt; have := q.ecx.isLt; have := q.edx.isLt
  omega

/-- CPUID's sixteen bytes are EAX, EBX, ECX and EDX, in that order (R80). -/
theorem quad_parts (q : CpuidQuad) (s : State) (a : Nat) :
    (s.store a 16 (quadNat q)).bytesAt a 4 = leBytes 4 q.eax.toNat ∧
    (s.store a 16 (quadNat q)).bytesAt (a + 4) 4 = leBytes 4 q.ebx.toNat ∧
    (s.store a 16 (quadNat q)).bytesAt (a + 8) 4 = leBytes 4 q.ecx.toNat ∧
    (s.store a 16 (quadNat q)).bytesAt (a + 12) 4 = leBytes 4 q.edx.toNat := by
  have h1 := q.eax.isLt; have h2 := q.ebx.isLt; have h3 := q.ecx.isLt; have h4 := q.edx.isLt
  have e0 := bytesAt_store_off s a 16 (quadNat q) 0 4 (by omega)
  rw [Nat.add_zero] at e0
  rw [e0, bytesAt_store_off _ _ _ _ 4 _ (by omega), bytesAt_store_off _ _ _ _ 8 _ (by omega),
    bytesAt_store_off _ _ _ _ 12 _ (by omega)]
  rw [← leBytes_mod 4 (quadNat q / _), ← leBytes_mod 4 (quadNat q / 256 ^ 4),
    ← leBytes_mod 4 (quadNat q / 256 ^ 8), ← leBytes_mod 4 (quadNat q / 256 ^ 12)]
  unfold quadNat
  refine ⟨?_, ?_, ?_, ?_⟩ <;> congr 1 <;> omega

/-- Whatever is drawn, the answer is one `CPUID_VALUE` admits (R82). -/
theorem cpuidPick_admits (f u : BitVec 32) (s : State) :
    CpuidAdmits s.params f u (cpuidPick f u s).val := by
  unfold CpuidAdmits cpuidPick
  cases hr : cpuidRow s.params f u with
  | none => trivial
  | some r =>
    obtain ⟨fn, sb, fst, others⟩ := r
    cases others with
    | nil => left; rfl
    | cons q qs =>
      dsimp only
      generalize hj : (drawIndex (qs.length + 2) s).val = j
      have hlt : j < (fst :: q :: qs).length := by rw [← hj]; exact Nat.mod_lt _ (by omega)
      rw [List.getElem?_eq_getElem hlt, Option.getD_some]
      exact List.mem_cons.1 (List.getElem_mem hlt)

theorem ioAnswer_lt (p : Params) (h : List Event) (port : BitVec 16) (n : Nat) :
    ioAnswer p h port n < 256 ^ n := by
  unfold ioAnswer
  split <;> exact Nat.mod_lt _ (by positivity)

/-- The table operand's limit and base (R100). -/
theorem tableReg_parts (s : State) (a k : Nat) (hk : k = if s.params.mode = .m64 then 8 else 4) :
    (tableRegOf s.params.mode (leNat (s.bytesAt a (2 + k)))).limit.toNat =
        leNat (s.bytesAt a 2) ∧
      (tableRegOf s.params.mode (leNat (s.bytesAt a (2 + k)))).base.toNat =
        leNat (s.bytesAt (a + 2) k) ∧
      pdBytes s.params.mode = 2 + k := by
  have e := bytesAt_add s a 2 k
  have l1 := leNat_lt (s.bytesAt a 2)
  have l2 := leNat_lt (s.bytesAt (a + 2) k)
  rw [length_bytesAt] at l1 l2
  rw [e, leNat_append, length_bytesAt]
  refine ⟨?_, ?_, ?_⟩
  · simp only [tableRegOf, BitVec.toNat_ofNat]; omega
  · simp only [tableRegOf, BitVec.toNat_ofNat]
    cases hm : s.params.mode <;>
      simp only [hm, baseBits, reduceCtorEq, if_false, if_true] at hk ⊢ <;> subst hk <;> omega
  · cases hm : s.params.mode <;> simp [hm, pdBytes, baseBits] at hk ⊢ <;> omega

theorem tableRegOf_fits (m : Mode) (v : Nat) : Fits (baseBits m) (tableRegOf m v).base := by
  simp only [Fits, tableRegOf, BitVec.toNat_ofNat]
  exact lt_of_le_of_lt (Nat.mod_le _ _) (Nat.mod_lt _ (by positivity))

/-! ## EFLAGS (R20) -/

theorem withIf_getLsbD (e : BitVec 32) (b : Bool) (k : Nat) (hk : k ≠ 9) :
    (withIf e b).getLsbD k = e.getLsbD k := by
  unfold withIf ifBit
  split
  · simp [BitVec.getLsbD_twoPow]; omega
  · simp only [BitVec.getLsbD_and, BitVec.getLsbD_not, BitVec.getLsbD_twoPow]
    by_cases h : k < 32
    · have : ¬ 9 = k := by omega
      simp [h, this]
    · simp [BitVec.getLsbD_of_ge e k (by omega)]

end Sys2Proof.Machine
end

