-- ==== Sys2Proof/Laws/PerInstr.lean ====
section
/-! SUPPORT. The statement made for every operation: the shape of its encoding (R60, R65, R68). -/

namespace Sys2Proof.Laws.EncodingShape

/-- An operation's bytes are its opcode, a count its row lists, and operands; there are as many as
its length says, and the map gives its opcode back. -/
def Statement (i : Instr) : Prop :=
  (∃ rest, encode i = i.opcode.byte :: BitVec.ofNat 8 i.operands.length :: rest ∧
    rest.length + 2 = i.length) ∧
  i.operands.length ∈ i.opcode.counts ∧ Opcode.ofByte i.opcode.byte = some i.opcode

theorem of_instr (i : Instr) : Statement i := by
  refine ⟨⟨_, rfl, length_operandBytes _⟩, ?_, Opcode.ofByte_byte _⟩
  have h := counts_operands i
  rw [h.2] at h
  exact List.contains_iff_mem.1 h.1

theorem cpuid (f r : EncodedOperand) : Statement (.cpuid f r) := of_instr _
theorem cpuidExt (f u r : EncodedOperand) : Statement (.cpuidExt f u r) := of_instr _
theorem portIn (d p : EncodedOperand) : Statement (.portIn d p) := of_instr _
theorem portOut (p v : EncodedOperand) : Statement (.portOut p v) := of_instr _
theorem cli : Statement .cli := of_instr _
theorem sti : Statement .sti := of_instr _
theorem invd : Statement .invd := of_instr _
theorem wbinvd : Statement .wbinvd := of_instr _
theorem lgdt (x : EncodedOperand) : Statement (.lgdt x) := of_instr _
theorem lidt (x : EncodedOperand) : Statement (.lidt x) := of_instr _
theorem lldt (x : EncodedOperand) : Statement (.lldt x) := of_instr _
theorem ltr (x : EncodedOperand) : Statement (.ltr x) := of_instr _
theorem invlpg (x : EncodedOperand) : Statement (.invlpg x) := of_instr _
theorem rdmsr (e r : EncodedOperand) : Statement (.rdmsr e r) := of_instr _
theorem wrmsr (e v : EncodedOperand) : Statement (.wrmsr e v) := of_instr _
theorem rdpmc (e r : EncodedOperand) : Statement (.rdpmc e r) := of_instr _
theorem rdtsc (r : EncodedOperand) : Statement (.rdtsc r) := of_instr _

end Sys2Proof.Laws.EncodingShape
end

