-- ==== Sys2Proof/Laws/Step.lean ====
section
/-! SUPPORT. What a step can do, said once: the CPU's, and the machine's. Every rule about all steps is
a case analysis over `step_eq_next`. -/

namespace Sys2Proof.Machine

/-! ## Availability (R67) -/

theorem available_of {s : State} (h1 : s.params.puType = .cpu) (h2 : s.params.archType = .x86) :
    s.available = true := by
  simp [State.available, h1, h2]

theorem unavailable_of {s : State} (h : s.params.puType ≠ .cpu ∨ s.params.archType ≠ .x86) :
    s.available = false := by
  simp only [State.available, Bool.and_eq_false_iff, decide_eq_false_iff_not]
  exact h

theorem illegal_available {s : State} (h : s.available = true) (b : Byte) (n : Option Byte) :
    illegal s b n = .fault (.invalidOpcode b n) := by
  simp [illegal, requireAvailable, h, raise]

theorem illegal_unavailable {s : State} (h : s.available = false) (b : Byte) (n : Option Byte) :
    illegal s b n = .fault (.unavailable b) := by
  simp [illegal, requireAvailable, h]

theorem exec_unavailable {i : Instr} {s : State} (h : s.available = false) :
    exec i s = .fault (.unavailable i.opcode.byte) := by
  cases i <;> simp [exec, execCpuid, execCpuidExt, execPortIn, execPortOut, execCli, execSti,
    execInvd, execWbinvd, execLgdt, execLidt, execLldt, execLtr, execInvlpg, execRdmsr, execWrmsr,
    execRdpmc, execRdtsc, run0, run1, run2, run3, requireAvailable, h, Instr.opcode, Opcode.byte]

/-! ## The CPU's step -/

theorem pc_le_of_drop {s : State} {b : Byte} {rest : List Byte}
    (h : s.params.code.drop s.pc = b :: rest) : ¬ s.params.code.length < s.pc := by
  intro hlt
  rw [List.drop_eq_nil_of_le (by omega)] at h
  cases h

theorem step_running {s : State} (h : s.outcome = .running) : step s = turnStep s := by
  simp [step, machineStep, h]

/-- With the CPU to move and a byte at `pc`, the step is the decoded operation's meaning or the
failure's. -/
theorem step_cpu {s : State} {b : Byte} {rest : List Byte} (ho : s.outcome = .running)
    (ht : s.turns = []) (h : s.params.code.drop s.pc = b :: rest) :
    step s = match decode s.params.mode s.params.codec (b :: rest) with
      | .error e => noOperation s e
      | .ok r => exec r.1 s := by
  simp only [step_running ho, turnStep, ht, cpuStep, pc_le_of_drop h, if_false, State.fetchBytes, h]
  try rfl

/-- A CPU step that gives a next state ends the run at the end of the text, or runs an operation. -/
theorem cpuStep_eq_next {s t : State} (h : cpuStep s = .next t) :
    (s.pc = s.params.code.length ∧ t = { s with outcome := .final }) ∨
    ∃ i rest, s.pc ≤ s.params.code.length ∧
      decode s.params.mode s.params.codec (s.params.code.drop s.pc) = .ok (i, rest) ∧
      exec i s = .next t := by
  unfold cpuStep at h
  split at h
  · cases h
  rename_i hle
  split at h
  · rename_i e he
    cases e <;> simp only [noOperation, illegal, raise, refuse, andThen_eq_next, reduceCtorEq,
      and_false, exists_false, Host.Outcome.next.injEq] at h
    left
    refine ⟨?_, h.symm⟩
    cases hd : s.fetchBytes with
    | nil => simp only [State.fetchBytes, List.drop_eq_nil_iff] at hd; omega
    | cons b l =>
      rw [hd] at he
      by_cases hr : b.toNat < 0xC0 ∨ 0xDF < b.toNat
      · simp [decode, hr] at he
      · rcases decode_error hr he with h | h | ⟨n, h⟩ | ⟨n, h⟩ <;> cases h
  · rename_i r hr
    right; exact ⟨r.1, r.2, by omega, hr, h⟩

/-! ## The machine's step (R33) -/

/-- Everything a step that gives a next state can have been: a run that has ended, the CPU at the end
of the text, the CPU on an operation, the cache background agent, or an announcement that stays
pending. -/
theorem step_eq_next {s t : State} (h : step s = .next t) :
    (s.outcome = .final ∧ t = s) ∨
    (s.outcome = .running ∧
      ((∃ u, (s.turns = [] ∧ u = s.turns ∨ s.turns = .cpu :: u) ∧
          ((s.pc = s.params.code.length ∧ t = { s with turns := u, outcome := .final }) ∨
            ∃ i rest, s.pc ≤ s.params.code.length ∧
              decode s.params.mode s.params.codec (s.params.code.drop s.pc) = .ok (i, rest) ∧
              exec i { s with turns := u } = .next t)) ∨
        (∃ a u, s.turns = .writeBack a :: u ∧ t = ({ s with turns := u }).writeBack a) ∨
        (∃ v u, s.turns = .announce v :: u ∧ (s.pc = 0 ∨ ifOf s.eflags = false) ∧
          t = { s with turns := u }))) := by
  unfold step machineStep at h
  split at h
  · rename_i ho
    right; refine ⟨ho, ?_⟩
    unfold turnStep at h
    split at h
    · rename_i ht
      left; refine ⟨[], Or.inl ⟨ht, ht.symm⟩, ?_⟩
      rcases cpuStep_eq_next h with ⟨h1, rfl⟩ | ⟨i, r, h1, h2, h3⟩
      · left; refine ⟨h1, ?_⟩; rw [← ht]
      · right; refine ⟨i, r, h1, h2, ?_⟩; rw [← ht]; exact h3
    · rename_i u ht
      left; refine ⟨u, Or.inr ht, ?_⟩
      rcases cpuStep_eq_next h with ⟨h1, rfl⟩ | ⟨i, r, h1, h2, h3⟩
      · left; exact ⟨h1, rfl⟩
      · right; exact ⟨i, r, h1, h2, h3⟩
    · rename_i a u ht
      right; left; exact ⟨a, u, ht, by simpa using h.symm⟩
    · rename_i v u ht
      right; right
      refine ⟨v, u, ht, ?_⟩
      unfold announce refuse at h
      split at h
      · cases h
      · rename_i hn
        have h' : { s with turns := u } = t := by simpa using h
        simp only [not_and_or, ne_eq, not_not] at hn
        exact ⟨by simpa using hn, h'.symm⟩
  · rename_i ho
    left; exact ⟨ho, by simpa using h.symm⟩
  · cases h
  · cases h

end Sys2Proof.Machine
end

