-- ==== Sys2Proof/Tests/Slice0.lean ====
section
/-! SUPPORT. The model's own tests: ill-formed terms refused, words decoded, one step per operation with
the values of spec/95_test_vectors.md, and for each statement with hypotheses a state and operands that
meet them. -/

namespace Sys2Proof.Tests

open Machine

/-! ## Helpers: the platform of Definition T2, operands, and what a step answers -/

/-- An operand as Definition T1 spells it. -/
def opd (op : Operand) : EncodedOperand := ⟨(testSpell op).getD [], .absolute op⟩

def imm8 (v : BitVec 8) : EncodedOperand := opd (.imm (.imm8 v))
def imm16 (v : BitVec 16) : EncodedOperand := opd (.imm (.imm16 v))
def imm32 (v : BitVec 32) : EncodedOperand := opd (.imm (.imm32 v))
def imm64 (v : BitVec 64) : EncodedOperand := opd (.imm (.imm64 v))
def reg (id : BitVec 16) : EncodedOperand := opd (.reg id)
def mem (a : BitVec 64) (n : Nat) : EncodedOperand := opd (.mem a n)

/-- Bytes in a row as cells; a zero byte is not listed. -/
def cells : Nat → List Byte → List Host.Cell
  | _, [] => []
  | a, b :: bs => if b = 0 then cells (a + 1) bs else (a, b) :: cells (a + 1) bs

/-- The test platform in this `MODE`, at supervisor. -/
def t2 (m : Mode) : State := { State.reset with params := { Params.reset with mode := m } }

/-- The same with a program text, and draws fixed so that results can be compared. -/
def running (m : Mode) (code : List Byte) (draws : List (BitVec 64)) : State :=
  { State.reset with params := { Params.reset with mode := m, code := code, draws := draws } }

/-- The same at user level. -/
def atUser (s : State) : State := { s with priv := .user }

def nextOf (x : Res State) : Option State :=
  match x with
  | .next t => some t
  | .fault _ => none
  | .refused _ => none

def faultOf (x : Res State) : Option Fault :=
  match x with
  | .next _ => none
  | .fault f => some f
  | .refused _ => none

def refusalOf (x : Res State) : Option Refusal :=
  match x with
  | .next _ => none
  | .fault _ => none
  | .refused r => some r

/-! ## WellFormed refuses an ill-formed term for each of its checks -/

theorem test_wf_accepts : Instr.wf .m32 .test (.rdtsc (mem 0x2000 8)) = true := by decide

/-- A memory operand without a byte. -/
theorem test_wf_size_zero : Instr.wf .m32 .test (.rdtsc (mem 0x2000 0)) = false := by decide

/-- An address that MODE 16 cannot hold, accepted in MODE 32. -/
theorem test_wf_address : Instr.wf .m16 .test (.invlpg (mem 0x10000 1)) = false ∧
    Instr.wf .m32 .test (.invlpg (mem 0x10000 1)) = true := by decide

/-- A text that spells another operand. -/
theorem test_wf_text : Instr.wf .m32 .test (.lldt ⟨[0x02, 0x29, 0x00], .absolute (.imm (.imm16 0x28))⟩) =
    false := by decide

/-- A text with a byte left over. -/
theorem test_wf_leftover : Instr.wf .m32 .test
    (.lldt ⟨[0x02, 0x28, 0x00, 0x00], .absolute (.imm (.imm16 0x28))⟩) = false := by decide

/-! ## Decoding: every operation from a word written out from the map (R65) and Definition T1 -/

/-- The operation that begins the bytes, if one does. -/
def decoded (m : Mode) (bs : List Byte) : Option Instr :=
  match decode m .test bs with
  | .ok r => some r.1
  | .error _ => none

/-- A1, A2. -/
theorem test_decode_cpuid :
    decoded .m32 [0xC0, 0x02, 0x04, 0, 0, 0, 0, 0x20, 0x10, 0x00, 0x20, 0, 0, 0, 0, 0, 0] =
      some (.cpuid (imm32 0) (mem 0x2000 16)) ∧
    decoded .m32 [0xC0, 0x03, 0x04, 4, 0, 0, 0, 0x04, 1, 0, 0, 0,
      0x20, 0x10, 0x00, 0x30, 0, 0, 0, 0, 0, 0] =
      some (.cpuidExt (imm32 4) (imm32 1) (mem 0x3000 16)) := by decide

/-- B3, B16. -/
theorem test_decode_ports :
    decoded .m64 [0xC1, 0x02, 0x10, 0x10, 0x00, 0x02, 0xFC, 0x0C] =
      some (.portIn (reg 0x0010) (imm16 0x0CFC)) ∧
    decoded .m32 [0xC2, 0x02, 0x02, 0xF8, 0x0C, 0x20, 0x04, 0x00, 0x10, 0, 0, 0, 0, 0, 0] =
      some (.portOut (imm16 0x0CF8) (mem 0x1000 4)) := by decide

/-- S5 to S8. -/
theorem test_decode_plain :
    decoded .m32 [0xC3, 0x00] = some .cli ∧ decoded .m32 [0xC4, 0x00] = some .sti ∧
    decoded .m32 [0xC5, 0x00] = some .invd ∧ decoded .m32 [0xC6, 0x00] = some .wbinvd := by decide

/-- G1, G9, G13, G20. -/
theorem test_decode_tables :
    decoded .m32 [0xC7, 0x01, 0x20, 0x06, 0x00, 0x30, 0, 0, 0, 0, 0, 0] =
      some (.lgdt (mem 0x3000 6)) ∧
    decoded .m64 [0xC8, 0x01, 0x20, 0x0A, 0x10, 0x30, 0, 0, 0, 0, 0, 0] =
      some (.lidt (mem 0x3010 10)) ∧
    decoded .m32 [0xC9, 0x01, 0x10, 0x10, 0x00] = some (.lldt (reg 0x0010)) ∧
    decoded .m32 [0xCA, 0x01, 0x02, 0x40, 0x00] = some (.ltr (imm16 0x0040)) := by decide

/-- T2, M12, M11, N5v, N9v. -/
theorem test_decode_system :
    decoded .m32 [0xCB, 0x01, 0x20, 0x08, 0xBD, 0x4A, 0, 0, 0, 0, 0, 0] =
      some (.invlpg (mem 0x4ABD 8)) ∧
    decoded .m64 [0xCC, 0x02, 0x01, 0x1B, 0x10, 0x20, 0x00] =
      some (.rdmsr (imm8 0x1B) (reg 0x0020)) ∧
    decoded .m32 [0xCD, 0x02, 0x04, 0x00, 0x01, 0x00, 0xC0,
      0x08, 0x00, 0x50, 0x34, 0x12, 0x00, 0x7F, 0x00, 0x00] =
      some (.wrmsr (imm32 0xC0000100) (imm64 0x00007F0012345000)) ∧
    decoded .m64 [0xCE, 0x02, 0x01, 0x00, 0x10, 0x20, 0x00] =
      some (.rdpmc (imm8 0) (reg 0x0020)) ∧
    decoded .m64 [0xCF, 0x01, 0x10, 0x20, 0x00] = some (.rdtsc (reg 0x0020)) := by decide

/-- E2, E4, E5, E7, E8, E12, E13, and the address that MODE 16 cannot hold. -/
theorem test_decode_stops :
    faultOf (step (running .m32 [0xD0, 0x00] [])) = some (.invalidOpcode 0xD0 none) ∧
    faultOf (step (running .m32 [0xC3] [])) = some (.invalidOpcode 0xC3 none) ∧
    faultOf (step (running .m32 [0xC3, 0x01, 0x01, 0x00] [])) =
      some (.invalidOpcode 0xC3 (some 0x01)) ∧
    faultOf (step (running .m32 [0xC0, 0x04, 1, 0, 1, 0, 1, 0, 1, 0] [])) =
      some (.invalidOpcode 0xC0 (some 0x04)) ∧
    refusalOf (step (running .m32 [0x90] [])) = some (.outOfScopeOpcode 0x90) ∧
    faultOf (step (running .m32 [0xCF, 0x01, 0xFF] [])) = some (.invalidOpcode 0xCF (some 0x01)) ∧
    faultOf (step (running .m32 [0xCF, 0x01, 0x10, 0x20] [])) =
      some (.invalidOpcode 0xCF (some 0x01)) ∧
    faultOf (step (running .m16 [0xCB, 0x01, 0x20, 1, 0, 0, 1, 0, 0, 0, 0, 0] [])) =
      some (.invalidOpcode 0xCB (some 0x01)) := by decide

/-- E14, E15, E16. -/
theorem test_register_operands :
    faultOf (step (running .m64 [0xCF, 0x01, 0x10, 0x0E, 0x00] [])) =
      some (.invalidOperand 0xCF 1) ∧
    faultOf (step (running .m32 [0xCF, 0x01, 0x10, 0x20, 0x00] [])) =
      some (.invalidOperand 0xCF 1) ∧
    refusalOf (step (running .m32 [0xCF, 0x01, 0x10, 0x1B, 0x00] [])) = some .regClass := by decide

/-! ## One step per operation (95_test_vectors Part 3) -/

/-- CPUID's answers in A1 and A2. -/
def rowsA : List CpuidRow :=
  [⟨0, none, ⟨1, 0x11111111, 0x22222222, 0x33333333⟩, []⟩, ⟨4, some 1, ⟨0xA, 0xB, 0xC, 0xD⟩, []⟩]

def withRows (s : State) : State := { s with params := { s.params with cpuidRows := rowsA } }

/-- A8: sixteen bytes of the 32, and the events. -/
theorem test_cpuid_stores_sixteen_bytes :
    (nextOf (exec (.cpuid (imm32 0) (mem 0x2000 32))
      { withRows (t2 .m32) with mem := cells 0x2000 (List.replicate 32 0xEE) })).map
        (fun t => (t.bytesAt 0x2000 17, t.pc, t.history)) =
      some ([1, 0, 0, 0, 0x11, 0x11, 0x11, 0x11, 0x22, 0x22, 0x22, 0x22, 0x33, 0x33, 0x33, 0x33, 0xEE],
        17, [.memWrite 0x2000 16 0x33333333222222221111111100000001]) := by decide

/-- A14: the function is read before the clobber, here with draws of 7. -/
theorem test_cpuid_reads_before_the_clobber :
    (nextOf (exec (.cpuid (reg 0x0010) (mem 0x2000 16))
      (withRows (running .m32 [] (List.replicate 5 7))))).map
        (fun t => (t.bytesAt 0x2000 4, t.gpr.a, t.gpr.d, t.gpr.si)) =
      some ([1, 0, 0, 0], 7, 7, 0) := by decide

/-- A2. -/
theorem test_cpuidExt_uses_the_subfunction :
    (nextOf (exec (.cpuidExt (imm32 4) (imm32 1) (mem 0x3000 16)) (withRows (t2 .m32)))).map
        (fun t => (t.bytesAt 0x3000 16, t.pc)) =
      some ([0xA, 0, 0, 0, 0xB, 0, 0, 0, 0xC, 0, 0, 0, 0xD, 0, 0, 0], 22) := by decide

/-- Hand calculation: from a set of three a draw of 4 picks the answer after the first (R82). -/
theorem test_cpuid_picks_from_a_set :
    (nextOf (exec (.cpuidExt (imm32 7) (imm32 0) (mem 0x3000 16))
      { running .m32 [] [4] with params := { (running .m32 [] [4]).params with cpuidRows :=
          [⟨7, some 0, ⟨1, 2, 3, 4⟩, [⟨5, 6, 7, 8⟩, ⟨9, 10, 11, 12⟩]⟩] } })).map
        (fun t => t.bytesAt 0x3000 16) =
      some [5, 0, 0, 0, 6, 0, 0, 0, 7, 0, 0, 0, 8, 0, 0, 0] := by decide

/-- Hand calculation: of more than 2^64 answers the last one comes too. -/
theorem test_draw_index_past_64_bits :
    (drawIndex (2 ^ 64 + 1) (running .m32 [] [0, 1])).val = 2 ^ 64 ∧
    (drawIndex (2 ^ 96) (running .m32 [] [0xFFFFFFFFFFFFFFFF, 0xFFFFFFFF])).val = 2 ^ 96 - 1 := by
  decide

def answering (s : State) (v : BitVec 32) : State :=
  { s with params := { s.params with ioAnswers := [v] } }

/-- B2: two bytes, bits 31:16 of A are the draw. -/
theorem test_in_writes_the_view :
    (nextOf (exec (.portIn (reg 0x0000) (reg 0x0003))
      { answering (running .m32 [] [0x12345678, 0x12345678]) 0xBEEF with
        gpr := { State.reset.gpr with d := 0x123403F8 } })).map
        (fun t => (t.gpr.a, t.gpr.d, t.history)) =
      some (0x1234BEEF, 0x12345678, [.ioRead 0x03F8 2 0xBEEF]) := by decide

/-- B3, and B10: the destination is checked before the device is touched. -/
theorem test_in_clears_the_upper_half_and_checks_first :
    (nextOf (exec (.portIn (reg 0x0010) (imm16 0x0CFC)) (answering (t2 .m64) 0x80001234))).map
        (fun t => t.gpr.a) = some 0x0000000080001234 ∧
    refusalOf (exec (.portIn (mem 0x1001 2) (imm8 0x60)) (t2 .m32)) = some .misaligned := by decide

/-- B14: the size is the operand's; B15: the port and the value are read before the clobber. -/
theorem test_out_sends_the_operands_size :
    (nextOf (exec (.portOut (imm8 0x80) (imm32 1)) (t2 .m32))).map (fun t => t.history) =
      some [.ioWrite 0x0080 4 1] ∧
    (nextOf (exec (.portOut (reg 0x0003) (reg 0x0000))
      { t2 .m32 with gpr := { State.reset.gpr with a := 0xFFFF0041, d := 0x03F8 } })).map
        (fun t => t.history) = some [.ioWrite 0x03F8 2 0x0041] := by decide

/-- B20, B18: the sources are read before the permission is checked. -/
theorem test_out_reads_before_the_permission :
    faultOf (exec (.portOut (imm8 0x80) (mem 0x9000 4)) (atUser (t2 .m32))) =
      some (.memory 0x9000) ∧
    faultOf (exec (.portOut (imm8 0x70) (imm8 0x8F)) (atUser (t2 .m32))) =
      some (.privilege 0xC2) := by decide

/-- F1, F5. -/
theorem test_cli :
    (nextOf (exec .cli { t2 .m32 with eflags := 0x00000202 })).map (fun t => (t.eflags, t.pc)) =
      some (0x00000002, 2) ∧
    faultOf (exec .cli (atUser (t2 .m32))) = some (.privilege 0xC3) := by decide

/-- F4, and F7 at its boundary: no delay behind STI. -/
theorem test_sti :
    (nextOf (exec .sti { t2 .m32 with eflags := 0xFFFFFDFF })).map (fun t => t.eflags) =
      some 0xFFFFFFFF ∧
    refusalOf (step { running .m32 [0xC4, 0x00, 0xC3, 0x00] [] with
      pc := 2, eflags := 0x00000202, turns := [.announce 0x20] }) =
      some (.interruptDelivery 0x20) := by decide

/-- K1's launch: one modified byte over a zero byte. -/
def modified : State := { t2 .m32 with cache := [(0x1000, 0xFF)] }

/-- K1. -/
theorem test_invd_loses_the_byte :
    (nextOf (exec .invd modified)).map (fun t => (t.cache, t.visible 0x1000, t.history)) =
      some ([], 0, [.cacheInvalidate]) := by decide

/-- K2. -/
theorem test_wbinvd_keeps_the_byte :
    (nextOf (exec .wbinvd modified)).map (fun t => (t.cache, t.mem, t.history)) =
      some ([], [(0x1000, 0xFF)], [.cacheWriteBackInvalidate]) := by decide

/-- K3's first step: the background agent. -/
theorem test_write_back :
    (nextOf (step { modified with turns := [.writeBack 0x1000] })).map
        (fun t => (t.cache, t.mem, t.history)) =
      some ([], [(0x1000, 0xFF)], [.cacheWriteBack 0x1000]) := by decide

/-- G3: all 32 base bits in MODE 16. -/
theorem test_lgdt_loads_the_whole_base :
    (nextOf (exec (.lgdt (mem 0x3000 6))
      { t2 .m16 with mem := cells 0x3000 [0xFF, 0x03, 0x00, 0x80, 0x12, 0x34] })).map
        (fun t => t.gdtr) = some ⟨0x03FF, 0x34128000⟩ := by decide

/-- E18, E17: privilege before the read, the static check before privilege. -/
theorem test_lgdt_checks_in_order :
    faultOf (exec (.lgdt (mem 0x9000 6)) (atUser (t2 .m32))) = some (.privilege 0xC7) ∧
    faultOf (exec (.lgdt (reg 0x0000)) (atUser (t2 .m32))) = some (.invalidOperand 0xC7 1) := by
  decide

/-- G9. -/
theorem test_lidt_mode_64 :
    (nextOf (exec (.lidt (mem 0x3010 10)) { t2 .m64 with
      mem := cells 0x3010 [0xFF, 0x0F, 0x00, 0x10, 0x00, 0x00, 0x80, 0xFF, 0xFF, 0xFF] })).map
        (fun t => (t.idtr, t.history)) =
      some (⟨0x0FFF, 0xFFFFFF8000001000⟩, [.memRead 0x3010 10 0xFFFFFF80000010000FFF]) := by decide

/-- G10, G11. -/
theorem test_lldt :
    (nextOf (exec (.lldt (imm16 0x0028)) (t2 .m32))).map (fun t => (t.ldtr.selector, t.pc)) =
      some (0x0028, 5) ∧
    faultOf (exec (.lldt (imm8 0x28)) (t2 .m32)) = some (.invalidOperand 0xC9 1) := by decide

/-- The platform rejects every selector. -/
def rejecting (s : State) : State :=
  { s with params := { s.params with selectorRules := [⟨.lldt, none, none, false⟩, ⟨.ltr, none, none, false⟩] } }

/-- G19, and G17 on LTR. -/
theorem test_ltr :
    (nextOf (exec (.ltr (reg 0x0000))
      { t2 .m32 with gpr := { State.reset.gpr with a := 0xABCD0040 } })).map
        (fun t => (t.tr.selector, t.gpr.a)) = some (0x0040, 0xABCD0040) ∧
    faultOf (exec (.ltr (imm16 0x0040)) (rejecting (t2 .m32))) = some (.selectorFault 0x0040) := by
  decide

/-- A platform that accepts a selector for LLDT where bit 7 of byte 5 of the eight bytes it names behind
GDTR.base is set: a `SELECTOR_CHECK` that depends on State (R6, R103). -/
def checkingGdt (s : State) : State :=
  { s with params := { s.params with selectorRules :=
      [⟨.lldt, none, some (.app .lt (.const 127) (.visible (.app .add (.named .gdtrBase)
          (.app .add (.app .mul (.app .div .selector (.const 8)) (.const 8)) (.const 5))))), true⟩,
       ⟨.lldt, none, none, false⟩] } }

/-- G10 and G17 on that platform: the same selector, accepted in one State and rejected in another. -/
theorem test_selector_check_reads_the_state :
    (nextOf (exec (.lldt (imm16 0x0028)) { checkingGdt (t2 .m32) with
      gdtr := ⟨0xFFFF, 0x2000⟩, mem := [(0x202D, 0x82)] })).map
        (fun t => (t.ldtr.selector, t.history)) = some (0x0028, []) ∧
    faultOf (exec (.lldt (imm16 0x0028)) { checkingGdt (t2 .m32) with
      gdtr := ⟨0xFFFF, 0x2008⟩, mem := [(0x202D, 0x82)] }) = some (.selectorFault 0x0028) := by
  decide

/-- Hand calculation: the State is the one in which the selector was read from memory. -/
theorem test_selector_check_sees_the_read :
    evalTerm 0 ((t2 .m32).log (.memRead 0x2000 2 0x28)) (.event (.const 0) .value) = 0x28 ∧
    evalTerm 7 (t2 .m32) (.cond (.named .supervisor) (.app .sub .selector (.const 8)) (.const 9)) = 0 :=
  by decide

/-- T2: the page key drops the low 12 bits, and no alignment is asked for. -/
theorem test_invlpg_by_page :
    (nextOf (exec (.invlpg (mem 0x4ABD 8))
      { t2 .m32 with params := { (t2 .m32).params with pageShift := 12 }, tlb := [4, 5] })).map
        (fun t => (t.tlb, t.history)) = some ([5], [.tlbInvalidate 4]) := by decide

/-- T3: an address that is not admitted is no fault. -/
theorem test_invlpg_unadmitted :
    (nextOf (exec (.invlpg (mem 0x9000 1)) (t2 .m32))).map (fun t => t.history) =
      some [.tlbInvalidate 0x9000] := by decide

/-- Three plain registers with every value legal. -/
def plainMsrs (s : State) : State :=
  { s with params := { s.params with msrRules :=
      [⟨0x1B, .plain [⟨0, 0xFFFFFFFFFFFFFFFF⟩]⟩, ⟨0x300, .plain [⟨0, 0xFFFFFFFFFFFFFFFF⟩]⟩,
       ⟨0xC0000100, .plain [⟨0, 0x00007FFFFFFFFFFF⟩]⟩] } }

/-- M2: the result is written after the clobber. M5. -/
theorem test_rdmsr :
    (nextOf (exec (.rdmsr (imm8 0x1B) (reg 0x0020))
      { plainMsrs (running .m64 [] [1, 2, 3]) with msr := [(0x1B, 0xFEE00900)] })).map
        (fun t => (t.gpr.a, t.gpr.b, t.msr)) =
      some (0x00000000FEE00900, 0, [(0x1B, 0xFEE00900)]) ∧
    refusalOf (exec (.rdmsr (imm32 0x1B) (mem 0x2004 8)) (plainMsrs (t2 .m32))) =
      some .misaligned := by decide

/-- M12: EAX from +0, EDX from +4, ECX read before the clobber. -/
theorem test_wrmsr_writes :
    (nextOf (exec (.wrmsr (reg 0x0012) (mem 0x2000 8))
      { plainMsrs (t2 .m32) with
        gpr := { State.reset.gpr with c := 0x00000300 }
        mem := cells 0x2000 [0x88, 0x77, 0x66, 0x55, 0x44, 0x33, 0x22, 0x11] })).map
        (fun t => t.msr) = some [(0x300, 0x1122334455667788)] := by decide

/-- M15, M16. -/
theorem test_wrmsr_stops :
    refusalOf (exec (.wrmsr (imm32 0xC0000100) (imm64 0x00007F0012345000)) (t2 .m32)) =
      some (.msrOpaqueWrite 0xC0000100) ∧
    faultOf (exec (.wrmsr (imm32 0xC0000100) (imm64 0x8000000000000000)) (plainMsrs (t2 .m32))) =
      some (.msrFault 0xC0000100) := by decide

/-- N1v. -/
theorem test_rdpmc_at_user_level :
    (nextOf (exec (.rdpmc (imm32 0) (mem 0x2000 8))
      { atUser (running .m32 [] [0xABCDEF]) with cr4 := 0x100 })).map
        (fun t => (t.bytesAt 0x2000 8, t.pc)) =
      some ([0xEF, 0xCD, 0xAB, 0, 0, 0, 0, 0], 17) := by decide

/-- N2v, N4v. -/
theorem test_rdpmc_stops :
    faultOf (exec (.rdpmc (imm32 0) (mem 0x2000 8)) (atUser (t2 .m32))) = some (.privilege 0xCE) ∧
    faultOf (exec (.rdpmc (imm32 9) (mem 0x2000 8))
      { t2 .m32 with params := { (t2 .m32).params with pmcRules := [⟨some 9, false⟩] } }) =
      some (.pmcFault 9) := by decide

/-- N6v: at user level with TSD = 0; C is untouched. -/
theorem test_rdtsc :
    (nextOf (exec (.rdtsc (mem 0x2000 8)) (atUser (running .m32 [] [0x1234567890, 5, 5])))).map
        (fun t => (t.bytesAt 0x2000 8, t.gpr.a, t.gpr.c, t.gpr.d)) =
      some ([0x90, 0x78, 0x56, 0x34, 0x12, 0, 0, 0], 5, 0, 5) := by decide

/-- N15v's second read: a draw below the last value does not go below it. N7v. -/
theorem test_rdtsc_monotonic_and_tsd :
    (nextOf (exec (.rdtsc (reg 0x0020))
      { running .m64 [] [0xFFFFFFFFFFFFFFFF] with
        params := { (running .m64 [] [0xFFFFFFFFFFFFFFFF]).params with tscMonotonic := true }
        lastTsc := 0xFFFFFFFFFFFFFFF0 })).map
        (fun t => (decide (0xFFFFFFFFFFFFFFF0 ≤ t.lastTsc.toNat), decide (t.gpr.a = t.lastTsc))) =
      some (true, true) ∧
    faultOf (exec (.rdtsc (mem 0x2000 8)) { atUser (t2 .m32) with cr4 := 0x4 }) =
      some (.privilege 0xCF) := by decide

/-- The rows of the opcode table, their operand words zero, decode to their own operations. -/
theorem test_table_words :
    [0xC002, 0xC003, 0xC102, 0xC202, 0xC300, 0xC400, 0xC500, 0xC600, 0xC701, 0xC801, 0xC901,
      0xCA01, 0xCB01, 0xCC02, 0xCD02, 0xCE02, 0xCF01].map
        (fun w => (decodeTableWord 16 w).map fun i => (i.opcode.byte.toNat, i.operands.length)) =
    [(0xC0, 2), (0xC0, 3), (0xC1, 2), (0xC2, 2), (0xC3, 0), (0xC4, 0), (0xC5, 0), (0xC6, 0),
      (0xC7, 1), (0xC8, 1), (0xC9, 1), (0xCA, 1), (0xCB, 1), (0xCC, 2), (0xCD, 2), (0xCE, 2),
      (0xCF, 1)].map some := by decide

/-! ## Witnesses: for each statement with hypotheses, a state and operands that meet them all -/

theorem witness_DecodeOfEncodeGivesTheOperation :
    Instr.wf .m16 .test (.portIn (mem 0xFFFF 255) (reg 0xFFFF)) = true ∧
    Instr.wf .m64 .test (.wrmsr (imm8 0xFF) (imm64 0xFFFFFFFFFFFFFFFF)) = true ∧
    Instr.wf .m64 .test (.cpuidExt (imm16 1) (imm32 2) (mem 0xFFFFFFFFFFFFFFFF 1)) = true ∧
    Instr.wf .m32 .test .cli = true := by decide

theorem witness_EncodeOfDecodeGivesTheBytes :
    decode .m32 .test [0xC9, 0x01, 0x02, 0x28, 0x00, 0x90] = .ok (.lldt (imm16 0x28), [0x90]) := rfl

theorem witness_TestCodecReadsItsOwnSpelling :
    Operand.inRange .m16 (.mem 0xFFFF 255) = true ∧
      testSpell (.mem 0xFFFF 255) = some [0x20, 0xFF, 0xFF, 0xFF, 0, 0, 0, 0, 0, 0] ∧
    Operand.inRange .m16 (.imm (.imm64 0xFFFFFFFFFFFFFFFF)) = true ∧
      testSpell (.imm (.imm64 0xFFFFFFFFFFFFFFFF)) = some (0x08 :: List.replicate 8 0xFF) ∧
    Operand.inRange .m16 (.reg 0xFFFF) = true ∧
      testSpell (.reg 0xFFFF) = some [0x10, 0xFF, 0xFF] := by decide

/-- CLI at the very end of a text, and STI before it. -/
def cliText : State := { running .m32 [0xC4, 0x00, 0xC3, 0x00] [] with pc := 2 }

theorem witness_StepRunsTheDecodedOperation :
    cliText.outcome = .running ∧ cliText.pc ≤ cliText.params.code.length ∧
    decode cliText.params.mode cliText.params.codec (cliText.params.code.drop cliText.pc) =
      .ok (.cli, []) ∧
    cliText.turns = [] ∧ ({ cliText with turns := [.cpu, .writeBack 0] } : State).turns =
      .cpu :: [.writeBack 0] := ⟨rfl, by decide, rfl, rfl, rfl⟩

/-- The CPU's turn is listed, another agent's behind it. -/
def cpuTurn (s : State) : State := { s with turns := [.cpu, .announce 0x20] }

theorem cpuMoves_running (m : Mode) (code : List Byte) (draws : List (BitVec 64)) :
    (running m code draws).CpuMoves ∧ (cpuTurn (running m code draws)).CpuMoves :=
  ⟨.inl rfl, .inr rfl⟩

/-- Both ends of the reserved opcodes. -/
theorem witness_ReservedOpcodeIsIllegal : ∀ b ∈ [(0xD0 : Byte), 0xDF],
    (running .m32 [b, 0] []).outcome = .running ∧ (running .m32 [b, 0] []).CpuMoves ∧
    (running .m32 [b, 0] []).params.code.drop (running .m32 [b, 0] []).pc = b :: [0] ∧
    (running .m32 [b, 0] []).params.puType = .cpu ∧
    (running .m32 [b, 0] []).params.archType = .x86 ∧ 0xD0 ≤ b.toNat ∧ b.toNat ≤ 0xDF := by decide

/-- Both ends of the assigned opcodes: no count byte, a count the row does not list, an operand that
is none. -/
theorem witness_IllegalCountOrOperandIsInvalidOpcode :
    (∀ text ∈ [[(0xC0 : Byte)], [0xCF], [0xC0, 1, 0], [0xCF, 0, 0], [0xC0, 2, 0xFF], [0xCF, 1, 0xFF]],
      (running .m32 text []).outcome = .running ∧ (running .m32 text []).CpuMoves ∧
      (running .m32 text []).params.puType = .cpu ∧
      (running .m32 text []).params.archType = .x86 ∧
      (running .m32 text []).params.code.drop (running .m32 text []).pc = text ∧
      0xC0 ≤ (text.headD 0).toNat ∧ (text.headD 0).toNat ≤ 0xCF) ∧
    Opcode.ofByte 0xC0 = some .cpuid ∧ Opcode.ofByte 0xCF = some .rdtsc ∧
    1 ∉ Opcode.counts .cpuid ∧ 4 ∉ Opcode.counts .cpuid ∧ 0 ∉ Opcode.counts .rdtsc ∧
    2 ∈ Opcode.counts .cpuid ∧ 3 ∈ Opcode.counts .cpuid ∧ 1 ∈ Opcode.counts .rdtsc ∧
    decodeOperands .m32 .test 2 [0xFF] = none ∧ decodeOperands .m32 .test 1 [0xFF] = none := by
  decide

/-- The same platform without one of the two conditions. -/
def noCpu (s : State) : State := { s with params := { s.params with puType := .other } }
def noX86 (s : State) : State := { s with params := { s.params with archType := .other } }

theorem witness_UnavailableRangeRaisesUnavailable : ∀ b ∈ [(0xC0 : Byte), 0xDF],
    (noCpu (running .m32 [b] [])).outcome = .running ∧ (noCpu (running .m32 [b] [])).CpuMoves ∧
    (noCpu (running .m32 [b] [])).params.code.drop 0 = b :: [] ∧
    (noCpu (running .m32 [b] [])).pc = 0 ∧ (noX86 (running .m32 [b] [])).pc = 0 ∧
    (noX86 (running .m32 [b] [])).params.code.drop 0 = b :: [] ∧
    (noCpu (running .m32 [b] [])).params.puType ≠ .cpu ∧
    (noX86 (running .m32 [b] [])).params.archType ≠ .x86 ∧ 0xC0 ≤ b.toNat ∧ b.toNat ≤ 0xDF := by
  decide

theorem witness_OpcodeOutsideTheRangeIsRefused : ∀ b ∈ [(0x00 : Byte), 0xBF, 0xE0, 0xFF],
    (running .m32 [b] []).outcome = .running ∧ (running .m32 [b] []).CpuMoves ∧
    (running .m32 [b] []).params.code.drop (running .m32 [b] []).pc = b :: [] ∧
    (b.toNat < 0xC0 ∨ 0xDF < b.toNat) := by decide

theorem witness_EndOfTextEndsTheRun :
    (running .m32 [] []).outcome = .running ∧ (running .m32 [] []).CpuMoves ∧
    (cpuTurn (running .m32 [] [])).outcome = .running ∧ (cpuTurn (running .m32 [] [])).CpuMoves ∧
    (running .m32 [] []).pc = (running .m32 [] []).params.code.length ∧
    ({ running .m32 [] [] with outcome := .final } : State).outcome = .final := by decide

theorem witness_StopsArePreciseAndTerminal :
    step (running .m32 [0xDF] []) = .fault (.invalidOpcode 0xDF none) ∧
    step (running .m32 [0x90] []) = .refused (.outOfScopeOpcode 0x90) := ⟨rfl, rfl⟩

theorem wf_t2 (m : Mode) (code : List Byte) (draws : List (BitVec 64)) :
    (running m code draws).Wf := by
  refine ⟨rfl, rfl, rfl, rfl, Nat.zero_le _, ?_, ?_, ?_, ?_⟩
  · intro cell
    cases cell <;> exact Nat.two_pow_pos _
  · exact ⟨Nat.two_pow_pos _, Nat.two_pow_pos _, Nat.two_pow_pos _, Nat.two_pow_pos _⟩
  · exact Nat.two_pow_pos _
  · exact Nat.two_pow_pos _

theorem witness_StepKeepsTheStateWellFormed :
    (running .m32 [0xC3, 0x00] []).Wf ∧ ∃ t, step (running .m32 [0xC3, 0x00] []) = .next t :=
  ⟨wf_t2 _ _ _, _, rfl⟩

theorem witness_NoStepChangesWhatIsFixed : ∃ t, step (running .m64 [0xC6, 0x00] []) = .next t :=
  ⟨_, rfl⟩

theorem witness_OnlyCliAndStiChangeEflags :
    (∃ t, exec .invd (t2 .m32) = .next t) ∧ Instr.invd ≠ .cli ∧ Instr.invd ≠ .sti ∧
    (∃ t, exec .cli (t2 .m32) = .next t) ∧ (8 ≠ 9) ∧ (10 ≠ 9) :=
  ⟨⟨_, rfl⟩, by decide, by decide, ⟨_, rfl⟩, by decide, by decide⟩

/-- CLI is none of the seven writers. -/
theorem witness_SpecialRegistersHaveOneWriter :
    (∃ t, exec .cli (t2 .m32) = .next t) ∧ (∀ e, Instr.cli ≠ .lgdt e) ∧ (∀ e, Instr.cli ≠ .lidt e) ∧
    (∀ e, Instr.cli ≠ .lldt e) ∧ (∀ e, Instr.cli ≠ .ltr e) ∧ (∀ e v, Instr.cli ≠ .wrmsr e v) ∧
    (∀ e, Instr.cli ≠ .invlpg e) ∧ (∀ e, Instr.cli ≠ .rdtsc e) :=
  ⟨⟨_, rfl⟩, by simp, by simp, by simp, by simp, by simp, by simp, by simp⟩

theorem witness_EveryOperationFallsThrough :
    ∃ t, exec (.lldt (imm16 0x28)) (t2 .m32) = .next t := ⟨_, rfl⟩

theorem witness_HistoryOnlyGrows : ∃ t, step (running .m32 [0xC5, 0x00] []) = .next t := ⟨_, rfl⟩

theorem witness_UserLevelCannotReachPrivilegedState :
    (atUser (t2 .m64)).priv = .user ∧
    ∃ t, exec (.rdtsc (reg 0x0020)) (atUser (t2 .m64)) = .next t := ⟨rfl, _, rfl⟩

theorem witness_NoDeliveryWhileIfIsClear :
    (t2 .m32).outcome = .running ∧ (t2 .m32).eflags.getLsbD 9 = false := by decide

/-- A monotonic platform whose last value is the largest. -/
def monotonic : State :=
  { t2 .m64 with
    params := { (t2 .m64).params with tscMonotonic := true, code := [0xCF, 0x01, 0x10, 0x20, 0x00] }
    lastTsc := 0xFFFFFFFFFFFFFFFF }

theorem witness_MonotonicTimeStampNeverDecreases :
    monotonic.params.tscMonotonic = true ∧ ∃ t, step monotonic = .next t := ⟨rfl, _, rfl⟩

/-- A whole text, and its end. -/
theorem witness_EveryRunEnds :
    cliText.outcome = .running ∧ cliText.pc ≤ cliText.params.code.length ∧
    cliText.params.code.length - cliText.pc + cliText.turns.length < 3 ∧
    (running .m32 [] []).params.code.length - (running .m32 [] []).pc +
      (running .m32 [] []).turns.length < 1 := by decide

/-- The byte is modified, and a byte is not. -/
theorem witness_WriteBackIsInvisibleToReads :
    modified.outcome = .running ∧
    ({ modified with turns := [.writeBack 0x1000] } : State).turns = .writeBack 0x1000 :: [] ∧
    Sparse.get? modified.cache 0x1000 = some 0xFF ∧ Sparse.get? modified.cache 0x1001 = none := by
  decide

/-- Announced with IF set behind an operation, with IF clear, and before the first operation. -/
theorem witness_InterruptIsDeliveredWhereIfIsSet :
    (t2 .m32).outcome = .running ∧
    ({ t2 .m32 with turns := [.announce 0x20] } : State).turns = .announce 0x20 :: [] ∧
    (({ cliText with eflags := 0x200 } : State).pc ≠ 0 ∧
      ({ cliText with eflags := 0x200 } : State).eflags.getLsbD 9 = true) ∧
    cliText.eflags.getLsbD 9 = false ∧ (t2 .m32).pc = 0 := by decide

/-- The last admitted bytes, and no bytes. -/
theorem witness_ReadAfterWriteGivesTheValue :
    (∃ t, memWrite 0x7FF8 8 0x1122334455667788 (t2 .m32) = .next t) ∧
    (∃ t, memWrite 0x1000 0 0 (t2 .m32) = .next t) := ⟨⟨_, rfl⟩, ⟨_, rfl⟩⟩

/-- A platform that admits a write over the program text. -/
def overText : State :=
  { t2 .m32 with params := { (t2 .m32).params with
      code := [0xC3, 0x00], memAdmit := [⟨.write, 0xF000, 0x10000, none⟩] } }

/-- Each clause on both sides of its edge. -/
theorem witness_MemoryAccessIsAdmittedWholeOrNotAtAll :
    2 ^ (t2 .m16).params.mode.bits < 0xFFFF + 2 ∧
    memAdmit (t2 .m32).params 0x0FFF 1 .read = false ∧
    memAdmit (t2 .m32).params 0x7FFF 2 .write = false ∧
    memAdmit (t2 .m32).params 0x7FFF 1 .write = true ∧
    0xF001 + 1 ≤ 2 ^ overText.params.mode.bits ∧
    memAdmit overText.params 0xF001 1 .write = true ∧ meetsCode overText.params 0xF001 1 = true ∧
    meetsCode overText.params 0xF002 1 = false ∧
    memAdmit overText.params 0xF002 1 .write = true ∧
    0xF002 + 1 ≤ 2 ^ overText.params.mode.bits ∧ memAdmit (t2 .m32).params 0x7FFF 1 .read = true ∧
    0x7FFF + 1 ≤ 2 ^ (t2 .m32).params.mode.bits := by decide

/-- The largest value of each width, in the narrowest and the widest MODE each clause has. -/
theorem witness_RegisterViewsAlias :
    ((t2 .m32).params.mode ≠ .m16 ∧ (t2 .m64).params.mode ≠ .m16 ∧ 0xFFFF < 2 ^ 16) ∧
    (t2 .m16).params.mode = .m16 ∧ 0xFFFFFFFF < 2 ^ 32 ∧
    ((t2 .m64).params.mode = .m64 ∧ 0xFFFFFFFFFFFFFFFF < 2 ^ 64) ∧ GprCell.b ≠ GprCell.a := by
  decide

theorem witness_CpuidBasicStoresAnAdmittedAnswer :
    (t2 .m32).available = true ∧ argOf (imm32 0xFFFFFFFF) (t2 .m32) = some (.imm (.imm32 0xFFFFFFFF)) ∧
    argOf (mem 0x7FF0 16) (t2 .m32) = some (.mem 0x7FF0 16) ∧ 16 ≤ 16 ∧
    (Arg.imm (.imm32 0xFFFFFFFF)).isIntegral = true ∧
    (Arg.imm (.imm32 0xFFFFFFFF)).Readable 4 4 (t2 .m32) ∧
    (Arg.imm (.imm32 0xFFFFFFFF)).size = 4 ∧
    (Arg.imm (.imm32 0xFFFFFFFF)).valueIn 4 (t2 .m32) = (0xFFFFFFFF : BitVec 32).toNat ∧
    (cpuidPriv (t2 .m32).params 0xFFFFFFFF = .user ∨ (t2 .m32).priv = .supervisor) ∧
    (Arg.mem 0x7FF0 16).Storable 16 4 (t2 .m32) := by decide

theorem witness_CpuidExtendedStoresAnAdmittedAnswer :
    (t2 .m32).available = true ∧ argOf (mem 0x1000 1) (t2 .m32) = some (.mem 0x1000 1) ∧
    argOf (reg 0x0012) (t2 .m32) = some (.gpr .c 32) ∧
    argOf (mem 0x1000 32) (t2 .m32) = some (.mem 0x1000 32) ∧ 16 ≤ 32 ∧
    (Arg.mem 0x1000 1).isIntegral = true ∧ (Arg.gpr .c 32).isIntegral = true ∧
    (Arg.mem 0x1000 1).size = 1 ∧ (Arg.gpr .c 32).size = 4 ∧
    (Arg.mem 0x1000 1).Readable 1 1 (t2 .m32) ∧
    (Arg.mem 0x1000 1).valueIn 1 (t2 .m32) = (0 : BitVec 32).toNat ∧
    (Arg.gpr .c 32).Readable 4 4 (t2 .m32) ∧
    (Arg.gpr .c 32).valueIn 4 (t2 .m32) = (0 : BitVec 32).toNat ∧
    (cpuidPriv (t2 .m32).params 0 = .user ∨ (t2 .m32).priv = .supervisor) ∧
    (Arg.mem 0x1000 32).Storable 16 4 (t2 .m32) := by decide

/-- A 16-bit and a 32-bit register, and four bytes of memory, as destinations. -/
theorem witness_InStoresTheDevicesAnswer :
    (t2 .m32).available = true ∧ argOf (reg 0x0001) (t2 .m32) = some (.gpr .b 16) ∧
    argOf (reg 0x0010) (t2 .m32) = some (.gpr .a 32) ∧
    argOf (mem 0x1000 4) (t2 .m32) = some (.mem 0x1000 4) ∧
    argOf (imm16 0xFFFF) (t2 .m32) = some (.imm (.imm16 0xFFFF)) ∧
    (∀ dst ∈ [Arg.gpr .b 16, Arg.gpr .a 32, Arg.mem 0x1000 4],
      isDatum dst = true ∧ dst.isWritable = true ∧
      ioPermitted (t2 .m32).params (t2 .m32).priv 0xFFFF dst.size = true) ∧
    ((Arg.gpr .b 16).Storable 2 2 (t2 .m32) ∧ (Arg.gpr .b 16).size = 2) ∧
    ((Arg.gpr .a 32).Storable 4 4 (t2 .m32) ∧ (Arg.gpr .a 32).size = 4) ∧
    ((Arg.mem 0x1000 4).Storable 4 4 (t2 .m32) ∧ (Arg.mem 0x1000 4).size = 4) ∧
    isPort (.imm (.imm16 0xFFFF)) = true ∧ (Arg.imm (.imm16 0xFFFF)).Readable 2 2 (t2 .m32) ∧
    (Arg.imm (.imm16 0xFFFF)).size = 2 ∧
    (Arg.imm (.imm16 0xFFFF)).valueIn 2 (t2 .m32) = (0xFFFF : BitVec 16).toNat ∧
    (t2 .m32).params.mode ≠ .m16 ∧ GprCell.b ∉ [GprCell.a, GprCell.d] := by decide

theorem witness_OutSendsTheValue :
    (t2 .m32).available = true ∧ argOf (imm8 0x80) (t2 .m32) = some (.imm (.imm8 0x80)) ∧
    argOf (mem 0x7FFC 4) (t2 .m32) = some (.mem 0x7FFC 4) ∧
    isPort (.imm (.imm8 0x80)) = true ∧ isDatum (.mem 0x7FFC 4) = true ∧
    (Arg.imm (.imm8 0x80)).Readable 1 1 (t2 .m32) ∧ (Arg.imm (.imm8 0x80)).size = 1 ∧
    (Arg.imm (.imm8 0x80)).valueIn 1 (t2 .m32) = (0x80 : BitVec 16).toNat ∧
    (Arg.mem 0x7FFC 4).size = 4 ∧ (Arg.mem 0x7FFC 4).Readable 4 4 (t2 .m32) ∧
    ioPermitted (t2 .m32).params (t2 .m32).priv 0x80 4 = true := by decide

/-- For CLI, STI, INVD and WBINVD: available, at supervisor and at user level. -/
theorem witness_CliClearsTheInterruptFlag :
    (t2 .m32).available = true ∧ (t2 .m32).priv = .supervisor ∧
    (atUser (t2 .m32)).available = true ∧ (atUser (t2 .m32)).priv = .user ∧
    ∃ t, exec .cli (t2 .m32) = .next t := ⟨rfl, rfl, rfl, rfl, _, rfl⟩

theorem witness_StiSetsTheInterruptFlag :
    (t2 .m64).available = true ∧ (t2 .m64).priv = .supervisor ∧
    (atUser (t2 .m64)).available = true ∧ (atUser (t2 .m64)).priv = .user ∧
    ∃ t, exec .sti (t2 .m64) = .next t := ⟨rfl, rfl, rfl, rfl, _, rfl⟩

theorem witness_InvdDropsModifiedBytes :
    modified.available = true ∧ modified.priv = .supervisor ∧
    (atUser modified).available = true ∧ (atUser modified).priv = .user := by decide

theorem witness_WbinvdWritesBackAndInvalidates :
    modified.available = true ∧ modified.priv = .supervisor ∧
    (atUser modified).available = true ∧ (atUser modified).priv = .user := by decide

/-- Both operand sizes, the first and the last admitted bytes, at an odd address. -/
theorem witness_LgdtLoadsLimitAndBase :
    ((t2 .m32).available = true ∧ (t2 .m32).priv = .supervisor ∧
      (4 = if (t2 .m32).params.mode = .m64 then 8 else 4) ∧
      argOf (mem 0x1001 6) (t2 .m32) = some (.mem 0x1001 (2 + 4)) ∧
      (Arg.mem 0x1001 (2 + 4)).Readable (2 + 4) 1 (t2 .m32)) ∧
    ((t2 .m64).available = true ∧ (t2 .m64).priv = .supervisor ∧
      (8 = if (t2 .m64).params.mode = .m64 then 8 else 4) ∧
      argOf (mem 0x7FF6 10) (t2 .m64) = some (.mem 0x7FF6 (2 + 8)) ∧
      (Arg.mem 0x7FF6 (2 + 8)).Readable (2 + 8) 1 (t2 .m64)) := by decide

theorem witness_LidtLoadsLimitAndBase :
    (t2 .m16).available = true ∧ (t2 .m16).priv = .supervisor ∧
    (4 = if (t2 .m16).params.mode = .m64 then 8 else 4) ∧
    argOf (mem 0x7FFA 6) (t2 .m16) = some (.mem 0x7FFA (2 + 4)) ∧
    (Arg.mem 0x7FFA (2 + 4)).Readable (2 + 4) 1 (t2 .m16) := by decide

/-- Where nothing is known of the selectors. -/
def unknownSelectors (s : State) : State := { s with params := { s.params with selectorRules := [] } }

/-- Nothing is known of selectors or counters, and the next draw gives this verdict. -/
def unknownVerdict (b : Bool) : State :=
  { t2 .m64 with params := { (t2 .m64).params with
      selectorRules := [], pmcRules := [], draws := [if b = true then 1 else 2] } }

/-- Accepted, rejected and unknown, from memory and from a constant. -/
theorem witness_LldtLoadsTheSelector :
    (∀ s ∈ [t2 .m32, rejecting (t2 .m32), unknownSelectors (t2 .m32)],
      s.available = true ∧ s.priv = .supervisor ∧
      argOf (imm16 0xFFFF) s = some (.imm (.imm16 0xFFFF)) ∧
      (Arg.imm (.imm16 0xFFFF)).Readable 2 2 s ∧
      (Arg.imm (.imm16 0xFFFF)).valueIn 2 s = (0xFFFF : BitVec 16).toNat) ∧
    (Arg.imm (.imm16 0xFFFF)).isIntegral = true ∧ (Arg.imm (.imm16 0xFFFF)).width = 16 ∧
    argOf (mem 0x7FFE 2) (t2 .m32) = some (.mem 0x7FFE 2) ∧
    (Arg.mem 0x7FFE 2).Readable 2 2 (t2 .m32) ∧
    selectorVerdict .lldt 0xFFFF (t2 .m32) = some true ∧
    selectorVerdict .lldt 0xFFFF (rejecting (t2 .m32)) = some false ∧
    selectorVerdict .lldt 0xFFFF (unknownSelectors (t2 .m32)) = none ∧
    (∀ b : Bool, (unknownVerdict b).drawnVerdict = b ∧ (unknownVerdict b).available = true ∧
      (unknownVerdict b).priv = .supervisor ∧
      argOf (imm16 0xFFFF) (unknownVerdict b) = some (.imm (.imm16 0xFFFF)) ∧
      selectorVerdict .lldt 0xFFFF (unknownVerdict b) = none) := by decide

theorem witness_LtrLoadsTheSelector :
    (∀ s ∈ [t2 .m64, rejecting (t2 .m64), unknownSelectors (t2 .m64)],
      s.available = true ∧ s.priv = .supervisor ∧ argOf (reg 0x0007) s = some (.gpr .sp 16) ∧
      (Arg.gpr .sp 16).Readable 2 2 s ∧ (Arg.gpr .sp 16).valueIn 2 s = (0 : BitVec 16).toNat) ∧
    (Arg.gpr .sp 16).isIntegral = true ∧ (Arg.gpr .sp 16).width = 16 ∧
    selectorVerdict .ltr 0 (t2 .m64) = some true ∧
    selectorVerdict .ltr 0 (rejecting (t2 .m64)) = some false ∧
    selectorVerdict .ltr 0 (unknownSelectors (t2 .m64)) = none ∧
    (∀ b : Bool, (unknownVerdict b).drawnVerdict = b ∧ (unknownVerdict b).available = true ∧
      (unknownVerdict b).priv = .supervisor ∧
      argOf (reg 0x0007) (unknownVerdict b) = some (.gpr .sp 16) ∧
      selectorVerdict .ltr 0 (unknownVerdict b) = none) := by decide

theorem witness_InvlpgRemovesTheEntry :
    (t2 .m32).available = true ∧ (t2 .m32).priv = .supervisor ∧
    argOf (mem 0xFFFFFFFF 255) (t2 .m32) = some (.mem 0xFFFFFFFF 255) := by decide

/-- A plain and an opaque register, into a register and into memory. -/
theorem witness_RdmsrStoresTheRegister :
    (∀ s ∈ [plainMsrs (t2 .m64), t2 .m64],
      s.available = true ∧ s.priv = .supervisor ∧
      argOf (imm16 0x1B) s = some (.imm (.imm16 0x1B)) ∧
      argOf (reg 0x002F) s = some (.gpr .r15 64) ∧ argOf (mem 0x7FF8 8) s = some (.mem 0x7FF8 8) ∧
      (Arg.imm (.imm16 0x1B)).Readable 2 2 s ∧
      (Arg.imm (.imm16 0x1B)).valueIn 2 s = (0x1B : BitVec 32).toNat ∧
      (Arg.gpr .r15 64).Storable 8 8 s ∧ (Arg.mem 0x7FF8 8).Storable 8 8 s ∧
      msrClass s.params 0x1B ≠ .absent) ∧
    (Arg.imm (.imm16 0x1B)).isIntegral = true ∧ (Arg.imm (.imm16 0x1B)).size = 2 ∧
    (Arg.gpr .r15 64).isWritable = true ∧ (Arg.gpr .r15 64).canStore 8 = true ∧
    (Arg.mem 0x7FF8 8).isWritable = true ∧ (Arg.mem 0x7FF8 8).canStore 8 = true ∧
    msrClass (plainMsrs (t2 .m64)).params 0x1B = .plain [⟨0, 0xFFFFFFFFFFFFFFFF⟩] := by decide

/-- The largest legal value. -/
theorem witness_WrmsrWritesThePlainRegister :
    (plainMsrs (t2 .m32)).available = true ∧ (plainMsrs (t2 .m32)).priv = .supervisor ∧
    argOf (imm32 0xC0000100) (plainMsrs (t2 .m32)) = some (.imm (.imm32 0xC0000100)) ∧
    argOf (imm64 0x00007FFFFFFFFFFF) (plainMsrs (t2 .m32)) =
      some (.imm (.imm64 0x00007FFFFFFFFFFF)) ∧
    (Arg.imm (.imm32 0xC0000100)).isIntegral = true ∧
    (Arg.imm (.imm64 0x00007FFFFFFFFFFF)).canLoad 8 = true ∧
    (Arg.imm (.imm32 0xC0000100)).size = 4 ∧
    (Arg.imm (.imm32 0xC0000100)).Readable 4 4 (plainMsrs (t2 .m32)) ∧
    (Arg.imm (.imm32 0xC0000100)).valueIn 4 (plainMsrs (t2 .m32)) =
      (0xC0000100 : BitVec 32).toNat ∧
    (Arg.imm (.imm64 0x00007FFFFFFFFFFF)).Readable 8 8 (plainMsrs (t2 .m32)) ∧
    (Arg.imm (.imm64 0x00007FFFFFFFFFFF)).valueIn 8 (plainMsrs (t2 .m32)) =
      (0x00007FFFFFFFFFFF : BitVec 64).toNat ∧
    msrClass (plainMsrs (t2 .m32)).params 0xC0000100 = .plain [⟨0, 0x00007FFFFFFFFFFF⟩] ∧
    msrLegal [⟨0, 0x00007FFFFFFFFFFF⟩] 0x00007FFFFFFFFFFF = true := by decide

/-- A platform on which counter 0 exists, 9 does not, and of others nothing is known. -/
def counters (s : State) : State :=
  { s with params := { s.params with pmcRules := [⟨some 0, true⟩, ⟨some 9, false⟩] } }

/-- User code with PCE set; the three verdicts. -/
def pceUser : State := { counters (atUser (t2 .m64)) with cr4 := 0x100 }

theorem witness_RdpmcStoresAnyValue :
    pceUser.available = true ∧ (pceUser.cr4.getLsbD 8 = true ∨ pceUser.priv = .supervisor) ∧
    (∀ v ∈ [(0 : BitVec 8), 9, 10],
      argOf (imm8 v) pceUser = some (.imm (.imm8 v)) ∧ (Arg.imm (.imm8 v)).isIntegral = true ∧
      (Arg.imm (.imm8 v)).size = 1 ∧ (Arg.imm (.imm8 v)).Readable 1 1 pceUser ∧
      (Arg.imm (.imm8 v)).valueIn 1 pceUser = (v.setWidth 32).toNat) ∧
    argOf (reg 0x0020) pceUser = some (.gpr .a 64) ∧ (Arg.gpr .a 64).isWritable = true ∧
    (Arg.gpr .a 64).canStore 8 = true ∧ (Arg.gpr .a 64).Storable 8 8 pceUser ∧
    pmcVerdict pceUser.params 0 = some true ∧ pmcVerdict pceUser.params 9 = some false ∧
    pmcVerdict pceUser.params 10 = none ∧
    (∀ b : Bool, (unknownVerdict b).drawnVerdict = b ∧ (unknownVerdict b).available = true ∧
      (unknownVerdict b).priv = .supervisor ∧
      argOf (imm8 0) (unknownVerdict b) = some (.imm (.imm8 0)) ∧
      argOf (reg 0x0020) (unknownVerdict b) = some (.gpr .a 64) ∧
      pmcVerdict (unknownVerdict b).params 0 = none) := by decide

/-- With TSD set at supervisor, with TSD clear at user level; monotonic and not. -/
theorem witness_RdtscStoresTheTimeStamp :
    (∀ s ∈ [{ t2 .m64 with cr4 := 0x4 }, atUser (t2 .m64), monotonic],
      s.available = true ∧ (s.cr4.getLsbD 2 = false ∨ s.priv = .supervisor) ∧
      argOf (mem 0x7FF8 8) s = some (.mem 0x7FF8 8) ∧ (Arg.mem 0x7FF8 8).Storable 8 8 s) ∧
    (Arg.mem 0x7FF8 8).isWritable = true ∧ (Arg.mem 0x7FF8 8).canStore 8 = true ∧
    monotonic.params.tscMonotonic = true ∧ (t2 .m64).params.tscMonotonic = false := by decide

/-- An operand of a shape that is none of the three. -/
def shapeless : EncodedOperand := ⟨[], .foreign 0⟩

theorem witness_EveryOperandIsResolvedAndAdmitted :
    (t2 .m32).available = true ∧ (Instr.rdtsc shapeless).operands = [] ++ shapeless :: [] ∧
    (Instr.cpuidExt (imm8 0) (imm8 0) shapeless).operands = [imm8 0, imm8 0] ++ shapeless :: [] ∧
    (∀ x ∈ [imm8 0, imm8 0], (argOf x (t2 .m32)).isSome = true) ∧
    resolve shapeless.syn (t2 .m32) = none ∧
    resolve (reg 0x000E).syn (t2 .m32) = some (.reg 0x000E) ∧ regView .m32 0x000E = none ∧
    regView .m32 0x0020 = none ∧ regView .m64 0x0031 = none ∧
    resolve (reg 0x0008).syn (t2 .m32) = some (.reg 0x0008) ∧ regView .m32 0x0008 = some .seg ∧
    regView .m32 0x000D = some .seg ∧ resolve (reg 0x0018).syn (t2 .m32) = some (.reg 0x0018) ∧
    regView .m32 0x0018 = some .cr ∧ regView .m32 0x001B = some .cr ∧
    regView .m64 0x0030 = some .cr := by decide

/-- An operand of each failing kind, beside ones that pass. -/
theorem witness_StaticChecksOfCpuidInAndOut :
    (t2 .m64).available = true ∧ argOf (mem 0x1000 3) (t2 .m64) = some (.mem 0x1000 3) ∧
    argOf (reg 0x0020) (t2 .m64) = some (.gpr .a 64) ∧
    argOf (imm32 0) (t2 .m64) = some (.imm (.imm32 0)) ∧
    argOf (mem 0x1000 15) (t2 .m64) = some (.mem 0x1000 15) ∧
    argOf (reg 0x0010) (t2 .m64) = some (.gpr .a 32) ∧
    argOf (imm8 0) (t2 .m64) = some (.imm (.imm8 0)) ∧
    (Arg.mem 0x1000 3).isIntegral = false ∧ (Arg.imm (.imm32 0)).isIntegral = true ∧
    ((Arg.mem 0x1000 15).isWritable && (Arg.mem 0x1000 15).canStore 16) = false ∧
    ((Arg.gpr .a 64).isWritable && (Arg.gpr .a 64).canStore 16) = false ∧
    (Arg.imm (.imm32 0)).isWritable = false ∧
    (Arg.gpr .a 64).width ∉ [8, 16, 32] ∧
    ((Arg.gpr .a 32).isIntegral = true ∧ (Arg.gpr .a 32).isWritable = true ∧
      (Arg.gpr .a 32).width ∈ [8, 16, 32]) ∧
    (Arg.imm (.imm32 0)).width ∉ [8, 16] ∧
    ((Arg.imm (.imm8 0)).isIntegral = true ∧ (Arg.imm (.imm8 0)).width ∈ [8, 16]) := by decide

theorem witness_StaticChecksOfTheSystemOperations :
    (t2 .m64).available = true ∧ (t2 .m32).available = true ∧
    argOf (mem 0x1000 10) (t2 .m32) = some (.mem 0x1000 10) ∧
    ((∀ a, Arg.mem 0x1000 10 ≠ .mem a 6) ∧ (t2 .m32).params.mode ≠ .m64) ∧
    argOf (mem 0x1000 6) (t2 .m64) = some (.mem 0x1000 6) ∧
    ((∀ a, Arg.mem 0x1000 6 ≠ .mem a 10) ∧ (t2 .m64).params.mode = .m64) ∧
    argOf (imm8 0) (t2 .m32) = some (.imm (.imm8 0)) ∧ (Arg.imm (.imm8 0)).width ≠ 16 ∧
    (Arg.imm (.imm8 0)).isMemory = false ∧ argOf (mem 0x1000 3) (t2 .m32) = some (.mem 0x1000 3) ∧
    (Arg.mem 0x1000 3).isIntegral = false ∧ (Arg.imm (.imm8 0)).isIntegral = true ∧
    argOf (mem 0x1000 7) (t2 .m32) = some (.mem 0x1000 7) ∧
    ((Arg.mem 0x1000 7).isWritable && (Arg.mem 0x1000 7).canStore 8) = false ∧
    (Arg.mem 0x1000 7).canLoad 8 = false ∧
    argOf (imm64 0) (t2 .m32) = some (.imm (.imm64 0)) ∧
    ((Arg.imm (.imm64 0)).isWritable && (Arg.imm (.imm64 0)).canStore 8) = false :=
  ⟨rfl, rfl, rfl, ⟨by simp, by decide⟩, rfl, ⟨by simp, rfl⟩, by decide⟩

/-- User code, CR4.PCE clear and CR4.TSD set. -/
def lockedUser : State := { atUser (t2 .m32) with cr4 := 0x4 }

theorem witness_UserLevelRaisesPrivilege :
    lockedUser.available = true ∧ lockedUser.priv = .user ∧
    argOf (mem 0x1000 6) lockedUser = some (.mem 0x1000 6) ∧
    ((Arg.mem 0x1000 6).isMemory = true ∧ (Arg.mem 0x1000 6).size = pdBytes lockedUser.params.mode) ∧
    argOf (imm16 0) lockedUser = some (.imm (.imm16 0)) ∧
    ((Arg.imm (.imm16 0)).isIntegral = true ∧ (Arg.imm (.imm16 0)).width = 16) ∧
    argOf (mem 0x1000 8) lockedUser = some (.mem 0x1000 8) ∧
    ((Arg.mem 0x1000 8).isMemory = true ∧ (Arg.mem 0x1000 8).isWritable = true ∧
      (Arg.mem 0x1000 8).canStore 8 = true ∧ (Arg.mem 0x1000 8).canLoad 8 = true) ∧
    lockedUser.cr4.getLsbD 8 = false ∧ lockedUser.cr4.getLsbD 2 = true := by decide

/-- User code on a platform that keeps function 0 to supervisor. -/
def strictUser : State :=
  { atUser (t2 .m32) with params := { (t2 .m32).params with cpuidSupervisor := [0] } }

theorem witness_ValueDependentPrivilegeIsChecked :
    strictUser.available = true ∧ strictUser.priv = .user ∧
    argOf (imm8 0) strictUser = some (.imm (.imm8 0)) ∧
    argOf (mem 0x2000 16) strictUser = some (.mem 0x2000 16) ∧
    argOf (mem 0x2000 1) strictUser = some (.mem 0x2000 1) ∧
    ((Arg.imm (.imm8 0)).isIntegral = true ∧ (Arg.imm (.imm8 0)).size = 1 ∧
      (Arg.imm (.imm8 0)).Readable 1 1 strictUser ∧
      (Arg.imm (.imm8 0)).valueIn 1 strictUser = (0 : BitVec 32).toNat ∧
      (Arg.imm (.imm8 0)).valueIn 1 strictUser = (0 : BitVec 16).toNat) ∧
    ((Arg.mem 0x2000 16).isWritable = true ∧ (Arg.mem 0x2000 16).canStore 16 = true) ∧
    cpuidPriv strictUser.params 0 = .supervisor ∧
    (isPort (.imm (.imm8 0)) = true ∧ isDatum (.mem 0x2000 1) = true ∧
      (Arg.mem 0x2000 1).isWritable = true ∧ (Arg.mem 0x2000 1).size = 1 ∧
      (Arg.mem 0x2000 1).Readable 1 1 strictUser) ∧
    ioPermitted strictUser.params strictUser.priv 0 1 = false := by decide

/-- The smallest value that is too wide and the largest that is not; supervisor, and user with PCE. -/
theorem witness_WideValueForANarrowRegisterFaults :
    (∀ s ∈ [t2 .m64, pceUser],
      s.available = true ∧ (s.cr4.getLsbD 8 = true ∨ s.priv = .supervisor) ∧
      argOf (imm64 0x100000000) s = some (.imm (.imm64 0x100000000)) ∧
      argOf (imm32 0xFFFFFFFF) s = some (.imm (.imm32 0xFFFFFFFF)) ∧
      argOf (mem 0x2000 16) s = some (.mem 0x2000 16) ∧
      (Arg.imm (.imm64 0x100000000)).Readable 8 8 s ∧
      2 ^ 32 ≤ (Arg.imm (.imm64 0x100000000)).valueIn 8 s ∧
      (Arg.imm (.imm32 0xFFFFFFFF)).Readable 4 4 s ∧
      (Arg.imm (.imm32 0xFFFFFFFF)).valueIn 4 s < 2 ^ 32) ∧
    (t2 .m64).priv = .supervisor ∧
    (Arg.imm (.imm64 0x100000000)).isIntegral = true ∧
    (Arg.imm (.imm64 0x100000000)).size = 8 ∧
    (Arg.imm (.imm32 0xFFFFFFFF)).isIntegral = true ∧ (Arg.imm (.imm32 0xFFFFFFFF)).size = 4 ∧
    (Arg.mem 0x2000 16).isWritable = true ∧ (Arg.mem 0x2000 16).canStore 16 = true ∧
    (Arg.mem 0x2000 16).canStore 8 = true ∧ (Arg.mem 0x2000 16).canLoad 8 = true := by decide

/-- One absent and one plain register, the others opaque. -/
def threeClasses : State :=
  { t2 .m32 with params := { (t2 .m32).params with
      msrRules := [⟨1, .absent⟩, ⟨2, .plain [⟨5, 6⟩]⟩] } }

theorem witness_MsrAccessStops :
    threeClasses.available = true ∧ threeClasses.priv = .supervisor ∧
    (∀ v ∈ [(1 : BitVec 8), 2, 3],
      argOf (imm8 v) threeClasses = some (.imm (.imm8 v)) ∧
      (Arg.imm (.imm8 v)).isIntegral = true ∧ (Arg.imm (.imm8 v)).size = 1 ∧
      (Arg.imm (.imm8 v)).Readable 1 1 threeClasses ∧
      (Arg.imm (.imm8 v)).valueIn 1 threeClasses = (v.setWidth 32).toNat) ∧
    argOf (mem 0x2000 8) threeClasses = some (.mem 0x2000 8) ∧
    ((Arg.mem 0x2000 8).isWritable = true ∧ (Arg.mem 0x2000 8).canStore 8 = true ∧
      (Arg.mem 0x2000 8).canLoad 8 = true ∧ (Arg.mem 0x2000 8).Readable 8 8 threeClasses ∧
      (Arg.mem 0x2000 8).valueIn 8 threeClasses = (0 : BitVec 64).toNat) ∧
    msrClass threeClasses.params 1 = .absent ∧
    (msrClass threeClasses.params 2 = .plain [⟨5, 6⟩] ∧ msrLegal [⟨5, 6⟩] 0 = false ∧
      msrLegal [⟨5, 6⟩] 4 = false ∧ msrLegal [⟨5, 6⟩] 5 = true ∧ msrLegal [⟨5, 6⟩] 7 = false) ∧
    msrClass threeClasses.params 3 = .opaqueReg := by decide

/-- An odd word is misaligned, and the word behind the admitted range is not admitted, at either level. -/
theorem stops_of_words (s : State) (hs : s ∈ [t2 .m32, atUser (t2 .m32), pceUser]) :
    (Arg.mem 0x1001 2).ReadStop 2 2 s (.refused .misaligned) ∧
    (Arg.mem 0x8000 2).ReadStop 2 2 s (.fault (.memory 0x8000)) := by
  fin_cases hs <;> exact ⟨.inl ⟨by decide, rfl⟩, .inr ⟨by decide, by decide, rfl⟩⟩

/-- Each source on each kind of operand that can stop it, and the other operands beside it. -/
theorem witness_SourceIsCheckedBeforeItIsUsed :
    (∀ s ∈ [t2 .m32, atUser (t2 .m32), pceUser],
      s.available = true ∧ argOf (mem 0x1001 2) s = some (.mem 0x1001 2) ∧
      argOf (mem 0x8000 2) s = some (.mem 0x8000 2) ∧
      argOf (mem 0x2000 16) s = some (.mem 0x2000 16) ∧
      argOf (mem 0x2004 8) s = some (.mem 0x2004 8) ∧
      argOf (imm8 0) s = some (.imm (.imm8 0)) ∧ (Arg.imm (.imm8 0)).Readable 1 1 s ∧
      (Arg.imm (.imm8 0)).valueIn 1 s < 2 ^ 32) ∧
    (Arg.mem 0x2004 8).ReadStop 8 8 (t2 .m32) (.refused .misaligned) ∧
    ((t2 .m32).priv = .supervisor ∧ pceUser.cr4.getLsbD 8 = true ∧
      (Arg.mem 0x1001 2).size = 2 ∧ (Arg.mem 0x8000 2).size = 2 ∧
      (Arg.mem 0x1001 2).isIntegral = true ∧ (Arg.mem 0x1001 2).width = 16 ∧
      isPort (.mem 0x1001 2) = true ∧ isDatum (.mem 0x1001 2) = true ∧
      (Arg.imm (.imm8 0)).isIntegral = true ∧ (Arg.imm (.imm8 0)).size = 1 ∧
      isPort (.imm (.imm8 0)) = true ∧ isDatum (.imm (.imm8 0)) = true ∧
      (isDatum (.mem 0x8000 2) = true ∧ (Arg.mem 0x8000 2).isWritable = true) ∧
      (Arg.mem 0x2004 8).canLoad 8 = true ∧ (Arg.mem 0x2000 16).isWritable = true ∧
      (Arg.mem 0x2000 16).canStore 16 = true ∧ (Arg.mem 0x2000 16).canStore 8 = true ∧
      (Arg.mem 0x2000 16).canLoad 8 = true) :=
  ⟨by decide, .inl ⟨by decide, rfl⟩, by decide⟩

/-- A platform that admits writes over a text of four bytes. -/
def overWideText : State :=
  { t2 .m32 with params := { (t2 .m32).params with
      code := List.replicate 4 0xC3, memAdmit := [⟨.write, 0xF000, 0x10000, none⟩] } }

/-- Each destination size on each of the three stops; the sources are constants. -/
theorem witness_DestinationIsCheckedBeforeTheStore :
    ((Arg.mem 0x2004 8).WriteStop 8 8 (t2 .m32) (.refused .misaligned) ∧
      (Arg.mem 0x8000 8).WriteStop 8 8 (t2 .m32) (.fault (.memory 0x8000)) ∧
      (Arg.mem 0xF000 8).WriteStop 8 8 overWideText (.refused .codeWrite)) ∧
    ((Arg.mem 0x2002 16).WriteStop 16 4 (t2 .m32) (.refused .misaligned) ∧
      (Arg.mem 0x7FF4 16).WriteStop 16 4 (t2 .m32) (.fault (.memory 0x7FF4)) ∧
      (Arg.mem 0xF000 16).WriteStop 16 4 overWideText (.refused .codeWrite)) ∧
    ((Arg.mem 0x1001 2).WriteStop 2 2 (t2 .m32) (.refused .misaligned) ∧
      (Arg.mem 0x8000 2).WriteStop 2 2 (t2 .m32) (.fault (.memory 0x8000)) ∧
      (Arg.mem 0xF002 2).WriteStop 2 2 overWideText (.refused .codeWrite)) ∧
    (∀ s ∈ [t2 .m32, overWideText],
      s.available = true ∧ s.priv = .supervisor ∧ s.cr4.getLsbD 2 = false ∧
      (∀ e ∈ [mem 0x2004 8, mem 0x8000 8, mem 0xF000 8, mem 0x2002 16, mem 0x7FF4 16, mem 0xF000 16,
          mem 0x1001 2, mem 0x8000 2, mem 0xF002 2], (argOf e s).isSome = true) ∧
      argOf (mem 0xF000 16) s = some (.mem 0xF000 16) ∧
      argOf (imm8 0) s = some (.imm (.imm8 0)) ∧ (Arg.imm (.imm8 0)).Readable 1 1 s ∧
      (Arg.imm (.imm8 0)).valueIn 1 s = (0 : BitVec 32).toNat ∧
      (Arg.imm (.imm8 0)).valueIn 1 s = (0 : BitVec 16).toNat ∧
      ioPermitted s.params s.priv 0 2 = true ∧ cpuidPriv s.params 0 = .user ∧
      msrClass s.params 0 ≠ .absent ∧ pmcVerdict s.params 0 = some true) ∧
    ((Arg.imm (.imm8 0)).isIntegral = true ∧ (Arg.imm (.imm8 0)).size = 1 ∧
      isPort (.imm (.imm8 0)) = true ∧ isDatum (.mem 0x1001 2) = true ∧
      (Arg.mem 0x1001 2).size = 2 ∧ (Arg.mem 0x2004 8).canStore 8 = true ∧
      (Arg.mem 0x2002 16).canStore 16 = true) :=
  ⟨⟨.inl ⟨by decide, rfl⟩, .inr (.inl ⟨by decide, by decide, rfl⟩),
      .inr (.inr ⟨by decide, by decide, by decide, by decide, rfl⟩)⟩,
    ⟨.inl ⟨by decide, rfl⟩, .inr (.inl ⟨by decide, by decide, rfl⟩),
      .inr (.inr ⟨by decide, by decide, by decide, by decide, rfl⟩)⟩,
    ⟨.inl ⟨by decide, rfl⟩, .inr (.inl ⟨by decide, by decide, rfl⟩),
      .inr (.inr ⟨by decide, by decide, by decide, by decide, rfl⟩)⟩, by decide, by decide⟩

/-- One byte past the admitted range, and past the top of the address space. -/
theorem witness_TableOperandIsReadAtAnyAlignment :
    ((t2 .m32).available = true ∧ (t2 .m32).priv = .supervisor ∧
      (6 = if (t2 .m32).params.mode = .m64 then 10 else 6) ∧
      argOf (mem 0x7FFB 6) (t2 .m32) = some (.mem 0x7FFB 6) ∧
      memAdmit (t2 .m32).params 0x7FFB 6 .read = false) ∧
    (argOf (mem 0xFFFB 6) (t2 .m16) = some (.mem 0xFFFB 6) ∧
      2 ^ (t2 .m16).params.mode.bits < 0xFFFB + 6) ∧
    ((t2 .m64).available = true ∧ (10 = if (t2 .m64).params.mode = .m64 then 10 else 6) ∧
      argOf (mem 0x7FF7 10) (t2 .m64) = some (.mem 0x7FF7 10) ∧
      memAdmit (t2 .m64).params 0x7FF7 10 .read = false) := by decide

/-- CPUID 7 has one of two answers. -/
def twoAnswers : State :=
  { t2 .m32 with params := { (t2 .m32).params with
      cpuidRows := [⟨7, none, ⟨1, 2, 3, 4⟩, [⟨5, 6, 7, 8⟩]⟩] } }

/-- A set of two answers, and the full set. -/
theorem witness_EveryAdmittedCpuidAnswerCanBeStored :
    (∀ s ∈ [t2 .m32, twoAnswers],
      s.available = true ∧ (Arg.imm (.imm8 7)).Readable 1 1 s ∧
      (Arg.imm (.imm8 7)).valueIn 1 s = (7 : BitVec 32).toNat ∧
      (cpuidPriv s.params 7 = .user ∨ s.priv = .supervisor) ∧ (Arg.mem 0x2000 16).Storable 16 4 s) ∧
    (∀ ds, argOf (imm8 7) (twoAnswers.withDraws ds) = some (.imm (.imm8 7)) ∧
      argOf (mem 0x2000 16) (twoAnswers.withDraws ds) = some (.mem 0x2000 16) ∧
      argOf (imm8 7) ((t2 .m32).withDraws ds) = some (.imm (.imm8 7)) ∧
      argOf (mem 0x2000 16) ((t2 .m32).withDraws ds) = some (.mem 0x2000 16)) ∧
    (Arg.imm (.imm8 7)).isIntegral = true ∧ (Arg.imm (.imm8 7)).size = 1 ∧
    CpuidAdmits twoAnswers.params 7 7 ⟨5, 6, 7, 8⟩ ∧ CpuidAdmits (t2 .m32).params 7 7 ⟨5, 6, 7, 8⟩ :=
  ⟨by decide, fun _ => ⟨rfl, rfl, rfl, rfl⟩, rfl, rfl, .inr (by decide), trivial⟩

end Sys2Proof.Tests
end

section
/-! Draws a launch fixes (R6, R8, log 7): the draws made so far, then any values wanted next. -/
namespace Sys2Proof.Machine

/-- The draws of a launch that repeats the run's draws so far and then gives the values `vs`. -/
def drawsThen (s : State) (vs : List (BitVec 64)) : List (BitVec 64) :=
  (List.range s.drawn).map (drawnValue s.params) ++ vs

/-- A fixed draw is the value drawn. -/
theorem drawnValue_of_getElem? {p : Params} {k : Nat} {v : BitVec 64} (h : p.draws[k]? = some v) :
    drawnValue p k = v := by
  simp [drawnValue, h]

theorem drawnValue_drawsThen_of_lt {s : State} {k : Nat} (vs : List (BitVec 64)) (hk : k < s.drawn) :
    drawnValue (s.withDraws (drawsThen s vs)).params k = drawnValue s.params k :=
  drawnValue_of_getElem? (by simp [State.withDraws, drawsThen, List.getElem?_append, hk])

theorem drawnValue_drawsThen_add {s : State} {vs : List (BitVec 64)} {j : Nat} {v : BitVec 64}
    (hv : vs[j]? = some v) :
    drawnValue (s.withDraws (drawsThen s vs)).params (s.drawn + j) = v :=
  drawnValue_of_getElem? (by simp [State.withDraws, drawsThen, List.getElem?_append, hv])

/-- The next draw is the first of the values wanted. -/
theorem draw_drawsThen_val (s : State) (v : BitVec 64) (vs : List (BitVec 64)) :
    (draw (s.withDraws (drawsThen s (v :: vs)))).val = v :=
  drawnValue_drawsThen_add (j := 0) rfl

/-- A drawn verdict is the low bit of the draw, so the draw that spells `b` gives the verdict `b`. -/
theorem drawnVerdict_drawsThen_ofBool (s : State) (b : Bool) :
    (s.withDraws (drawsThen s [(BitVec.ofBool b).setWidth 64])).drawnVerdict = b := by
  simp [State.drawnVerdict, draw_drawsThen_val]

/-- Settles O55: the launch fixes the run's earlier draws as they were, and then the value wanted. -/
theorem anyValueCanBeDrawn : Obligations.AnyValueCanBeDrawn := fun s v =>
  ⟨drawsThen s [v], draw_drawsThen_val s v [],
    fun _ hk => drawnValue_drawsThen_of_lt [v] hk,
    fun b => ⟨_, drawnVerdict_drawsThen_ofBool s b⟩⟩

end Sys2Proof.Machine
end

section
/-! What every operation that completes does, in four parts: it reads, records and draws; it changes the
one register or file that is its own; it draws the working cells and stores its result; it advances
`pc`. The invariants of the machine are proved part by part (R16, R20 to R25, R28, R31, R54). -/
namespace Sys2Proof.Machine

/-! ## The parts -/

/-- Events are recorded and values drawn; nothing else changes. -/
def Observed (s t : State) : Prop :=
  ∃ events n, t = { s with history := s.history ++ events, drawn := n }

/-- What an operation changes beside `history`, the draws and its destination, with the privilege
that the change needs. -/
inductive Change : Instr → State → State → Prop
  | cpuid {f r : EncodedOperand} {s : State} : Change (.cpuid f r) s s
  | cpuidExt {f u r : EncodedOperand} {s : State} : Change (.cpuidExt f u r) s s
  | portIn {d p : EncodedOperand} {s : State} : Change (.portIn d p) s s
  | portOut {p v : EncodedOperand} {s : State} : Change (.portOut p v) s s
  | cli {s : State} (hp : s.priv = .supervisor) : Change .cli s (s.setIf false)
  | sti {s : State} (hp : s.priv = .supervisor) : Change .sti s (s.setIf true)
  | invd {s : State} (hp : s.priv = .supervisor) : Change .invd s s.invalidateCache
  | wbinvd {s : State} (hp : s.priv = .supervisor) : Change .wbinvd s s.flushCache
  | lgdt {e : EncodedOperand} {s : State} (hp : s.priv = .supervisor) (v : Nat) :
      Change (.lgdt e) s { s with gdtr := tableRegOf s.params.mode v }
  | lidt {e : EncodedOperand} {s : State} (hp : s.priv = .supervisor) (v : Nat) :
      Change (.lidt e) s { s with idtr := tableRegOf s.params.mode v }
  | lldt {e : EncodedOperand} {s : State} (hp : s.priv = .supervisor) (r : SelectorReg) :
      Change (.lldt e) s { s with ldtr := r }
  | ltr {e : EncodedOperand} {s : State} (hp : s.priv = .supervisor) (r : SelectorReg) :
      Change (.ltr e) s { s with tr := r }
  | invlpg {e : EncodedOperand} {s : State} (hp : s.priv = .supervisor) (a : Nat) :
      Change (.invlpg e) s (s.invalidatePage a)
  | rdmsr {e r : EncodedOperand} {s : State} : Change (.rdmsr e r) s s
  | wrmsr {e v : EncodedOperand} {s : State} (hp : s.priv = .supervisor) (idx : BitVec 32)
      (x : BitVec 64) :
      Change (.wrmsr e v) s (({ s with msr := msrSet s.msr idx x }).log (.msrWrite idx x))
  | rdpmc {e r : EncodedOperand} {s : State} : Change (.rdpmc e r) s s
  | rdtsc {r : EncodedOperand} {s : State} (v : BitVec 64) :
      Change (.rdtsc r) s { s with lastTsc := v }

/-- Working cells are drawn, and a value is stored in a destination no wider than `MODE`. An operation
without working cells or without a destination has none, and a constant as destination. -/
def Delivered (s t : State) : Prop :=
  ∃ cells dst k v, (∀ y w, dst = .gpr y w → w ≤ s.params.mode.bits) ∧
    t = putBytes dst k v (clobber cells s)

/-! ## What counts as an observation -/

theorem Observed.refl (s : State) : Observed s s := ⟨[], s.drawn, by simp⟩

theorem Observed.trans {s t u : State} (h : Observed s t) (k : Observed t u) : Observed s u := by
  obtain ⟨ev, n, rfl⟩ := h
  obtain ⟨ev', n', rfl⟩ := k
  exact ⟨ev ++ ev', n', by simp⟩

theorem Observed.params {s t : State} (h : Observed s t) : t.params = s.params := by
  obtain ⟨ev, n, rfl⟩ := h
  rfl

theorem Observed.supervisor {s t : State} (h : Observed s t) (hp : s.priv = .supervisor) :
    t.priv = .supervisor := by
  obtain ⟨ev, n, rfl⟩ := h
  exact hp

theorem Drawn.observed {s t : State} (h : Drawn s t) : Observed s t := by
  obtain ⟨n, rfl⟩ := h
  exact ⟨[], n, by simp⟩

theorem log_observed (s : State) (e : Event) : Observed s (s.log e) := ⟨[e], s.drawn, rfl⟩

theorem ioRead_observed (port : BitVec 16) (n : Nat) (s : State) : Observed s (ioRead port n s).st :=
  log_observed s _

theorem ioWrite_observed (port : BitVec 16) (n v : Nat) (s : State) :
    Observed s (ioWrite port n v s) := log_observed s _

theorem afterRead_observed (x : Arg) (k : Nat) (s : State) : Observed s (afterRead x k s) :=
  ⟨x.readEvents k s, s.drawn, rfl⟩

theorem toU32_observed {op : Byte} {pos : Nat} {x : Arg} {s : State} {g : Got (BitVec 32)}
    (h : toU32 op pos x s = .next g) : Observed s g.st := by
  obtain ⟨-, -, rfl⟩ := toU32_eq_next.1 h
  exact afterRead_observed x x.size s

theorem msrRead_observed {idx : BitVec 32} {s : State} {g : Got (BitVec 64)}
    (h : msrRead idx s = .next g) : Observed s g.st := by
  rcases msrRead_eq_next.1 h with ⟨-, -, rfl⟩ | ⟨-, rfl⟩
  · exact .refl s
  · exact (draw_leaves s).observed

theorem readSelector_observed {op : Byte} {w : SelectorOp} {x : Arg} {s : State}
    {g : Got (BitVec 16)} (h : readSelector op w x s = .next g) :
    s.priv = .supervisor ∧ Observed s g.st := by
  obtain ⟨-, -, hp, -, -, rfl⟩ := readSelector_eq_next.1 h
  exact ⟨hp, (afterRead_observed x x.size s).trans (verdictOrDraw_leaves _ _).observed⟩

/-! ## What counts as a delivery -/

@[simp] theorem clobber_nil (s : State) : clobber [] s = s := by
  unfold clobber
  split <;> rfl

/-- A constant as destination takes nothing. -/
theorem clobber_delivered (cells : List GprCell) (s : State) : Delivered s (clobber cells s) :=
  ⟨cells, .imm (.imm8 0), 0, 0, by simp, rfl⟩

theorem Delivered.refl (s : State) : Delivered s s := by
  simpa using clobber_delivered [] s

theorem putBytes_delivered {e : EncodedOperand} {dst : Arg} {s r : State} (hd : argOf e s = some dst)
    (hr : r.params = s.params) (cells : List GprCell) (k v : Nat) :
    Delivered r (putBytes dst k v (clobber cells r)) := by
  refine ⟨cells, dst, k, v, ?_, rfl⟩
  rintro y w rfl
  rw [hr]
  exact (argOf_gpr_width hd).2

/-! ## What each part keeps -/

/-- The run goes on where it was: the fixed part and `pc` are as before, `history` has at most grown. -/
structure Continues (s t : State) : Prop where
  fixed   : SameFixed s t
  pc      : t.pc = s.pc
  history : s.history <+: t.history

theorem SameFixed.trans {s t u : State} (h : SameFixed s t) (k : SameFixed t u) : SameFixed s u where
  params := k.params.trans h.params
  seg := k.seg.trans h.seg
  cr0 := k.cr0.trans h.cr0
  cr2 := k.cr2.trans h.cr2
  cr3 := k.cr3.trans h.cr3
  cr4 := k.cr4.trans h.cr4
  cr8 := k.cr8.trans h.cr8
  priv := k.priv.trans h.priv
  outcome := k.outcome.trans h.outcome
  turns := k.turns.trans h.turns

theorem Continues.refl (s : State) : Continues s s :=
  ⟨by constructor <;> rfl, rfl, List.prefix_refl _⟩

theorem Continues.trans {s t u : State} (h : Continues s t) (k : Continues t u) : Continues s u where
  fixed := h.fixed.trans k.fixed
  pc := k.pc.trans h.pc
  history := h.history.trans k.history

theorem Observed.continues {s t : State} (h : Observed s t) : Continues s t := by
  obtain ⟨ev, n, rfl⟩ := h
  exact ⟨by constructor <;> rfl, rfl, List.prefix_append _ _⟩

theorem Change.fixed {i : Instr} {s t : State} (h : Change i s t) : SameFixed s t := by
  cases h <;> constructor <;> rfl

theorem Change.pc {i : Instr} {s t : State} (h : Change i s t) : t.pc = s.pc := by
  cases h <;> rfl

/-- The operations on the cache, the TLB and the MSR file record what they did. -/
theorem Change.history {i : Instr} {s t : State} (h : Change i s t) : s.history <+: t.history := by
  cases h with
  | invd | wbinvd | invlpg | wrmsr => exact List.prefix_append _ _
  | _ => exact List.prefix_refl _

theorem Change.continues {i : Instr} {s t : State} (h : Change i s t) : Continues s t :=
  ⟨h.fixed, h.pc, h.history⟩

theorem Delivered.continues {s t : State} (h : Delivered s t) : Continues s t := by
  obtain ⟨cells, dst, k, v, -, rfl⟩ := h
  refine ⟨by constructor <;> simp, by simp, ?_⟩
  rw [putBytes_history, clobber_history]
  exact List.prefix_append _ _

theorem Observed.special {s t : State} (h : Observed s t) : SameSpecial s t := by
  obtain ⟨ev, n, rfl⟩ := h
  constructor <;> rfl

theorem Delivered.special {s t : State} (h : Delivered s t) : SameSpecial s t := by
  obtain ⟨cells, dst, k, v, -, rfl⟩ := h
  constructor <;> simp

/-! ## Each special register has one writer (R20 to R24, R28) -/

section OneWriter

variable {i : Instr} {s t : State}

theorem Change.eflags (h : Change i s t) (hc : i ≠ .cli) (hs : i ≠ .sti) : t.eflags = s.eflags := by
  cases h with
  | cli => exact absurd rfl hc
  | sti => exact absurd rfl hs
  | _ => rfl

/-- CLI and STI move IF alone. -/
theorem Change.eflags_bit (h : Change i s t) {k : Nat} (hk : k ≠ 9) :
    t.eflags.getLsbD k = s.eflags.getLsbD k := by
  cases h with
  | cli => exact withIf_getLsbD _ _ k hk
  | sti => exact withIf_getLsbD _ _ k hk
  | _ => rfl

theorem Change.gdtr (h : Change i s t) (hi : ∀ e, i ≠ .lgdt e) : t.gdtr = s.gdtr := by
  cases h with
  | lgdt => exact absurd rfl (hi _)
  | _ => rfl

theorem Change.idtr (h : Change i s t) (hi : ∀ e, i ≠ .lidt e) : t.idtr = s.idtr := by
  cases h with
  | lidt => exact absurd rfl (hi _)
  | _ => rfl

theorem Change.ldtr (h : Change i s t) (hi : ∀ e, i ≠ .lldt e) : t.ldtr = s.ldtr := by
  cases h with
  | lldt => exact absurd rfl (hi _)
  | _ => rfl

theorem Change.tr (h : Change i s t) (hi : ∀ e, i ≠ .ltr e) : t.tr = s.tr := by
  cases h with
  | ltr => exact absurd rfl (hi _)
  | _ => rfl

theorem Change.msr (h : Change i s t) (hi : ∀ e v, i ≠ .wrmsr e v) : t.msr = s.msr := by
  cases h with
  | wrmsr => exact absurd rfl (hi _ _)
  | _ => rfl

theorem Change.tlb (h : Change i s t) (hi : ∀ e, i ≠ .invlpg e) : t.tlb = s.tlb := by
  cases h with
  | invlpg => exact absurd rfl (hi _)
  | _ => rfl

theorem Change.lastTsc (h : Change i s t) (hi : ∀ e, i ≠ .rdtsc e) : t.lastTsc = s.lastTsc := by
  cases h with
  | rdtsc => exact absurd rfl (hi _)
  | _ => rfl

end OneWriter

/-! ## Each part keeps the state well formed -/

theorem Observed.wf {s t : State} (h : Observed s t) (hs : s.Wf) : t.Wf := by
  obtain ⟨ev, n, rfl⟩ := h
  exact { hs with }

theorem Change.wf {i : Instr} {s t : State} (h : Change i s t) (hs : s.Wf) : t.Wf := by
  cases h with
  | invd => exact { hs with cache := rfl }
  | wbinvd => exact { hs with mem := writeBackAll_wf _ hs.mem, cache := rfl }
  | lgdt _ v => exact { hs with gdtr := tableRegOf_fits _ v }
  | lidt _ v => exact { hs with idtr := tableRegOf_fits _ v }
  | invlpg => exact { hs with tlb := tlbWithout_rising _ hs.tlb }
  | wrmsr _ idx x => exact { hs with msr := msrSet_wf idx x hs.msr }
  | _ => exact { hs with }

/-- What the fixed part, the special registers and `pc` do not say of the invariant stands in memory,
in the cache and in the cells. -/
theorem State.Wf.of_same {s t : State} (hs : s.Wf) (hf : SameFixed s t) (hr : SameSpecial s t)
    (hpc : t.pc = s.pc) (hm : Memory.wf t.mem = true)
    (hc : rising (t.cache.map Prod.fst) = true)
    (hg : ∀ cell, Fits t.params.mode.bits (t.gpr.get cell)) : t.Wf where
  mem := hm
  cache := hc
  msr := hr.msr ▸ hs.msr
  tlb := hr.tlb ▸ hs.tlb
  pc := by rw [hpc, hf.params]; exact hs.pc
  gpr := hg
  cr := by rw [hf.params, hf.cr0, hf.cr2, hf.cr3, hf.cr4]; exact hs.cr
  gdtr := by rw [hf.params, hr.gdtr]; exact hs.gdtr
  idtr := by rw [hf.params, hr.idtr]; exact hs.idtr

theorem Delivered.wf {s t : State} (h : Delivered s t) (hs : s.Wf) : t.Wf := by
  have hk := h.continues
  have hr := h.special
  obtain ⟨cells, dst, k, v, hw, rfl⟩ := h
  have hc := clobber_fits cells s hs.gpr
  rw [← clobber_params cells s] at hw hc
  exact hs.of_same hk.fixed hr hk.pc (by simpa using hs.mem)
    (putBytes_cache_rising (by simpa using hs.cache)) (by simpa using putBytes_fits hw hc)

theorem advance_wf {s : State} {n : Nat} (hs : s.Wf) (hn : s.pc + n ≤ s.params.code.length) :
    (s.advance n).Wf := { hs with pc := hn }

end Sys2Proof.Machine
end

section
/-! Every operation that completes is made of those parts, and keeps what each of them keeps. -/
namespace Sys2Proof.Machine

/-- An operation that completes observes, changes what is its own, delivers, and advances. -/
theorem exec_parts {i : Instr} {s t : State} (h : exec i s = .next t) :
    ∃ r u w, Observed s r ∧ Change i r u ∧ Delivered u w ∧ t = w.advance (opLength i.operands) := by
  cases i with
  | cpuid f r =>
    obtain ⟨-, x, -, dst, hd, -, hw, -, g, hg, u, hu, rfl⟩ := execCpuid_eq_next.1 h
    obtain ⟨-, -, rfl⟩ := (cpuidAnswer_eq_next hw).1 hu
    have ho := ((toU32_observed hg).trans (draw_leaves _).observed).trans
      (cpuidPick_leaves g.val ((draw g.st).val.setWidth 32) _).observed
    exact ⟨_, _, _, ho, .cpuid, putBytes_delivered hd ho.params _ _ _, rfl⟩
  | cpuidExt f v r =>
    obtain ⟨-, x, -, y, -, dst, hd, -, -, hw, -, g, hg, k, hk, u, hu, rfl⟩ :=
      execCpuidExt_eq_next.1 h
    obtain ⟨-, -, rfl⟩ := (cpuidAnswer_eq_next hw).1 hu
    have ho := ((toU32_observed hg).trans (toU32_observed hk)).trans
      (cpuidPick_leaves g.val k.val k.st).observed
    exact ⟨_, _, _, ho, .cpuidExt, putBytes_delivered hd ho.params _ _ _, rfl⟩
  | portIn d p =>
    obtain ⟨-, dst, hd, x, -, -, -, -, -, -, -, rfl⟩ := execPortIn_eq_next.1 h
    have ho := (afterRead_observed x x.size s).trans
      (ioRead_observed (BitVec.ofNat 16 (x.valueIn x.size s)) dst.size _)
    exact ⟨_, _, _, ho, .portIn, putBytes_delivered hd ho.params _ _ _, rfl⟩
  | portOut p v =>
    obtain ⟨-, x, -, y, -, -, -, -, -, -, rfl⟩ := execPortOut_eq_next.1 h
    have ho := ((afterRead_observed x x.size s).trans (afterRead_observed y y.size _)).trans
      (ioWrite_observed (BitVec.ofNat 16 (x.valueIn x.size s)) y.size (y.valueIn y.size s) _)
    exact ⟨_, _, _, ho, .portOut, clobber_delivered _ _, rfl⟩
  | cli =>
    obtain ⟨-, hp, rfl⟩ := execCli_eq_next.1 h
    exact ⟨_, _, _, .refl s, .cli hp, .refl _, rfl⟩
  | sti =>
    obtain ⟨-, hp, rfl⟩ := execSti_eq_next.1 h
    exact ⟨_, _, _, .refl s, .sti hp, .refl _, rfl⟩
  | invd =>
    obtain ⟨-, hp, rfl⟩ := execInvd_eq_next.1 h
    exact ⟨_, _, _, .refl s, .invd hp, .refl _, rfl⟩
  | wbinvd =>
    obtain ⟨-, hp, rfl⟩ := execWbinvd_eq_next.1 h
    exact ⟨_, _, _, .refl s, .wbinvd hp, .refl _, rfl⟩
  | lgdt e =>
    obtain ⟨-, x, -, g, hg, rfl⟩ := execLgdt_eq_next.1 h
    obtain ⟨-, -, hp, -, rfl⟩ := readTableReg_eq_next.1 hg
    have ho := afterRead_observed x (pdBytes s.params.mode) s
    exact ⟨_, _, _, ho, .lgdt (ho.supervisor hp) _, .refl _, rfl⟩
  | lidt e =>
    obtain ⟨-, x, -, g, hg, rfl⟩ := execLidt_eq_next.1 h
    obtain ⟨-, -, hp, -, rfl⟩ := readTableReg_eq_next.1 hg
    have ho := afterRead_observed x (pdBytes s.params.mode) s
    exact ⟨_, _, _, ho, .lidt (ho.supervisor hp) _, .refl _, rfl⟩
  | lldt e =>
    obtain ⟨-, x, -, g, hg, rfl⟩ := execLldt_eq_next.1 h
    obtain ⟨hp, hg⟩ := readSelector_observed hg
    have ho := hg.trans (draw_leaves _).observed
    exact ⟨_, _, _, ho, .lldt (ho.supervisor hp) _, .refl _, rfl⟩
  | ltr e =>
    obtain ⟨-, x, -, g, hg, rfl⟩ := execLtr_eq_next.1 h
    obtain ⟨hp, hg⟩ := readSelector_observed hg
    have ho := hg.trans (draw_leaves _).observed
    exact ⟨_, _, _, ho, .ltr (ho.supervisor hp) _, .refl _, rfl⟩
  | invlpg e =>
    obtain ⟨-, x, -, -, hp, rfl⟩ := execInvlpg_eq_next.1 h
    exact ⟨_, _, _, .refl s, .invlpg hp _, .refl _, rfl⟩
  | rdmsr e r =>
    obtain ⟨-, x, -, dst, hd, -, -, -, -, g, hg, v, hv, -, rfl⟩ := execRdmsr_eq_next.1 h
    have ho := (toU32_observed hg).trans (msrRead_observed hv)
    exact ⟨_, _, _, ho, .rdmsr, putBytes_delivered hd ho.params _ _ _, rfl⟩
  | wrmsr e v =>
    obtain ⟨-, x, -, y, -, -, -, hp, g, hg, -, u, hu, rfl⟩ := execWrmsr_eq_next.1 h
    obtain ⟨-, -, -, rfl⟩ := msrWrite_eq_next.1 hu
    have ho := (toU32_observed hg).trans (afterRead_observed y 8 _)
    exact ⟨_, _, _, ho, .wrmsr (ho.supervisor hp) _ _, clobber_delivered _ _, rfl⟩
  | rdpmc e r =>
    obtain ⟨-, x, -, dst, hd, -, -, -, -, g, hg, k, rfl, -, -, rfl⟩ := execRdpmc_eq_next.1 h
    have hv := verdictOrDraw_leaves (pmcVerdict s.params g.val) g.st
    have ho := ((toU32_observed hg).trans hv.observed).trans (draw_leaves _).observed
    exact ⟨_, _, _, ho, .rdpmc, putBytes_delivered hd ho.params _ _ _, rfl⟩
  | rdtsc r =>
    obtain ⟨-, dst, hd, -, -, -, -, rfl⟩ := execRdtsc_eq_next.1 h
    obtain ⟨n, v, ht⟩ := tscRead_st s
    have ho : Observed s { s with drawn := n } := Drawn.observed ⟨n, rfl⟩
    have hr : ({ s with drawn := n, lastTsc := v } : State).params = s.params := rfl
    rw [ht]
    exact ⟨_, _, _, ho, .rdtsc v, putBytes_delivered hd hr _ _ _, rfl⟩

/-- Until `pc` advances, an operation leaves the run where it was. -/
theorem exec_continues {i : Instr} {s t : State} (h : exec i s = .next t) :
    ∃ w, Continues s w ∧ t = w.advance (opLength i.operands) := by
  obtain ⟨r, u, w, ho, hc, hd, rfl⟩ := exec_parts h
  exact ⟨w, (ho.continues.trans hc.continues).trans hd.continues, rfl⟩

/-- Between the special registers before and behind an operation stands its own change alone. -/
theorem exec_special {i : Instr} {s t : State} (h : exec i s = .next t) :
    ∃ r u, SameSpecial s r ∧ Change i r u ∧ SameSpecial u t := by
  obtain ⟨r, u, w, ho, hc, hd, rfl⟩ := exec_parts h
  exact ⟨r, u, ho.special, hc, { hd.special with }⟩

theorem exec_wf {i : Instr} {s t : State} (h : exec i s = .next t) (hs : s.Wf)
    (hl : s.pc + opLength i.operands ≤ s.params.code.length) : t.Wf := by
  obtain ⟨r, u, w, ho, hc, hd, rfl⟩ := exec_parts h
  have hk := (ho.continues.trans hc.continues).trans hd.continues
  exact advance_wf (hd.wf (hc.wf (ho.wf hs))) (by rwa [hk.pc, hk.fixed.params])

/-- Settles O17: only the last part moves `pc`, by the operation's length. -/
theorem everyOperationFallsThrough : Obligations.EveryOperationFallsThrough := by
  intro i s t h
  obtain ⟨w, hk, rfl⟩ := exec_continues h
  rw [length_encode]
  exact ⟨by rw [State.advance_pc, hk.pc], two_le_opLength _, hk.fixed.outcome, hk.fixed.turns⟩

/-- Settles O15: the change is the only part that reaches EFLAGS, and only CLI's and STI's do, at IF. -/
theorem onlyCliAndStiChangeEflags : Obligations.OnlyCliAndStiChangeEflags := by
  intro i s t h
  obtain ⟨r, u, hsr, hc, hut⟩ := exec_special h
  rw [hut.eflags, ← hsr.eflags]
  exact ⟨hc.eflags, fun _ => hc.eflags_bit⟩

/-- Settles O16: the change is the only part that reaches a special register, one per operation. -/
theorem specialRegistersHaveOneWriter : Obligations.SpecialRegistersHaveOneWriter := by
  intro i s t h
  obtain ⟨r, u, hsr, hc, hut⟩ := exec_special h
  rw [hut.gdtr, hut.idtr, hut.ldtr, hut.tr, hut.msr, hut.tlb, hut.lastTsc, ← hsr.gdtr, ← hsr.idtr,
    ← hsr.ldtr, ← hsr.tr, ← hsr.msr, ← hsr.tlb, ← hsr.lastTsc]
  exact ⟨hc.gdtr, hc.idtr, hc.ldtr, hc.tr, hc.msr, hc.tlb, hc.lastTsc⟩

end Sys2Proof.Machine
end

section
/-! What every step of every agent keeps (R33): the cache background agent's beside the CPU's. -/
namespace Sys2Proof.Machine

/-! ## The cache background agent (R54) -/

theorem writeBack_history (s : State) (a : Nat) : s.history <+: (s.writeBack a).history := by
  unfold State.writeBack
  split
  · exact List.prefix_refl _
  · exact List.prefix_append _ _

theorem writeBack_continues (s : State) (a : Nat) : Continues s (s.writeBack a) :=
  ⟨by constructor <;> simp, by simp, writeBack_history s a⟩

theorem writeBack_special (s : State) (a : Nat) : SameSpecial s (s.writeBack a) := by
  constructor <;> simp

theorem writeBack_wf {s : State} (a : Nat) (hs : s.Wf) : (s.writeBack a).Wf :=
  hs.of_same (writeBack_continues s a).fixed (writeBack_special s a) (State.writeBack_pc s a)
    (writeBack_mem_wf a hs.mem) (writeBack_cache_rising a hs.cache) (by simpa using hs.gpr)

/-! ## Every step -/

/-- Whoever moves, a step may use up a turn, goes on from there, and may then end the run or advance
`pc`. -/
theorem step_continues {s t : State} (h : step s = .next t) :
    ∃ u o n w, Continues { s with turns := u } w ∧ t = ({ w with outcome := o }).advance n := by
  rcases step_eq_next h with ⟨-, rfl⟩ | ⟨-, ⟨u, -, ⟨-, rfl⟩ | ⟨i, rest, -, -, hx⟩⟩ |
    ⟨a, u, -, rfl⟩ | ⟨v, u, -, -, rfl⟩⟩
  · exact ⟨t.turns, t.outcome, 0, t, .refl t, rfl⟩
  · exact ⟨u, .final, 0, _, .refl _, rfl⟩
  · obtain ⟨w, hk, rfl⟩ := exec_continues hx
    exact ⟨u, w.outcome, _, w, hk, rfl⟩
  · exact ⟨u, _, 0, _, writeBack_continues _ a, rfl⟩
  · exact ⟨u, _, 0, _, .refl _, rfl⟩

/-- Settles O14: what a step goes on from has the same fixed part. -/
theorem noStepChangesWhatIsFixed : Obligations.NoStepChangesWhatIsFixed := by
  intro s t h
  obtain ⟨u, o, n, w, hk, rfl⟩ := step_continues h
  have hf := hk.fixed
  exact ⟨hf.params, hf.seg, hf.cr0, hf.cr2, hf.cr3, hf.cr4, hf.cr8, hf.priv⟩

/-- Settles O18: each part of a step extends `history` or leaves it. -/
theorem historyOnlyGrows : Obligations.HistoryOnlyGrows := by
  intro s t h
  obtain ⟨u, o, n, w, hk, rfl⟩ := step_continues h
  obtain ⟨events, he⟩ := hk.history
  exact ⟨events, he.symm⟩

/-- An operation decoded at `pc` ends within the text. -/
theorem pc_add_opLength_le {s : State} {i : Instr} {rest : List Byte}
    (hpc : s.pc ≤ s.params.code.length)
    (h : decode s.params.mode s.params.codec (s.params.code.drop s.pc) = .ok (i, rest)) :
    s.pc + opLength i.operands ≤ s.params.code.length := by
  have hl := opLength_le_of_decode h
  rw [List.length_drop] at hl
  omega

/-- Settles O12: an operation keeps the invariant part by part, and the write-back and the turns that
only pass keep it outright. -/
theorem stepKeepsTheStateWellFormed : Obligations.StepKeepsTheStateWellFormed := by
  intro s t hs h
  rcases step_eq_next h with ⟨-, rfl⟩ | ⟨-, ⟨u, -, ⟨-, rfl⟩ | ⟨i, rest, hpc, hd, hx⟩⟩ |
    ⟨a, u, -, rfl⟩ | ⟨v, u, -, -, rfl⟩⟩
  · exact hs
  · exact { hs with }
  · exact exec_wf hx { hs with } (pc_add_opLength_le hpc hd)
  · exact writeBack_wf a { hs with }
  · exact { hs with }

/-- Settles O13: every file of the launch is empty and every register is 0. -/
theorem resetIsWellFormed : Obligations.ResetIsWellFormed where
  left :=
    { mem := reset_memory_wf
      cache := rfl
      msr := rfl
      tlb := rfl
      pc := le_refl 0
      gpr := fun cell => by cases cell <;> decide
      cr := by decide
      gdtr := by decide
      idtr := by decide }
  right := ⟨rfl, rfl, rfl, rfl⟩

end Sys2Proof.Machine
end

section
/-! The three widths of a register view, as numbers (R15). -/
namespace Sys2Proof.Machine

/-- A 16-bit write to a wider cell keeps what stands above bit 15. -/
theorem toNat_cellAfter_16 {m : Mode} (hm : m ≠ .m16) (old : BitVec 64) {v : Nat} (hv : v < 2 ^ 16) :
    (cellAfter m 16 old v).toNat = old.toNat / 2 ^ 16 * 2 ^ 16 + v := by
  rw [cellAfter, if_pos ⟨rfl, hm⟩]
  have ho := old.isLt
  simp only [BitVec.toNat_append, BitVec.toNat_ofNat, BitVec.extractLsb'_toNat,
    Nat.shiftRight_eq_div_pow, Nat.mod_eq_of_lt hv]
  rw [Nat.shiftLeft_eq, Nat.mul_comm, ← Nat.two_pow_add_eq_or_of_lt hv]
  omega

/-- Every other write replaces the whole cell: a narrower value leaves zeros above it. -/
theorem toNat_cellAfter_whole {m : Mode} {w : Nat} (hm : w = 16 → m = .m16) (hw : w ≤ 64)
    (old : BitVec 64) {v : Nat} (hv : v < 2 ^ w) : (cellAfter m w old v).toNat = v := by
  have hv64 : v < 2 ^ 64 := lt_of_lt_of_le hv (Nat.pow_le_pow_right (by decide) hw)
  rw [cellAfter, if_neg fun h => h.2 (hm h.1), Nat.mod_eq_of_lt hv, BitVec.toNat_ofNat,
    Nat.mod_eq_of_lt hv64]

theorem writeView_get_same (s : State) (cell : GprCell) (w v : Nat) :
    (s.writeView cell w v).gpr.get cell = cellAfter s.params.mode w (s.gpr.get cell) v := by
  rw [writeView_get, if_pos rfl]

/-- Settles O27: the view's width decides which of the two kinds of write it is. -/
theorem registerViewsAlias : Obligations.RegisterViewsAlias := by
  intro s cell v
  simp only [writeView_get_same]
  refine ⟨fun hm => toNat_cellAfter_16 hm _,
    fun hm => toNat_cellAfter_whole (fun _ => hm) (by decide) _,
    fun _ => toNat_cellAfter_whole (by simp) (by decide) _,
    fun _ => toNat_cellAfter_whole (by simp) (by decide) _, ?_, fun _ => rfl⟩
  intro w other ho
  rw [writeView_get, if_neg ho.symm]

end Sys2Proof.Machine
end

section
/-! Memory behind the cache: when an access goes through, what a read sees after a write, and the cache
background agent's move (R41, R42, R45, R52, R54). -/
namespace Sys2Proof.Machine

/-! ## An access goes through or is turned away as a whole (R42, R45, R52, R134) -/

/-- A request that runs past the top or is not admitted fails the condition both checks branch on. -/
theorem not_admitted_of {p : Params} {a n : Nat} {k : AccessKind}
    (h : 2 ^ p.mode.bits < a + n ∨ memAdmit p a n k = false) :
    ¬ (a + n ≤ 2 ^ p.mode.bits ∧ memAdmit p a n k = true) := by
  rintro ⟨htop, hadm⟩
  rcases h with h | h
  · omega
  · simp [hadm] at h

theorem memRead_eq_fault {a n : Nat} {s : State}
    (h : 2 ^ s.params.mode.bits < a + n ∨ memAdmit s.params a n .read = false) :
    memRead a n s = .fault (.memory a) := by
  simp only [memRead, checkRead, if_neg (not_admitted_of h), raise, andThen_fault]

theorem memWrite_eq_fault {a n : Nat} (v : Nat) {s : State}
    (h : 2 ^ s.params.mode.bits < a + n ∨ memAdmit s.params a n .write = false) :
    memWrite a n v s = .fault (.memory a) := by
  simp only [memWrite, checkWrite, if_neg (not_admitted_of h), raise, andThen_fault]

theorem memWrite_eq_codeWrite {a n : Nat} (v : Nat) {s : State} (htop : a + n ≤ 2 ^ s.params.mode.bits)
    (hadm : memAdmit s.params a n .write = true) (hcode : meetsCode s.params a n = true) :
    memWrite a n v s = .refused .codeWrite := by
  simp only [memWrite, checkWrite, if_pos (And.intro htop hadm), if_pos hcode, refuse, andThen_refused]

theorem memRead_eq_next {a n : Nat} {s : State} {g : Got Nat} :
    memRead a n s = .next g ↔
      (a + n ≤ 2 ^ s.params.mode.bits ∧ memAdmit s.params a n .read = true) ∧
        g = ⟨leNat (s.bytesAt a n), s.log (.memRead a n (leNat (s.bytesAt a n)))⟩ := by
  simp [memRead, andThen_eq_next, checkRead_eq_next, eq_comm (a := g)]

theorem memWrite_eq_next {a n v : Nat} {s t : State} :
    memWrite a n v s = .next t ↔
      (a + n ≤ 2 ^ s.params.mode.bits ∧ memAdmit s.params a n .write = true ∧
        meetsCode s.params a n = false) ∧ t = s.store a n v := by
  simp [memWrite, andThen_eq_next, checkWrite_eq_next, eq_comm (a := t)]

/-- Settles O26: one lemma for each way an access can end. -/
theorem memoryAccessIsAdmittedWholeOrNotAtAll : Obligations.MemoryAccessIsAdmittedWholeOrNotAtAll :=
  fun _ _ v _ => ⟨memRead_eq_fault, memWrite_eq_fault v, memWrite_eq_codeWrite v,
    fun htop hadm => memRead_eq_next.2 ⟨⟨htop, hadm⟩, rfl⟩,
    fun htop hadm hcode => ⟨_, memWrite_eq_next.2 ⟨⟨htop, hadm, hcode⟩, rfl⟩⟩⟩

/-! ## A read after a write (R41, R42, R49) -/

theorem visible_store_within (s : State) (a v : Nat) {n i : Nat} (hi : i < n) :
    (s.store a n v).visible (a + i) = BitVec.ofNat 8 (v / 256 ^ i) := by
  rw [visible_store, if_pos (by omega), Nat.add_sub_cancel_left]

theorem visible_store_outside (s : State) (v : Nat) {a n x : Nat} (hx : x < a ∨ a + n ≤ x) :
    (s.store a n v).visible x = s.visible x := by
  rw [visible_store, if_neg (by omega)]

/-- Settles O25: a write that goes through is a store, and a store's bytes are the value's. -/
theorem readAfterWriteGivesTheValue : Obligations.ReadAfterWriteGivesTheValue := by
  intro a n v s t h
  obtain ⟨-, rfl⟩ := memWrite_eq_next.1 h
  exact ⟨by rw [bytesAt_store, leNat_leBytes], fun _ => visible_store_within s a v,
    fun _ => visible_store_outside s v, rfl, rfl, rfl⟩

/-! ## The cache background agent (R54, log 9) -/

theorem writeBack_of_modified {s : State} {a : Nat} {b : Byte} (h : Sparse.get? s.cache a = some b) :
    s.writeBack a = { s with mem := Memory.set s.mem a b, cache := Sparse.erase s.cache a,
                             history := s.history ++ [.cacheWriteBack a] } := by
  simp only [State.writeBack, h, State.log]

theorem writeBack_of_unmodified {s : State} {a : Nat} (h : Sparse.get? s.cache a = none) :
    s.writeBack a = s := by
  simp only [State.writeBack, h]

theorem step_writeBack {s : State} {a : Nat} {more : List Turn} (ho : s.outcome = .running)
    (ht : s.turns = .writeBack a :: more) :
    step s = .next (({ s with turns := more }).writeBack a) := by
  simp only [step_running ho, turnStep, ht]

/-- Settles O23: the byte moves from the cache to `mem`, where a read that no longer finds it in the
cache looks next. -/
theorem writeBackIsInvisibleToReads : Obligations.WriteBackIsInvisibleToReads := by
  intro s a more ho ht
  rw [step_writeBack ho ht]
  constructor
  · intro b hb
    refine ⟨_, rfl, ?_, ?_, visible_writeBack _ a, ?_, ?_⟩ <;>
      rw [writeBack_of_modified (s := { s with turns := more }) hb]
    · rw [memory_get_set, if_pos rfl]
    · rw [get?_erase, if_pos rfl]
    · intro x hx
      rw [memory_get_set, if_neg hx.symm, get?_erase, if_neg hx.symm]
      exact ⟨rfl, rfl⟩
  · intro hn
    rw [writeBack_of_unmodified (s := { s with turns := more }) hn]

end Sys2Proof.Machine
end

section
/-! Operations that stop at a memory operand: the checks before it pass, and the operand's own check then
stops the operation, whatever was to follow (R42 to R44, R52, R64, R137). -/
namespace Sys2Proof.Machine

/-! ## Stopping, whatever follows -/

/-- The part stops, and any chain it begins has this outcome. -/
def Stops {α : Type} (r : Res α) (stop : Res State) : Prop := ∀ f : α → Res State, andThen r f = stop

section Chain

variable {α β : Type} {r : Res α} {f : α → Res β} {stop : Res State}

/-- A chain stops where its first part does. -/
theorem Stops.andThen_left (h : Stops r stop) : Stops (andThen r f) stop := fun g => by
  rw [andThen_assoc, h]

/-- A chain whose first part goes on stops where the rest does. -/
theorem Stops.behind {a : α} (hr : r = .next a) (h : Stops (f a) stop) :
    Stops (andThen r f) stop := by
  rw [hr]; exact h

/-- A check that passes leaves the stop to the rest. -/
theorem Stops.past {r : Res Unit} {f : Unit → Res β} (hr : r = .next ()) (h : Stops (f ()) stop) :
    Stops (andThen r f) stop := h.behind hr

theorem Stops.past_require {b : Bool} {r : Fault} {f : Unit → Res β} (hb : b = true)
    (h : Stops (f ()) stop) : Stops (andThen (require b r) f) stop :=
  h.past (require_eq_next.2 hb)

theorem Stops.past_supervisor {op : Byte} {s : State} {f : Unit → Res β} (hp : s.priv = .supervisor)
    (h : Stops (f ()) stop) : Stops (andThen (requireSupervisor op s) f) stop :=
  h.past (requireSupervisor_eq_next.2 hp)

end Chain

section Frame

variable {op : Byte} {e₁ e₂ e₃ : EncodedOperand} {x y z : Arg} {s : State} {stop : Res State}

theorem run1_stops {body : Arg → Res State} (ha : s.available = true) (h₁ : argOf e₁ s = some x)
    (h : Stops (body x) stop) : run1 op e₁ s body = stop := by
  simp only [run1, requireAvailable, ha, require_true, andThen_next, argAt_of h₁, finish, h _]

theorem run2_stops {body : Arg → Arg → Res State} (ha : s.available = true)
    (h₁ : argOf e₁ s = some x) (h₂ : argOf e₂ s = some y) (h : Stops (body x y) stop) :
    run2 op e₁ e₂ s body = stop := by
  simp only [run2, requireAvailable, ha, require_true, andThen_next, argAt_of h₁, argAt_of h₂, finish,
    h _]

theorem run3_stops {body : Arg → Arg → Arg → Res State} (ha : s.available = true)
    (h₁ : argOf e₁ s = some x) (h₂ : argOf e₂ s = some y) (h₃ : argOf e₃ s = some z)
    (h : Stops (body x y z) stop) : run3 op e₁ e₂ e₃ s body = stop := by
  simp only [run3, requireAvailable, ha, require_true, andThen_next, argAt_of h₁, argAt_of h₂,
    argAt_of h₃, finish, h _]

end Frame

/-! ## Operand access that stops (R64) -/

section Access

variable {x : Arg} {k e : Nat} {s t : State} {stop : Res State}

theorem Arg.ReadStop.loadBytes (h : x.ReadStop k e s stop) : Stops (loadBytes x k e s) stop :=
  loadBytes_stops h

theorem Arg.ReadStop.readInt (h : x.ReadStop x.size x.size s stop) : Stops (readInt x s) stop :=
  loadBytes_stops h

theorem Arg.ReadStop.toU32 {op : Byte} {pos : Nat} (h : x.ReadStop x.size x.size s stop) :
    Stops (toU32 op pos x s) stop := h.readInt.andThen_left

/-- A read stops in the same way behind another read. -/
theorem Arg.ReadStop.after_read {y : Arg} {j : Nat} (h : x.ReadStop k e s stop) :
    x.ReadStop k e (afterRead y j s) stop := (readStop_congr rfl x k e stop).2 h

theorem Arg.WriteStop.isWritable (h : x.WriteStop k e s stop) : x.isWritable = true := by
  cases x with
  | imm => exact h.elim
  | gpr => rfl
  | mem => rfl

/-- A destination stops in the same way behind whatever left the parameters as they were. -/
theorem Arg.WriteStop.checkDest (h : x.WriteStop k e s stop) (ht : t.params = s.params) :
    Stops (checkDest x k e t) stop := checkDest_stops ((writeStop_congr ht x k e stop).2 h)

theorem Arg.WriteStop.storeBytes {v : Nat} (h : x.WriteStop k e s stop) (ht : t.params = s.params) :
    Stops (storeBytes x k e v t) stop := (h.checkDest ht).andThen_left

end Access

/-! ## The table operand (R100 to R102) -/

theorem pdBytes_eq (m : Mode) : pdBytes m = if m = .m64 then 10 else 6 := by
  cases m <;> rfl

theorem size_mem (a n : Nat) : (Arg.mem a n).size = n := by
  simp [Arg.size, Arg.width]

/-- Elements of one byte are never misaligned, so only the top and admission stop the read. -/
theorem readStop_bytewise {a n k : Nat} {s : State}
    (h : 2 ^ s.params.mode.bits < a + k ∨ memAdmit s.params a k .read = false) :
    (Arg.mem a n).ReadStop k 1 s (.fault (.memory a)) :=
  .inr ⟨fun _ => Nat.mod_one a, h, rfl⟩

theorem readTableReg_stops {op : Byte} {a : Nat} {s : State} (hp : s.priv = .supervisor)
    (h : 2 ^ s.params.mode.bits < a + pdBytes s.params.mode ∨
      memAdmit s.params a (pdBytes s.params.mode) .read = false) :
    Stops (readTableReg op (.mem a (pdBytes s.params.mode)) s) (.fault (.memory a)) :=
  .past_require (by simp [Arg.isMemory, size_mem]) <|
  .past_supervisor hp (readStop_bytewise h).loadBytes.andThen_left

/-- Settles O54: both operations read their operand in elements of one byte. -/
theorem tableOperandIsReadAtAnyAlignment : Obligations.TableOperandIsReadAtAnyAlignment := by
  intro e a k s ha hp hk he h
  rw [← pdBytes_eq] at hk
  subst hk
  exact ⟨run1_stops ha he (readTableReg_stops hp h).andThen_left,
    run1_stops ha he (readTableReg_stops hp h).andThen_left⟩

/-! ## Sources (R137 item 7) -/

section Source

variable {x y z dst : Arg} {s : State} {stop : Res State}

theorem cpuidBasic_stops_at_function (hx : x.isIntegral = true) (hw : dst.isWritable = true)
    (hc : dst.canStore 16 = true) (h : x.ReadStop x.size x.size s stop) :
    Stops (cpuidBasic x dst s) stop :=
  .past_require hx <| .past_require (by simp [hw, hc]) h.toU32.andThen_left

theorem cpuidExtended_stops_at_function (hx : x.isIntegral = true) (hy : y.isIntegral = true)
    (hw : dst.isWritable = true) (hc : dst.canStore 16 = true)
    (h : x.ReadStop x.size x.size s stop) : Stops (cpuidExtended x y dst s) stop :=
  .past_require hx <| .past_require hy <| .past_require (by simp [hw, hc]) h.toU32.andThen_left

theorem cpuidExtended_stops_at_subfunction (hx : x.isIntegral = true) (hy : y.isIntegral = true)
    (hw : dst.isWritable = true) (hc : dst.canStore 16 = true) (hr : x.Readable x.size x.size s)
    (hv : x.valueIn x.size s < 2 ^ 32) (h : y.ReadStop y.size y.size s stop) :
    Stops (cpuidExtended x y dst s) stop :=
  .past_require hx <| .past_require hy <| .past_require (by simp [hw, hc]) <|
  .behind (toU32_eq_next.2 ⟨hr, hv, rfl⟩) h.after_read.toU32.andThen_left

theorem portInBody_stops_at_port (hx : isDatum dst = true) (hw : dst.isWritable = true)
    (hy : isPort y = true) (h : y.ReadStop y.size y.size s stop) : Stops (portInBody dst y s) stop :=
  .past_require (by simp [hx, hw]) <| .past_require hy h.readInt.andThen_left

theorem portOutBody_stops_at_port (hx : isPort x = true) (hy : isDatum y = true)
    (h : x.ReadStop x.size x.size s stop) : Stops (portOutBody x y s) stop :=
  .past_require hx <| .past_require hy h.readInt.andThen_left

theorem portOutBody_stops_at_value (hx : isPort x = true) (hy : isDatum y = true)
    (hr : x.Readable x.size x.size s) (h : y.ReadStop y.size y.size s stop) :
    Stops (portOutBody x y s) stop :=
  .past_require hx <| .past_require hy <| .behind (readInt_of hr) h.after_read.readInt.andThen_left

theorem readSelector_stops {op : Byte} {w : SelectorOp} (hx : x.isIntegral = true)
    (hw : x.width = 16) (hp : s.priv = .supervisor) (h : x.ReadStop x.size x.size s stop) :
    Stops (readSelector op w x s) stop :=
  .past_require (by simp [hx, hw]) <| .past_supervisor hp h.readInt.andThen_left

theorem rdmsrBody_stops_at_index (hx : x.isIntegral = true) (hw : dst.isWritable = true)
    (hc : dst.canStore 8 = true) (hp : s.priv = .supervisor) (h : x.ReadStop x.size x.size s stop) :
    Stops (rdmsrBody x dst s) stop :=
  .past_require hx <| .past_require (by simp [hw, hc]) <| .past_supervisor hp h.toU32.andThen_left

theorem wrmsrBody_stops_at_index (hx : x.isIntegral = true) (hy : y.canLoad 8 = true)
    (hp : s.priv = .supervisor) (h : x.ReadStop x.size x.size s stop) :
    Stops (wrmsrBody x y s) stop :=
  .past_require hx <| .past_require hy <| .past_supervisor hp h.toU32.andThen_left

theorem wrmsrBody_stops_at_value (hx : x.isIntegral = true) (hy : y.canLoad 8 = true)
    (hp : s.priv = .supervisor) (hr : x.Readable x.size x.size s)
    (hv : x.valueIn x.size s < 2 ^ 32) (h : y.ReadStop 8 8 s stop) : Stops (wrmsrBody x y s) stop :=
  .past_require hx <| .past_require hy <| .past_supervisor hp <|
  .behind (toU32_eq_next.2 ⟨hr, hv, rfl⟩) h.after_read.loadBytes.andThen_left

theorem rdpmcBody_stops_at_index (hx : x.isIntegral = true) (hw : dst.isWritable = true)
    (hc : dst.canStore 8 = true) (hp : crPce s.cr4 = true ∨ s.priv = .supervisor)
    (h : x.ReadStop x.size x.size s stop) : Stops (rdpmcBody x dst s) stop :=
  .past_require hx <| .past_require (by simp [hw, hc]) <|
  .past (requirePmcPriv_eq_next.2 hp) h.toU32.andThen_left

end Source

/-- Settles O52: at each position of each operation the checks before the source pass. -/
theorem sourceIsCheckedBeforeItIsUsed : Obligations.SourceIsCheckedBeforeItIsUsed := by
  intro e₁ e₂ e₃ x y z s stop ha h₁ h₂ h₃
  refine ⟨fun hx h => ⟨?cpuid, ?cpuidExt, ?portOut, ?selector, ?rdmsr, ?wrmsr, ?rdpmc⟩,
    fun hx hr => ⟨?subfunction, ?outValue, ?msrValue⟩, ?portIn⟩
  case cpuid => exact fun hw hc => run2_stops ha h₁ h₂ (cpuidBasic_stops_at_function hx hw hc h)
  case cpuidExt =>
    exact fun hy hw hc => run3_stops ha h₁ h₂ h₃ (cpuidExtended_stops_at_function hx hy hw hc h)
  case portOut => exact fun hx hy => run2_stops ha h₁ h₂ (portOutBody_stops_at_port hx hy h)
  case selector =>
    exact fun hp hw => ⟨run1_stops ha h₁ (readSelector_stops hx hw hp h).andThen_left,
      run1_stops ha h₁ (readSelector_stops hx hw hp h).andThen_left⟩
  case rdmsr => exact fun hp hw hc => run2_stops ha h₁ h₂ (rdmsrBody_stops_at_index hx hw hc hp h)
  case wrmsr => exact fun hp hy => run2_stops ha h₁ h₂ (wrmsrBody_stops_at_index hx hy hp h)
  case rdpmc => exact fun hp hw hc => run2_stops ha h₁ h₂ (rdpmcBody_stops_at_index hx hw hc hp h)
  case subfunction =>
    exact fun hv hy h hw hc =>
      run3_stops ha h₁ h₂ h₃ (cpuidExtended_stops_at_subfunction hx hy hw hc hr hv h)
  case outValue => exact fun hx hy h => run2_stops ha h₁ h₂ (portOutBody_stops_at_value hx hy hr h)
  case msrValue =>
    exact fun hp hv hy h => run2_stops ha h₁ h₂ (wrmsrBody_stops_at_value hx hy hp hr hv h)
  case portIn => exact fun hx hw hy h => run2_stops ha h₁ h₂ (portInBody_stops_at_port hx hw hy h)

/-! ## Destinations (R137 item 10) -/

section Destination

variable {x y dst : Arg} {f sub : BitVec 32} {s t : State} {stop : Res State}

theorem tscRead_params (s : State) : (tscRead s).st.params = s.params := by
  obtain ⟨n, v, h⟩ := tscRead_st s
  rw [h]

theorem rdtscBody_stops_at_destination (hc : dst.canStore 8 = true) (h : dst.WriteStop 8 8 s stop)
    (hp : crTsd s.cr4 = false ∨ s.priv = .supervisor) : Stops (rdtscBody dst s) stop :=
  .past_require (by simp [h.isWritable, hc]) <| .past (requireTscPriv_eq_next.2 hp) <|
  h.storeBytes (by simp [tscRead_params])

/-- The port is not read before the destination's checks (R86). -/
theorem portInBody_stops_at_destination {port : BitVec 16} (hx : isDatum dst = true)
    (hy : isPort y = true) (hr : y.Readable y.size y.size s) (hv : y.valueIn y.size s = port.toNat)
    (hp : ioPermitted s.params s.priv port dst.size = true)
    (h : dst.WriteStop dst.size dst.size s stop) : Stops (portInBody dst y s) stop :=
  .past_require (by simp [hx, h.isWritable]) <| .past_require hy <| .behind (readInt_of hr) <|
  .past_require (by simpa [hv] using hp) (h.checkDest rfl).andThen_left

theorem cpuidAnswer_stops_at_destination (hp : cpuidPriv t.params f = .user ∨ t.priv = .supervisor)
    (h : dst.WriteStop 16 4 s stop) (ht : t.params = s.params) :
    Stops (cpuidAnswer f sub dst t) stop :=
  .past_require (by simpa using hp) <|
  h.storeBytes (by rw [clobber_params, (cpuidPick_leaves f sub t).observed.params, ht])

theorem cpuidBasic_stops_at_destination (hx : x.isIntegral = true) (hr : x.Readable x.size x.size s)
    (hv : x.valueIn x.size s = f.toNat) (hp : cpuidPriv s.params f = .user ∨ s.priv = .supervisor)
    (hc : dst.canStore 16 = true) (h : dst.WriteStop 16 4 s stop) : Stops (cpuidBasic x dst s) stop :=
  .past_require hx <| .past_require (by simp [h.isWritable, hc]) <|
  .behind (toU32_of hr hv) (cpuidAnswer_stops_at_destination hp h rfl)

theorem cpuidExtended_stops_at_destination (hx : x.isIntegral = true)
    (hr : x.Readable x.size x.size s) (hv : x.valueIn x.size s = f.toNat)
    (hp : cpuidPriv s.params f = .user ∨ s.priv = .supervisor) (hy : y.isIntegral = true)
    (hr' : y.Readable y.size y.size s) (hv' : y.valueIn y.size s = sub.toNat)
    (hc : dst.canStore 16 = true) (h : dst.WriteStop 16 4 s stop) :
    Stops (cpuidExtended x y dst s) stop :=
  .past_require hx <| .past_require hy <| .past_require (by simp [h.isWritable, hc]) <|
  .behind (toU32_of hr hv) <|
  .behind (toU32_of ((readable_congr rfl y _ _).2 hr') ((valueIn_afterRead y x _ _ s).trans hv')) <|
  cpuidAnswer_stops_at_destination hp h rfl

/-- A register that is not absent is read (R114). -/
theorem msrRead_of_present (h : msrClass s.params f ≠ .absent) : ∃ g, msrRead f s = .next g := by
  cases hm : msrClass s.params f with
  | absent => exact absurd hm h
  | plain legal => exact ⟨_, msrRead_eq_next.2 (.inl ⟨legal, hm, rfl⟩)⟩
  | opaqueReg => exact ⟨_, msrRead_eq_next.2 (.inr ⟨hm, rfl⟩)⟩

theorem rdmsrBody_stops_at_destination (hx : x.isIntegral = true) (hr : x.Readable x.size x.size s)
    (hv : x.valueIn x.size s = f.toNat) (hp : s.priv = .supervisor)
    (hm : msrClass s.params f ≠ .absent) (hc : dst.canStore 8 = true)
    (h : dst.WriteStop 8 8 s stop) : Stops (rdmsrBody x dst s) stop := by
  obtain ⟨g, hg⟩ := msrRead_of_present (s := afterRead x x.size s) hm
  exact .past_require hx <| .past_require (by simp [h.isWritable, hc]) <| .past_supervisor hp <|
    .behind (toU32_of hr hv) <| .behind hg <|
    h.storeBytes (by rw [clobber_params, (msrRead_observed hg).params, afterRead_params])

/-- The counter is present, or nothing is known and the draw says that it is (R121). -/
theorem verdictOrDraw_val_of {known : Option Bool}
    (h : known = some true ∨ known = none ∧ s.drawnVerdict = true) :
    (verdictOrDraw known s).val = true := by
  rcases h with rfl | ⟨rfl, h⟩
  · rfl
  · exact h

theorem rdpmcBody_stops_at_destination (hx : x.isIntegral = true) (hr : x.Readable x.size x.size s)
    (hv : x.valueIn x.size s = f.toNat) (hp : crPce s.cr4 = true ∨ s.priv = .supervisor)
    (hk : pmcVerdict s.params f = some true ∨
      pmcVerdict s.params f = none ∧ s.drawnVerdict = true)
    (hc : dst.canStore 8 = true) (h : dst.WriteStop 8 8 s stop) : Stops (rdpmcBody x dst s) stop :=
  .past_require hx <| .past_require (by simp [h.isWritable, hc]) <|
  .past (requirePmcPriv_eq_next.2 hp) <| .behind (toU32_of hr hv) <|
  .past_require (verdictOrDraw_val_of (s := afterRead x x.size s) hk) <|
  h.storeBytes (by
    rw [clobber_params, (draw_leaves _).observed.params, verdictOrDraw_params, afterRead_params])

end Destination

/-- Settles O53: for each operation the checks before the destination pass, and what goes before it
leaves the parameters its checks rest on. -/
theorem destinationIsCheckedBeforeTheStore : Obligations.DestinationIsCheckedBeforeTheStore := by
  intro e₁ e₂ e₃ x y z f sub port s stop ha h₁ h₂ h₃
  refine ⟨?rdtsc, ?portIn, fun hx hr hv => ⟨fun hp => ⟨?cpuid, ?cpuidExt⟩,
    fun hc h => ⟨?rdmsr, ?rdpmc⟩⟩⟩
  case rdtsc => exact fun hc h hp => run1_stops ha h₁ (rdtscBody_stops_at_destination hc h hp)
  case portIn =>
    exact fun hx hy hr hv hp h =>
      run2_stops ha h₁ h₂ (portInBody_stops_at_destination hx hy hr hv hp h)
  case cpuid =>
    exact fun hc h => run2_stops ha h₁ h₂ (cpuidBasic_stops_at_destination hx hr hv hp hc h)
  case cpuidExt =>
    exact fun hy hr' hv' hc h => run3_stops ha h₁ h₂ h₃
      (cpuidExtended_stops_at_destination hx hr hv hp hy hr' hv' hc h)
  case rdmsr =>
    exact fun hp hm => run2_stops ha h₁ h₂ (rdmsrBody_stops_at_destination hx hr hv hp hm hc h)
  case rdpmc =>
    exact fun hp hk => run2_stops ha h₁ h₂ (rdpmcBody_stops_at_destination hx hr hv hp hk hc h)

end Sys2Proof.Machine
end

section
/-! The decoder and the encoder against each other: the round trip in both directions, Definition T1's
own spelling, and what the decoder answers on bytes that spell no operation (R60 to R62, R65, R66, R76). -/

namespace Sys2Proof

/-! ## Decoding and encoding (R60, R68, R73) -/

/-- Settles O1: each word is closed, and the decoder computes on it. -/
theorem decodesWordsOfTheMap : Obligations.DecodesWordsOfTheMap :=
  ⟨rfl, rfl, rfl, rfl, rfl, rfl, rfl, rfl, rfl⟩

/-- Settles O2: the map gives the opcode back, the count is one its row lists, each operand is read back
whatever follows it, and the map has one operation for them. -/
theorem decodeOfEncodeGivesTheOperation : Obligations.DecodeOfEncodeGivesTheOperation := by
  intro m i rest hi
  obtain ⟨hcounts, hcount⟩ := counts_operands i
  have hargs : decodeOperands m .test i.operands.length (operandBytes i.operands ++ rest) =
      some (i.operands, rest) := decodeOperands_wf i.operands hi
  rw [hcount] at hcounts
  simp only [encode, List.cons_append, decode, Opcode.byte_range, Opcode.ofByte_byte, hcounts, hcount,
    hargs, assemble_operands, if_false, if_true]

/-- Settles O3: the decoder's own inversion names the bytes, and the count byte is no wider than the
number of operands. -/
theorem encodeOfDecodeGivesTheBytes : Obligations.EncodeOfDecodeGivesTheBytes := by
  intro m c bytes rest i h
  obtain ⟨count, tail, rfl, hcount, rfl⟩ := decode_ok h
  simp only [encode, List.cons_append, ← hcount, BitVec.ofNat_toNat, BitVec.setWidth_eq]

/-! ## Definition T1 -/

/-- A number that fits is the value of its own bytes. -/
theorem leField_leBytes_of_lt {n v : Nat} (hv : v < 256 ^ n) : leField n (leBytes n v) = some v := by
  simpa [Nat.mod_eq_of_lt hv] using leField_leBytes n v []

/-- The codec of Definition T1 reads a spelling whole. -/
theorem testCodec_of_testSpell {op : Operand} {text : List Byte} (h : testSpell op = some text) :
    testCodec text = some (.absolute op, text.length) := by
  cases op with
  | imm v =>
    cases v <;> cases h <;>
      simp (disch := omega) [testCodec, testBody, leField_leBytes_of_lt]
  | reg id => cases h; simp (disch := omega) [testCodec, testBody, leField_leBytes_of_lt]
  | mem a n =>
    obtain ⟨hn, htext⟩ := Option.ite_none_right_eq_some.1 h
    cases htext
    simp (disch := omega) [testCodec, testBody, leField_leBytes_of_lt, Nat.mod_eq_of_lt hn]

/-- Settles O4: such a spelling is a well-formed operand. -/
theorem testCodecReadsItsOwnSpelling : Obligations.TestCodecReadsItsOwnSpelling := by
  intro m op text rest hop h
  have hwf : EncodedOperand.wf m .test ⟨text, .absolute op⟩ = true := by
    simp [EncodedOperand.wf, OperandSyntax.inRange, hop, codecDecode, testCodec_of_testSpell h]
  exact decodeOperand_wf hwf

end Sys2Proof
end

section
/-! What the CPU's step does where the decoder answers, and where it does not: the operation's meaning, an
illegal encoding, an unavailable unit, an opcode out of scope (R66, R67, R73, R76, R137 items 1 to 3). -/

namespace Sys2Proof

/-! ## Bytes that spell no operation -/

section NoOperation

variable {m : Mode} {c : Codec} {b n : Byte} {rest : List Byte} {op : Opcode}

theorem decode_outOfScope (h : b.toNat < 0xC0 ∨ 0xDF < b.toNat) :
    decode m c (b :: rest) = .error (.outOfScope b) := if_pos h

theorem decode_reserved (h : 0xD0 ≤ b.toNat) (h' : b.toNat ≤ 0xDF) :
    decode m c (b :: rest) = .error (.reserved b) := by
  have hr : ¬ (b.toNat < 0xC0 ∨ 0xDF < b.toNat) := by omega
  simp only [decode, hr, if_false, Opcode.ofByte_none h]

theorem decode_noCount (h : Opcode.ofByte b = some op) : decode m c [b] = .error (.noCount b) := by
  obtain rfl := Opcode.byte_of_ofByte h
  simp only [decode, op.byte_range, if_false, h]

theorem decode_badCount (h : Opcode.ofByte b = some op) (hn : n.toNat ∉ op.counts) :
    decode m c (b :: n :: rest) = .error (.badCount b n) := by
  obtain rfl := Opcode.byte_of_ofByte h
  simp only [decode, op.byte_range, if_false, h, List.contains_iff_mem, hn]

theorem decode_badOperand (h : Opcode.ofByte b = some op) (hn : n.toNat ∈ op.counts)
    (hd : decodeOperands m c n.toNat rest = none) :
    decode m c (b :: n :: rest) = .error (.badOperand b n) := by
  obtain rfl := Opcode.byte_of_ofByte h
  simp only [decode, op.byte_range, if_false, h, List.contains_iff_mem, hn, if_true, hd]

end NoOperation

namespace Machine

/-! ## The CPU's step by the decoder's answer -/

/-- The CPU's turn is used up, and its step is made (log 9). -/
theorem step_cpuMoves {s : State} (ho : s.outcome = .running) (ht : s.CpuMoves) :
    step s = cpuStep { s with turns := s.turns.tail } := by
  rw [step_running ho, turnStep]
  rcases ht with ht | ht
  · simp only [ht, List.tail_nil]
    rw [← ht]
  · obtain ⟨more, hm⟩ := List.head?_eq_some_iff.1 ht
    simp only [hm, List.tail_cons]

section Answer

variable {s : State} {b : Byte} {rest : List Byte}

theorem step_of_decode_ok {i : Instr} (ho : s.outcome = .running) (ht : s.CpuMoves)
    (hpc : s.pc ≤ s.params.code.length)
    (h : decode s.params.mode s.params.codec (s.params.code.drop s.pc) = .ok (i, rest)) :
    step s = exec i { s with turns := s.turns.tail } := by
  rw [step_cpuMoves ho ht]
  simp only [cpuStep, Nat.not_lt.2 hpc, if_false, State.fetchBytes, h]

theorem step_of_decode_error {e : DecodeError} (ho : s.outcome = .running) (ht : s.CpuMoves)
    (hd : s.params.code.drop s.pc = b :: rest)
    (h : decode s.params.mode s.params.codec (b :: rest) = .error e) :
    step s = noOperation { s with turns := s.turns.tail } e := by
  rw [step_cpuMoves ho ht]
  simp only [cpuStep, pc_le_of_drop hd, if_false, State.fetchBytes, hd, h]

end Answer

/-- Settles O5: both turns of the CPU are one case of `step_of_decode_ok`. -/
theorem stepRunsTheDecodedOperation : Obligations.StepRunsTheDecodedOperation := by
  intro s i rest ho hpc h
  refine ⟨fun ht => ?_, fun more ht => ?_⟩
  · rw [step_of_decode_ok ho (.inl ht) hpc h, ht, List.tail_nil, ← ht]
  · rw [step_of_decode_ok ho (.inr (by rw [ht]; rfl)) hpc h, ht, List.tail_cons]

/-- Settles O9: the range is the decoder's first check, and availability is not asked for behind it. -/
theorem opcodeOutsideTheRangeIsRefused : Obligations.OpcodeOutsideTheRangeIsRefused := by
  intro s b rest ho ht hd hb
  rw [step_of_decode_error ho ht hd (decode_outOfScope hb)]
  rfl

/-- Settles O6: the map assigns nothing from 0xD0 on. -/
theorem reservedOpcodeIsIllegal : Obligations.ReservedOpcodeIsIllegal := by
  intro s b rest ho ht hd hu ha hb hb'
  rw [step_of_decode_error ho ht hd (decode_reserved hb hb')]
  exact illegal_available (available_of hu ha) b none

/-- Settles O7: each failure of R76 is its own decoder error, and all are illegal encodings. -/
theorem illegalCountOrOperandIsInvalidOpcode : Obligations.IllegalCountOrOperandIsInvalidOpcode := by
  intro s b ho ht hu ha hb hb'
  have hav : ({ s with turns := s.turns.tail } : State).available = true := available_of hu ha
  refine ⟨fun hd => ?noCount, fun op n rest hop hd => ⟨fun hn => ?badCount, fun hn he => ?badOperand⟩⟩
  case noCount =>
    obtain ⟨op, hop⟩ := Opcode.ofByte_some hb hb'
    rw [step_of_decode_error ho ht hd (decode_noCount hop)]
    exact illegal_available hav b none
  case badCount =>
    rw [step_of_decode_error ho ht hd (decode_badCount hop hn)]
    exact illegal_available hav b n
  case badOperand =>
    rw [step_of_decode_error ho ht hd (decode_badOperand hop hn he)]
    exact illegal_available hav b n

/-- Where the unit is unavailable, every failure to decode in the range says so. -/
theorem noOperation_unavailable {s : State} {b : Byte} {rest : List Byte} {e : DecodeError} {m : Mode}
    {c : Codec} (hs : s.available = false) (hr : ¬ (b.toNat < 0xC0 ∨ 0xDF < b.toNat))
    (h : decode m c (b :: rest) = .error e) : noOperation s e = .fault (.unavailable b) := by
  rcases decode_error hr h with rfl | rfl | ⟨n, rfl⟩ | ⟨n, rfl⟩ <;> exact illegal_unavailable hs b _

/-- Settles O8: an operation checks availability first, and so does every failure to decode. -/
theorem unavailableRangeRaisesUnavailable : Obligations.UnavailableRangeRaisesUnavailable := by
  intro s b rest ho ht hd hu hb hb'
  have hs : ({ s with turns := s.turns.tail } : State).available = false := unavailable_of hu
  cases h : decode s.params.mode s.params.codec (b :: rest) with
  | error e =>
    rw [step_of_decode_error ho ht hd h]
    exact noOperation_unavailable hs (by omega) h
  | ok r =>
    obtain ⟨i, behind⟩ := r
    obtain ⟨_, _, hbytes, -, -⟩ := decode_ok h
    obtain ⟨rfl, -⟩ := List.cons.inj hbytes
    rw [step_of_decode_ok ho ht (Nat.not_lt.1 (pc_le_of_drop hd)) (hd ▸ h)]
    exact exec_unavailable hs

end Machine

end Sys2Proof
end

section
/-! Operations that stop at an operand before they use it: one that does not resolve or is not admitted,
at any position of any operation (R62, R74, R137 item 4), and a value too wide for a 32-bit register (R64,
R137 item 7). -/

namespace Sys2Proof.Machine

theorem Stops.of_fault {α : Type} {r : Res α} {f : Fault} (h : r = .fault f) : Stops r (.fault f) :=
  fun _ => by rw [h]; rfl

theorem Stops.of_refused {α : Type} {r : Res α} {q : Refusal} (h : r = .refused q) :
    Stops r (.refused q) := fun _ => by rw [h]; rfl

/-! ## Operands left to right (R73) -/

/-- The outcome comes of resolving and admitting these operands first, left to right, the first of them
at this position. -/
def ResolvesFirst (op : Byte) : Nat → List EncodedOperand → State → Res State → Prop
  | _, [], _, _ => True
  | pos, e :: es, s, r =>
    ∃ f, r = andThen (argAt op pos e s) f ∧ ∀ x, ResolvesFirst op (pos + 1) es s (f x)

/-- Behind admitted operands, an operand that stops decides the outcome, at its own position. -/
theorem ResolvesFirst.eq_stop {op : Byte} {e : EncodedOperand} {before after : List EncodedOperand}
    {s : State} {stop r : Res State} {pos : Nat}
    (h : ResolvesFirst op pos (before ++ e :: after) s r)
    (hb : ∀ x ∈ before, (argOf x s).isSome = true)
    (hstop : Stops (argAt op (pos + before.length) e s) stop) : r = stop := by
  induction before generalizing pos r with
  | nil =>
    obtain ⟨f, rfl, -⟩ := h
    exact hstop f
  | cons b before ih =>
    obtain ⟨f, rfl, h⟩ := h
    obtain ⟨hb, hbs⟩ := List.forall_mem_cons.1 hb
    obtain ⟨x, hx⟩ := Option.isSome_iff_exists.1 hb
    rw [argAt_of hx, andThen_next]
    refine ih (h x) hbs ?_
    rwa [List.length_cons, ← Nat.add_assoc, Nat.add_right_comm] at hstop

section Frame

variable {op : Byte} {e₁ e₂ e₃ : EncodedOperand} {s : State}

theorem run1_resolvesFirst {body : Arg → Res State} (ha : s.available = true) :
    ResolvesFirst op 1 [e₁] s (run1 op e₁ s body) := by
  rw [run1, requireAvailable_eq_next (u := ()) |>.2 ha]
  exact ⟨_, rfl, fun _ => trivial⟩

theorem run2_resolvesFirst {body : Arg → Arg → Res State} (ha : s.available = true) :
    ResolvesFirst op 1 [e₁, e₂] s (run2 op e₁ e₂ s body) := by
  rw [run2, requireAvailable_eq_next (u := ()) |>.2 ha]
  exact ⟨_, rfl, fun _ => ⟨_, rfl, fun _ => trivial⟩⟩

theorem run3_resolvesFirst {body : Arg → Arg → Arg → Res State} (ha : s.available = true) :
    ResolvesFirst op 1 [e₁, e₂, e₃] s (run3 op e₁ e₂ e₃ s body) := by
  rw [run3, requireAvailable_eq_next (u := ()) |>.2 ha]
  exact ⟨_, rfl, fun _ => ⟨_, rfl, fun _ => ⟨_, rfl, fun _ => trivial⟩⟩⟩

end Frame

/-- Every operation of an available unit resolves all its operands before anything else. -/
theorem exec_resolvesFirst {s : State} (ha : s.available = true) (i : Instr) :
    ResolvesFirst i.opcode.byte 1 i.operands s (exec i s) :=
  match i with
  | .cli | .sti | .invd | .wbinvd => trivial
  | .lgdt _ | .lidt _ | .lldt _ | .ltr _ | .invlpg _ | .rdtsc _ => run1_resolvesFirst ha
  | .cpuid _ _ | .portIn _ _ | .portOut _ _ | .rdmsr _ _ | .wrmsr _ _ | .rdpmc _ _ =>
    run2_resolvesFirst ha
  | .cpuidExt _ _ _ => run3_resolvesFirst ha

section Operand

variable {op : Byte} {pos : Nat} {e : EncodedOperand} {id : BitVec 16} {s : State}

theorem argAt_of_unresolved (h : resolve e.syn s = none) :
    argAt op pos e s = .refused .operandShape := by
  simp only [argAt, h, refuse]

theorem argAt_of_reg (h : resolve e.syn s = some (.reg id)) :
    argAt op pos e s = admitOperand op pos s.params.mode (.reg id) := by
  simp only [argAt, h]

end Operand

/-- Settles O45: the operand's own check stops, and `ResolvesFirst` carries the stop to the operation. -/
theorem everyOperandIsResolvedAndAdmitted : Obligations.EveryOperandIsResolvedAndAdmitted := by
  intro i before after e s ha hi hb
  have hexec {stop : Res State} (h : Stops (argAt i.opcode.byte (before.length + 1) e s) stop) :
      exec i s = stop := by
    have hfirst := exec_resolvesFirst ha i
    rw [hi] at hfirst
    exact hfirst.eq_stop hb (by rwa [Nat.add_comm])
  refine ⟨fun h => ?unresolved, fun id h => ⟨fun hv => ?absent, fun hv => ?seg, fun hv => ?cr⟩⟩
  case unresolved => exact hexec (.of_refused (argAt_of_unresolved h))
  case absent => exact hexec (.of_fault (by simp only [argAt_of_reg h, admitOperand, hv, raise]))
  case seg => exact hexec (.of_refused (by simp only [argAt_of_reg h, admitOperand, hv, refuse]))
  case cr => exact hexec (.of_refused (by simp only [argAt_of_reg h, admitOperand, hv, refuse]))

/-! ## A value too wide for a 32-bit register (R64) -/

theorem toU32_stops_at_wide_value {op : Byte} {pos : Nat} {x : Arg} {s : State}
    (hr : x.Readable x.size x.size s) (hv : 2 ^ 32 ≤ x.valueIn x.size s) :
    Stops (toU32 op pos x s) (.fault (.invalidOperand op pos)) :=
  .behind (readInt_of hr) <| .of_fault (if_neg (Nat.not_lt.2 hv))

/-- Settles O50: the checks before the value is taken pass, and `to_u32` then stops. -/
theorem wideValueForANarrowRegisterFaults : Obligations.WideValueForANarrowRegisterFaults := by
  intro e₁ e₂ e₃ x y z s ha h₁ h₂ h₃ hx hr
  refine ⟨fun hv => ⟨?cpuid, ?cpuidExt, ?rdmsr, ?wrmsr, ?rdpmc⟩, ?subfunction⟩
  case cpuid =>
    exact fun hw hc => run2_stops ha h₁ h₂ <|
      .past_require hx <| .past_require (by simp [hw, hc]) <|
      (toU32_stops_at_wide_value hr hv).andThen_left
  case cpuidExt =>
    exact fun hy hw hc => run3_stops ha h₁ h₂ h₃ <|
      .past_require hx <| .past_require hy <| .past_require (by simp [hw, hc]) <|
      (toU32_stops_at_wide_value hr hv).andThen_left
  case rdmsr =>
    exact fun hp hw hc => run2_stops ha h₁ h₂ <|
      .past_require hx <| .past_require (by simp [hw, hc]) <| .past_supervisor hp <|
      (toU32_stops_at_wide_value hr hv).andThen_left
  case wrmsr =>
    exact fun hp hy => run2_stops ha h₁ h₂ <|
      .past_require hx <| .past_require hy <| .past_supervisor hp <|
      (toU32_stops_at_wide_value hr hv).andThen_left
  case rdpmc =>
    exact fun hp hw hc => run2_stops ha h₁ h₂ <|
      .past_require hx <| .past_require (by simp [hw, hc]) <|
      .past (requirePmcPriv_eq_next.2 hp) <| (toU32_stops_at_wide_value hr hv).andThen_left
  case subfunction =>
    intro hv hy hr' hv' hw hc
    have hwide : Stops (toU32 0xC0 2 y (afterRead x x.size s)) (.fault (.invalidOperand 0xC0 2)) :=
      toU32_stops_at_wide_value ((readable_afterRead y x _ _ _ s).2 hr')
        ((valueIn_afterRead y x _ _ s).symm ▸ hv')
    exact run3_stops ha h₁ h₂ h₃ <|
      .past_require hx <| .past_require hy <| .past_require (by simp [hw, hc]) <|
      .behind (toU32_eq_next.2 ⟨hr, hv, rfl⟩) hwide.andThen_left

end Sys2Proof.Machine
end

section
/-! The static checks of CPUID, IN and OUT, operands left to right (R80, R81, R86, R87, R137 item 5). -/

namespace Sys2Proof.Machine

/-- A check that fails stops the chain it begins. -/
theorem Stops.at_require {α : Type} {b : Bool} {f : Fault} {k : Unit → Res α} (hb : b = false) :
    Stops (andThen (require b f) k) (.fault f) :=
  (of_fault (require_eq_fault.2 ⟨hb, rfl⟩)).andThen_left

theorem isPort_iff {x : Arg} : isPort x = true ↔ x.isIntegral = true ∧ x.width ∈ [8, 16] := by
  rw [isPort, Bool.and_eq_true, List.contains_iff_mem]

theorem isDatum_iff {x : Arg} : isDatum x = true ↔ x.isIntegral = true ∧ x.width ∈ [8, 16, 32] := by
  rw [isDatum, Bool.and_eq_true, List.contains_iff_mem]

theorem isPort_eq_false {x : Arg} (h : x.isIntegral = false ∨ x.width ∉ [8, 16]) :
    isPort x = false := by
  rwa [← Bool.not_eq_true, isPort_iff, not_and_or, Bool.not_eq_true]

theorem isDatum_eq_false {x : Arg} (h : x.isIntegral = false ∨ x.width ∉ [8, 16, 32]) :
    isDatum x = false := by
  rwa [← Bool.not_eq_true, isDatum_iff, not_and_or, Bool.not_eq_true]

/-- IN's first operand fails as a datum or as a destination. -/
theorem isDatum_and_isWritable_eq_false {x : Arg}
    (h : x.isIntegral = false ∨ x.isWritable = false ∨ x.width ∉ [8, 16, 32]) :
    (isDatum x && x.isWritable) = false := by
  rw [Bool.and_eq_false_iff]
  rcases h with h | h | h
  · exact .inl (isDatum_eq_false (.inl h))
  · exact .inr h
  · exact .inl (isDatum_eq_false (.inr h))

/-- Settles O46: the first static check that fails stops the operation, the ones before it pass. -/
theorem staticChecksOfCpuidInAndOut : Obligations.StaticChecksOfCpuidInAndOut := by
  intro e₁ e₂ e₃ x y z s ha h₁ h₂ h₃
  refine ⟨?cpuid₁, ?cpuid₂, ?ext₁, ?ext₂, ?ext₃, ?in₁, ?in₂, ?out₁, ?out₂⟩
  case cpuid₁ => exact fun hx => run2_stops ha h₁ h₂ (.at_require hx)
  case cpuid₂ => exact fun hx hy => run2_stops ha h₁ h₂ <| .past_require hx (.at_require hy)
  case ext₁ => exact fun hx => run3_stops ha h₁ h₂ h₃ (.at_require hx)
  case ext₂ => exact fun hx hy => run3_stops ha h₁ h₂ h₃ <| .past_require hx (.at_require hy)
  case ext₃ =>
    exact fun hx hy hz =>
      run3_stops ha h₁ h₂ h₃ <| .past_require hx <| .past_require hy (.at_require hz)
  case in₁ =>
    exact fun hx => run2_stops ha h₁ h₂ (.at_require (isDatum_and_isWritable_eq_false hx))
  case in₂ =>
    exact fun hx hw hd hy => run2_stops ha h₁ h₂ <|
      .past_require (by rw [isDatum_iff.2 ⟨hx, hd⟩, hw, Bool.and_self]) <|
      .at_require (isPort_eq_false hy)
  case out₁ => exact fun hx => run2_stops ha h₁ h₂ (.at_require (isPort_eq_false hx))
  case out₂ =>
    exact fun hx hp hy => run2_stops ha h₁ h₂ <|
      .past_require (isPort_iff.2 ⟨hx, hp⟩) (.at_require (isDatum_eq_false hy))

end Sys2Proof.Machine
end

section
/-! CPUID completes, in both forms, and stores an answer that `CPUID_VALUE` admits (R80, R81, R82). -/

namespace Sys2Proof.Machine

/-- What both forms leave before `pc` moves: the answer picked, stored behind the drawn cells. -/
def cpuidStored (f sub : BitVec 32) (a n : Nat) (s : State) : State :=
  putBytes (.mem a n) 16 (quadNat (cpuidPick f sub s).val)
    (clobber [.a, .b, .c, .d] (cpuidPick f sub s).st)

/-! ## The effect -/

section Effect

variable {f sub : BitVec 32} {a n k : Nat} {s t : State}

/-- Answer, bytes, events and frame, from any state that reads and draws alone have led to. -/
theorem cpuidStored_effect {events : List Event}
    (ht : ∃ m, t = { s with history := s.history ++ events, drawn := m }) :
    let q := (cpuidPick f sub t).val
    let u := (cpuidStored f sub a n t).advance k
    CpuidAdmits s.params f sub q ∧
      (u.bytesAt a 4 = leBytes 4 q.eax.toNat ∧ u.bytesAt (a + 4) 4 = leBytes 4 q.ebx.toNat ∧
        u.bytesAt (a + 8) 4 = leBytes 4 q.ecx.toNat ∧
        u.bytesAt (a + 12) 4 = leBytes 4 q.edx.toNat) ∧
      u.pc = s.pc + k ∧
      u.history = s.history ++ events ++ [.memWrite a 16 (quadNat q)] ∧
      SameFixed s u ∧ SameSpecial s u ∧ SameCells [.a, .b, .c, .d] none s u ∧
      SameMemoryBut (.mem a n) 16 s u := by
  intro q u
  obtain ⟨m, hm⟩ := ht
  have hparams : t.params = s.params := by rw [hm]
  have hdrawn : ∃ m, (cpuidPick f sub t).st =
      { s with history := s.history ++ events, drawn := m } := by
    obtain ⟨j, hj⟩ := cpuidPick_leaves f sub t
    exact ⟨j, by rw [hj, hm]⟩
  obtain ⟨-, hframe⟩ := clobber_put_frame (n := k) (cs := [.a, .b, .c, .d]) hdrawn
    (dst := .mem a n) rfl (by simp) (quadNat_lt q)
  refine ⟨hparams ▸ cpuidPick_admits f sub t, ?_, hframe⟩
  simp only [u, bytesAt_advance]
  exact quad_parts q _ a

theorem bytesAt_cpuidStored :
    ((cpuidStored f sub a n s).advance k).bytesAt a 16 =
      leBytes 16 (quadNat (cpuidPick f sub s).val) := by
  rw [bytesAt_advance]
  exact bytesAt_store _ a 16 _

end Effect

/-! ## Completion -/

section Completion

variable {e d r : EncodedOperand} {x y : Arg} {f sub : BitVec 32} {a n : Nat} {s t : State}

/-- Reads and draws leave what the shared part's checks rest on. -/
theorem cpuidAnswer_of (ht : Observed s t)
    (hp : cpuidPriv s.params f = .user ∨ s.priv = .supervisor)
    (hs : (Arg.mem a n).Storable 16 4 s) :
    cpuidAnswer f sub (.mem a n) t = .next (cpuidStored f sub a n t) := by
  have hclobber : (clobber [.a, .b, .c, .d] (cpuidPick f sub t).st).params = s.params := by
    rw [clobber_params, (ht.trans (cpuidPick_leaves f sub t).observed).params]
  exact (cpuidAnswer_eq_next rfl).2
    ⟨by rw [ht.params]; exact hp.imp_right ht.supervisor, (storable_congr hclobber _ _ _).2 hs, rfl⟩

variable (ha : s.available = true) (he : argOf e s = some x) (hd : argOf d s = some y)
  (hr : argOf r s = some (.mem a n)) (hn : 16 ≤ n) (hx : x.isIntegral = true)
  (hy : y.isIntegral = true) (hxr : x.Readable x.size x.size s)
  (hxv : x.valueIn x.size s = f.toNat) (hyr : y.Readable y.size y.size s)
  (hyv : y.valueIn y.size s = sub.toNat)
  (hp : cpuidPriv s.params f = .user ∨ s.priv = .supervisor)
  (hs : (Arg.mem a n).Storable 16 4 s)

include ha he hr hn hx hxr hxv hp hs

/-- The basic form draws its subfunction behind the read of the function (R80). -/
theorem exec_cpuid_of :
    exec (.cpuid e r) s =
      .next ((cpuidStored f ((draw (afterRead x x.size s)).val.setWidth 32) a n
        (draw (afterRead x x.size s)).st).advance (opLength [e, r])) :=
  execCpuid_eq_next.2 ⟨ha, x, he, _, hr, hx, rfl, decide_eq_true hn, _, toU32_of hxr hxv, _,
    cpuidAnswer_of ((afterRead_observed x _ s).trans (draw_leaves _).observed) hp hs, rfl⟩

include hd hy hyr hyv

/-- The extended form reads its subfunction behind the function (R81). -/
theorem exec_cpuidExt_of :
    exec (.cpuidExt e d r) s =
      .next ((cpuidStored f sub a n (afterRead y y.size (afterRead x x.size s))).advance
        (opLength [e, d, r])) :=
  execCpuidExt_eq_next.2 ⟨ha, x, he, y, hd, _, hr, hx, hy, rfl, decide_eq_true hn, _,
    toU32_of hxr hxv, _,
    toU32_of ((readable_afterRead y x _ _ _ s).2 hyr) ((valueIn_afterRead y x _ _ s).trans hyv), _,
    cpuidAnswer_of ((afterRead_observed x _ s).trans (afterRead_observed y _ _)) hp hs, rfl⟩

end Completion

/-- Settles O28: the subfunction is the one drawn, the answer the one picked. -/
theorem cpuidBasicStoresAnAdmittedAnswer : Obligations.CpuidBasicStoresAnAdmittedAnswer := by
  intro e r x f a n s ha he hr hn hx hxr hxv hp hs
  obtain ⟨hq, ⟨h0, h4, h8, h12⟩, hpc, hhist, hframe⟩ :=
    cpuidStored_effect (f := f) (a := a) (n := n) (s := s) (k := opLength [e, r])
      (sub := (draw (afterRead x x.size s)).val.setWidth 32) (t := (draw (afterRead x x.size s)).st)
      ⟨_, rfl⟩
  exact ⟨_, _, _, exec_cpuid_of ha he hr hn hx hxr hxv hp hs, hq, h0, h4, h8, h12,
    by rw [hpc]; simp only [opLength]; omega, hhist, hframe⟩

/-- Settles O29: the subfunction is the one given, the answer the one picked. -/
theorem cpuidExtendedStoresAnAdmittedAnswer : Obligations.CpuidExtendedStoresAnAdmittedAnswer := by
  intro e d r x y f sub a n s ha he hd hr hn hx hy hxr hxv hyr hyv hp hs
  have hreads : afterRead y y.size (afterRead x x.size s) =
      { s with history := s.history ++ (x.readEvents x.size s ++ y.readEvents y.size s) } := by
    rw [afterRead, readEvents_afterRead, afterRead_history, List.append_assoc]; rfl
  obtain ⟨hq, ⟨h0, h4, h8, h12⟩, hpc, hhist, hframe⟩ :=
    cpuidStored_effect (f := f) (sub := sub) (a := a) (n := n) (k := opLength [e, d, r])
      ⟨s.drawn, hreads⟩
  exact ⟨_, _, exec_cpuidExt_of ha he hd hr hn hx hy hxr hxv hyr hyv hp hs, hq, h0, h4, h8, h12,
    by rw [hpc]; simp only [opLength]; omega, by rw [hhist, ← List.append_assoc], hframe⟩

end Sys2Proof.Machine
end

section
/-! Every answer `CPUID_VALUE` admits is the one picked under some draws (R8, R82, log 7). -/

namespace Sys2Proof.Machine

/-! ## The values drawn next -/

/-- The next values drawn are these. -/
def NextDraws (vs : List (BitVec 64)) (s : State) : Prop :=
  ∀ ⦃j v⦄, vs[j]? = some v → drawnValue s.params (s.drawn + j) = v

theorem nextDraws_drawsThen (s : State) (vs : List (BitVec 64)) :
    NextDraws vs (s.withDraws (drawsThen s vs)) := fun _ _ => drawnValue_drawsThen_add

theorem nextDraws_afterRead {vs : List (BitVec 64)} {s : State} (x : Arg) (k : Nat)
    (h : NextDraws vs s) : NextDraws vs (afterRead x k s) := h

theorem NextDraws.draw_val {v : BitVec 64} {vs : List (BitVec 64)} {s : State}
    (h : NextDraws (v :: vs) s) : (draw s).val = v := h (j := 0) rfl

theorem NextDraws.draw_st {v : BitVec 64} {vs : List (BitVec 64)} {s : State}
    (h : NextDraws (v :: vs) s) : NextDraws vs (draw s).st := fun j w hw => by
  rw [draw_params, draw_drawn, Nat.add_assoc, Nat.add_comm 1]
  exact h (j := j + 1) hw

/-! ## An answer by its draws -/

/-- The draws that spell an answer of the full set. -/
def quadDraws (q : CpuidQuad) : List (BitVec 64) :=
  [q.eax.setWidth 64, q.ebx.setWidth 64, q.ecx.setWidth 64, q.edx.setWidth 64]

/-- The draws that spell an index below `n`, least significant word first. -/
def indexDraws (n i : Nat) : List (BitVec 64) :=
  (List.range (n.log2 / 64 + 1)).map fun j => BitVec.ofNat 64 (i / 2 ^ (64 * j))

theorem drawQuad_of_quadDraws {q : CpuidQuad} {s : State} (h : NextDraws (quadDraws q) s) :
    (drawQuad s).val = q := by
  have hb := h.draw_st
  have hc := hb.draw_st
  have hd := hc.draw_st
  simp [drawQuad, h.draw_val, hb.draw_val, hc.draw_val, hd.draw_val]

theorem drawIndex_of_indexDraws {n i : Nat} {s : State} (hi : i < n)
    (h : NextDraws (indexDraws n i) s) : (drawIndex n s).val = i :=
  drawIndex_val n i s hi fun j hj => h (by simp [indexDraws, hj])

/-- The draws rest on the row alone, so they do not change the set they pick from. -/
theorem exists_nextDraws_cpuidPick {p : Params} {f sub : BitVec 32} {q : CpuidQuad}
    (h : CpuidAdmits p f sub q) :
    ∃ vs, ∀ ⦃t : State⦄, NextDraws vs t → cpuidRow t.params f sub = cpuidRow p f sub →
      (cpuidPick f sub t).val = q := by
  unfold CpuidAdmits at h
  cases hrow : cpuidRow p f sub with
  | none =>
    refine ⟨quadDraws q, fun t hd ht => ?_⟩
    simpa only [cpuidPick, ht] using drawQuad_of_quadDraws hd
  | some row =>
    obtain ⟨fn, sb, first, others⟩ := row
    simp only [hrow] at h
    cases others with
    | nil =>
      refine ⟨[], fun t _ ht => ?_⟩
      simpa [cpuidPick, ht, eq_comm] using h
    | cons q₁ qs =>
      obtain ⟨i, hi, hq⟩ := List.getElem_of_mem (List.mem_cons.2 h)
      have hlen : i < qs.length + 2 := hi
      refine ⟨indexDraws (qs.length + 2) i, fun t hd ht => ?_⟩
      simp only [cpuidPick, ht, drawIndex_of_indexDraws hlen hd]
      rw [List.getElem?_eq_getElem hi, Option.getD_some, hq]

/-! ## What a launch's draws leave -/

theorem readable_withDraws {x : Arg} {k e : Nat} {s : State} (ds : List (BitVec 64))
    (h : x.Readable k e s) : x.Readable k e (s.withDraws ds) := h

theorem storable_withDraws {x : Arg} {k e : Nat} {s : State} (ds : List (BitVec 64))
    (h : x.Storable k e s) : x.Storable k e (s.withDraws ds) := h

@[simp] theorem valueIn_withDraws (x : Arg) (k : Nat) (s : State) (ds : List (BitVec 64)) :
    x.valueIn k (s.withDraws ds) = x.valueIn k s := by
  cases x with
  | imm v => rfl
  | gpr cell w => rfl
  | mem a n => exact congrArg leNat (bytesAt_congr fun _ _ => rfl)

/-- Settles O56: the draws spell the answer, behind the subfunction's in the basic form. -/
theorem everyAdmittedCpuidAnswerCanBeStored : Obligations.EveryAdmittedCpuidAnswerCanBeStored := by
  intro e d r x y f sub q a n s ha he hd hr hn hx hy hxr hxv hyr hyv hp hs hq
  obtain ⟨vs, hpick⟩ := exists_nextDraws_cpuidPick hq
  refine ⟨⟨drawsThen s (sub.setWidth 64 :: vs), _, exec_cpuid_of ha (he _) (hr _) hn hx
    (readable_withDraws _ hxr) ((valueIn_withDraws ..).trans hxv) hp (storable_withDraws _ hs), ?basic⟩,
    drawsThen s vs, _, exec_cpuidExt_of ha (he _) (hd _) (hr _) hn hx hy
    (readable_withDraws _ hxr) ((valueIn_withDraws ..).trans hxv) (readable_withDraws _ hyr)
    ((valueIn_withDraws ..).trans hyv) hp (storable_withDraws _ hs), ?extended⟩
  case basic =>
    have hnext := nextDraws_afterRead x x.size (nextDraws_drawsThen s (sub.setWidth 64 :: vs))
    have hsub : (sub.setWidth 64).setWidth 32 = sub := by simp
    rw [bytesAt_cpuidStored, hnext.draw_val, hsub, hpick hnext.draw_st rfl]
  case extended =>
    have hnext := nextDraws_afterRead y y.size <|
      nextDraws_afterRead x x.size (nextDraws_drawsThen s vs)
    rw [bytesAt_cpuidStored, hpick hnext rfl]

end Sys2Proof.Machine
end

section
/-! IN and OUT complete: the device's answer in the destination, the value sent to the port
(R85, R86, R87). -/

namespace Sys2Proof.Machine

/-! ## A register destination, by the width of its view (R15) -/

section View

variable {cell : GprCell} {k v : Nat} {s : State}

theorem putBytes_gpr_16_upper (hm : s.params.mode ≠ .m16) (hv : v < 2 ^ 16) :
    ((putBytes (.gpr cell 16) k v s).gpr.get cell).toNat / 2 ^ 16 =
      (s.gpr.get cell).toNat / 2 ^ 16 := by
  rw [putBytes, writeView_get_same, toNat_cellAfter_16 hm _ hv]
  omega

theorem putBytes_gpr_32 (hv : v < 2 ^ 32) :
    ((putBytes (.gpr cell 32) k v s).gpr.get cell).toNat = v := by
  rw [putBytes, writeView_get_same]
  exact toNat_cellAfter_whole (by simp) (by decide) _ hv

end View

/-! ## IN (R86) -/

/-- What IN leaves before `pc` moves: the device's answer, stored behind the drawn cells. -/
def portInStored (port : BitVec 16) (dst : Arg) (s : State) : State :=
  putBytes dst dst.size (ioRead port dst.size s).val (clobber [.a, .d] (ioRead port dst.size s).st)

section PortIn

variable {d p : EncodedOperand} {dst x : Arg} {port : BitVec 16} {s : State}

theorem exec_portIn_of (ha : s.available = true) (hd : argOf d s = some dst)
    (hp : argOf p s = some x) (hdatum : isDatum dst = true) (hw : dst.isWritable = true)
    (hport : isPort x = true) (hr : x.Readable x.size x.size s)
    (hv : x.valueIn x.size s = port.toNat)
    (hio : ioPermitted s.params s.priv port dst.size = true)
    (hs : dst.Storable dst.size dst.size s) :
    exec (.portIn d p) s =
      .next ((portInStored port dst (afterRead x x.size s)).advance (opLength [d, p])) :=
  execPortIn_eq_next.2 ⟨ha, dst, hd, x, hp, hdatum, hw, hport, hr, by simpa [hv] using hio, hs,
    by simp [portInStored, hv]⟩

/-- A port read adds its one event behind those of the reads before it. -/
theorem ioRead_afterRead_st (n : Nat) :
    (ioRead port n (afterRead x x.size s)).st =
      { s with history := s.history ++ (x.readEvents x.size s ++
          [.ioRead port n (ioAnswer s.params (s.history ++ x.readEvents x.size s) port n)]) } := by
  rw [ioRead_st, State.log, afterRead_history, List.append_assoc]
  rfl

/-- The device's answer fits the destination's width. -/
theorem ioRead_val_lt (h : isDatum dst = true) : (ioRead port dst.size s).val < 2 ^ dst.width := by
  rw [isDatum_width h, pow_mul]
  exact ioAnswer_lt ..

/-- Where the working cells spare it, what stands above bit 15 outlives a 16-bit answer. -/
theorem portInStored_gpr_16_upper {cell : GprCell} (hm : s.params.mode ≠ .m16)
    (hc : s.params.clobber = .preserve ∨ cell ∉ [GprCell.a, GprCell.d]) :
    ((portInStored port (.gpr cell 16) s).gpr.get cell).toNat / 2 ^ 16 =
      (s.gpr.get cell).toNat / 2 ^ 16 := by
  rw [portInStored, putBytes_gpr_16_upper (by rwa [clobber_params, ioRead_st])
    (ioRead_val_lt (dst := .gpr cell 16) rfl), clobber_get _ (ioRead port _ s).st cell hc,
    ioRead_st, State.log_gpr]

/-- A 32-bit answer is the whole cell. -/
theorem portInStored_gpr_32 {cell : GprCell} :
    ((portInStored port (.gpr cell 32) s).gpr.get cell).toNat =
      (ioRead port (Arg.gpr cell 32).size s).val :=
  putBytes_gpr_32 (ioRead_val_lt (dst := .gpr cell 32) rfl)

end PortIn

/-- Settles O30: the shared frame of a clobber and a store, and the two widths of a register view that
tell what becomes of the rest of the cell. -/
theorem inStoresTheDevicesAnswer : Obligations.InStoresTheDevicesAnswer := by
  intro d p dst x port s ha hd hp hdatum hw hport hr hv hio hs
  have hview : ∀ cell w, dst = .gpr cell w → w = 8 * dst.size ∧ w ≤ 64 := by
    rintro cell w rfl
    exact ⟨isDatum_width hdatum, argOf_gpr_le hd⟩
  obtain ⟨hholds, hpc, hhist, hframe⟩ :=
    clobber_put_frame (n := opLength [d, p]) (cs := [.a, .d]) ⟨s.drawn, ioRead_afterRead_st _⟩ hw
      hview (ioAnswer_lt s.params (s.history ++ x.readEvents x.size s) port dst.size)
  refine ⟨_, _, exec_portIn_of ha hd hp hdatum hw hport hr hv hio hs, rfl, ioAnswer_lt .., hholds,
    ?upper, ?whole, ?pc, ?history, hframe⟩
  case upper =>
    rintro cell rfl hm hc
    exact portInStored_gpr_16_upper (s := afterRead x x.size s) hm hc
  case whole =>
    rintro cell rfl
    exact portInStored_gpr_32 (s := afterRead x x.size s)
  case pc => exact hpc.trans (by simp only [opLength]; omega)
  case history => exact hhist.trans (by rw [← List.append_assoc])

/-! ## OUT (R87) -/

section PortOut

variable {p v : EncodedOperand} {x y : Arg} {port : BitVec 16} {s r : State}

theorem exec_portOut_of (ha : s.available = true) (hp : argOf p s = some x)
    (hv : argOf v s = some y) (hport : isPort x = true) (hdatum : isDatum y = true)
    (hxr : x.Readable x.size x.size s) (hxv : x.valueIn x.size s = port.toNat)
    (hyr : y.Readable y.size y.size s)
    (hio : ioPermitted s.params s.priv port y.size = true) :
    exec (.portOut p v) s =
      .next ((clobber [.a, .d] (ioWrite port y.size (y.valueIn y.size s)
        (afterRead y y.size (afterRead x x.size s)))).advance (opLength [p, v])) :=
  execPortOut_eq_next.2 ⟨ha, x, hp, y, hv, hport, hdatum, hxr, hyr, by simpa [hxv] using hio,
    by simp [hxv]⟩

/-- An operation that stores nothing changes the working cells alone. -/
theorem clobber_frame {cs : List GprCell} {n : Nat} (h : Observed s r) :
    let t := (clobber cs r).advance n
    SameFixed s t ∧ SameSpecial s t ∧ SameCells cs none s t ∧ SameMemory s t := by
  have hd := clobber_delivered cs r
  have hfixed := (h.continues.trans hd.continues).fixed
  obtain ⟨events, m, rfl⟩ := h
  exact ⟨{ hfixed with }, { hd.special with }, fun cell _ hc => clobber_get cs _ cell hc,
    clobber_mem .., clobber_cache .., visible_clobber _ _⟩

end PortOut

/-- Settles O31: two reads and the write event are observations, and only the clobber follows. -/
theorem outSendsTheValue : Obligations.OutSendsTheValue := by
  intro p v x y port s ha hp hv hport hdatum hxr hxv hyr hio
  have hobserved : Observed s (ioWrite port y.size (y.valueIn y.size s)
      (afterRead y y.size (afterRead x x.size s))) :=
    ((afterRead_observed ..).trans (afterRead_observed ..)).trans (ioWrite_observed ..)
  refine ⟨_, exec_portOut_of ha hp hv hport hdatum hxr hxv hyr hio, ?history, ?pc,
    clobber_frame hobserved⟩
  case history => simp [ioWrite_eq]
  case pc =>
    simp only [State.advance_pc, clobber_pc, ioWrite_eq, State.log_pc, afterRead_pc, opLength]
    omega

end Sys2Proof.Machine
end

section
/-! The refusals an operation can answer (R62, R74, R43, R52, R115): none of them is the delivery of an
interrupt, which an announcement alone brings about, and only with IF set (R90, R143). -/

namespace Sys2Proof.Machine

/-! ## The refusals of an operation's own checks -/

/-- The refusals of R133 that stand in an operation's meaning, not in the fetch or at a boundary. -/
def Refusal.ofOperation : Refusal → Bool
  | .operandShape | .regClass | .misaligned | .codeWrite | .msrOpaqueWrite _ => true
  | .notModelled _ | .outOfScopeOpcode _ | .interruptDelivery _ | .pcBeyondCode => false

/-- What is refused, if anything is, is one of those. -/
def RefusalsOfOperation {α : Type} : Res α → Prop
  | .next _ | .fault _ => True
  | .refused r => r.ofOperation = true

section Chain

variable {α β : Type} {x : Res α}

theorem RefusalsOfOperation.andThen {f : α → Res β} (hx : RefusalsOfOperation x)
    (hf : ∀ a, RefusalsOfOperation (f a)) : RefusalsOfOperation (andThen x f) := by
  cases x with
  | next a => exact hf a
  | fault => trivial
  | refused => exact hx

/-- A condition that fails raises: it refuses nothing. -/
theorem RefusalsOfOperation.behind_require {b : Bool} {f : Fault} {g : Unit → Res β}
    (hg : ∀ u, RefusalsOfOperation (g u)) : RefusalsOfOperation (Machine.andThen (require b f) g) := by
  cases b with
  | true => exact hg ()
  | false => trivial

theorem RefusalsOfOperation.ne_interruptDelivery (hx : RefusalsOfOperation x) (v : Nat) :
    x ≠ .refused (.interruptDelivery v) := by
  rintro rfl
  cases hx

end Chain

/-! ## Operand access (R64) and operand resolution (R62, R74) -/

theorem checkAlign_refusals (a e : Nat) (s : State) : RefusalsOfOperation (checkAlign a e s) := by
  unfold checkAlign
  split
  · rfl
  · trivial

theorem checkRead_refusals (a n : Nat) (s : State) : RefusalsOfOperation (checkRead a n s) := by
  unfold checkRead
  split <;> trivial

theorem checkWrite_refusals (a n : Nat) (s : State) : RefusalsOfOperation (checkWrite a n s) := by
  unfold checkWrite
  split
  · split
    · rfl
    · trivial
  · trivial

theorem loadBytes_refusals (x : Arg) (k e : Nat) (s : State) :
    RefusalsOfOperation (loadBytes x k e s) := by
  cases x with
  | imm => trivial
  | gpr => trivial
  | mem a n =>
    exact (checkAlign_refusals a e s).andThen fun _ =>
      (checkRead_refusals a k s).andThen fun _ => trivial

theorem readInt_refusals (x : Arg) (s : State) : RefusalsOfOperation (readInt x s) :=
  loadBytes_refusals x x.size x.size s

theorem toU32_refusals (op : Byte) (pos : Nat) (x : Arg) (s : State) :
    RefusalsOfOperation (toU32 op pos x s) :=
  (readInt_refusals x s).andThen fun g => by split <;> trivial

theorem checkDest_refusals (x : Arg) (k e : Nat) (s : State) :
    RefusalsOfOperation (checkDest x k e s) := by
  cases x with
  | imm => trivial
  | gpr => trivial
  | mem a n => exact (checkAlign_refusals a e s).andThen fun _ => checkWrite_refusals a k s

theorem storeBytes_refusals (x : Arg) (k e v : Nat) (s : State) :
    RefusalsOfOperation (storeBytes x k e v s) :=
  (checkDest_refusals x k e s).andThen fun _ => trivial

theorem admitOperand_refusals (op : Byte) (pos : Nat) (m : Mode) (o : Operand) :
    RefusalsOfOperation (admitOperand op pos m o) := by
  cases o with
  | imm => trivial
  | mem => trivial
  | reg id =>
    simp only [admitOperand]
    split
    · trivial
    · trivial
    · rfl
    · rfl

theorem argAt_refusals (op : Byte) (pos : Nat) (e : EncodedOperand) (s : State) :
    RefusalsOfOperation (argAt op pos e s) := by
  unfold argAt
  split
  · rfl
  · exact admitOperand_refusals ..

/-! ## The frame of a meaning (R73) -/

section Frame

variable {op : Byte} {e₁ e₂ e₃ : EncodedOperand} {s : State}

theorem run0_refusals {body : Res State} (h : RefusalsOfOperation body) :
    RefusalsOfOperation (run0 op s body) :=
  .behind_require fun _ => h.andThen fun _ => trivial

theorem run1_refusals {body : Arg → Res State} (h : ∀ x, RefusalsOfOperation (body x)) :
    RefusalsOfOperation (run1 op e₁ s body) :=
  .behind_require fun _ => (argAt_refusals op 1 e₁ s).andThen fun x => (h x).andThen fun _ => trivial

theorem run2_refusals {body : Arg → Arg → Res State} (h : ∀ x y, RefusalsOfOperation (body x y)) :
    RefusalsOfOperation (run2 op e₁ e₂ s body) :=
  .behind_require fun _ => (argAt_refusals op 1 e₁ s).andThen fun x =>
    (argAt_refusals op 2 e₂ s).andThen fun y => (h x y).andThen fun _ => trivial

theorem run3_refusals {body : Arg → Arg → Arg → Res State}
    (h : ∀ x y z, RefusalsOfOperation (body x y z)) :
    RefusalsOfOperation (run3 op e₁ e₂ e₃ s body) :=
  .behind_require fun _ => (argAt_refusals op 1 e₁ s).andThen fun x =>
    (argAt_refusals op 2 e₂ s).andThen fun y => (argAt_refusals op 3 e₃ s).andThen fun z =>
      (h x y z).andThen fun _ => trivial

end Frame

/-! ## The meanings -/

section Meanings

variable {x y dst : Arg} {s : State}

theorem cpuidAnswer_refusals (f sub : BitVec 32) : RefusalsOfOperation (cpuidAnswer f sub dst s) :=
  .behind_require fun _ => storeBytes_refusals ..

theorem cpuidBasic_refusals : RefusalsOfOperation (cpuidBasic x dst s) :=
  .behind_require fun _ => .behind_require fun _ => (toU32_refusals ..).andThen fun _ =>
    cpuidAnswer_refusals ..

theorem cpuidExtended_refusals : RefusalsOfOperation (cpuidExtended x y dst s) :=
  .behind_require fun _ => .behind_require fun _ => .behind_require fun _ =>
    (toU32_refusals ..).andThen fun _ => (toU32_refusals ..).andThen fun _ => cpuidAnswer_refusals ..

theorem portInBody_refusals : RefusalsOfOperation (portInBody dst x s) :=
  .behind_require fun _ => .behind_require fun _ => (readInt_refusals ..).andThen fun _ =>
    .behind_require fun _ => (checkDest_refusals ..).andThen fun _ => trivial

theorem portOutBody_refusals : RefusalsOfOperation (portOutBody x y s) :=
  .behind_require fun _ => .behind_require fun _ => (readInt_refusals ..).andThen fun _ =>
    (readInt_refusals ..).andThen fun _ => .behind_require fun _ => trivial

theorem readTableReg_refusals (op : Byte) : RefusalsOfOperation (readTableReg op x s) :=
  .behind_require fun _ => .behind_require fun _ => (loadBytes_refusals ..).andThen fun _ => trivial

theorem readSelector_refusals (op : Byte) (w : SelectorOp) :
    RefusalsOfOperation (readSelector op w x s) :=
  .behind_require fun _ => .behind_require fun _ => (readInt_refusals ..).andThen fun _ =>
    .behind_require fun _ => trivial

theorem msrRead_refusals (idx : BitVec 32) : RefusalsOfOperation (msrRead idx s) := by
  unfold msrRead
  split <;> trivial

theorem msrWrite_refusals (idx : BitVec 32) (v : BitVec 64) :
    RefusalsOfOperation (msrWrite idx v s) := by
  unfold msrWrite
  split
  · trivial
  · rfl
  · split <;> trivial

theorem rdmsrBody_refusals : RefusalsOfOperation (rdmsrBody x dst s) :=
  .behind_require fun _ => .behind_require fun _ => .behind_require fun _ =>
    (toU32_refusals ..).andThen fun _ => (msrRead_refusals _).andThen fun _ => storeBytes_refusals ..

theorem wrmsrBody_refusals : RefusalsOfOperation (wrmsrBody x y s) :=
  .behind_require fun _ => .behind_require fun _ => .behind_require fun _ =>
    (toU32_refusals ..).andThen fun _ => (loadBytes_refusals ..).andThen fun _ =>
      (msrWrite_refusals ..).andThen fun _ => trivial

theorem rdpmcBody_refusals : RefusalsOfOperation (rdpmcBody x dst s) :=
  .behind_require fun _ => .behind_require fun _ => .behind_require fun _ =>
    (toU32_refusals ..).andThen fun _ => .behind_require fun _ => storeBytes_refusals ..

theorem rdtscBody_refusals : RefusalsOfOperation (rdtscBody dst s) :=
  .behind_require fun _ => .behind_require fun _ => storeBytes_refusals ..

/-- Whatever an operation refuses, one of its own checks refused. -/
theorem exec_refusals (i : Instr) (s : State) : RefusalsOfOperation (exec i s) := by
  cases i with
  | cpuid => exact run2_refusals fun _ _ => cpuidBasic_refusals
  | cpuidExt => exact run3_refusals fun _ _ _ => cpuidExtended_refusals
  | portIn => exact run2_refusals fun _ _ => portInBody_refusals
  | portOut => exact run2_refusals fun _ _ => portOutBody_refusals
  | cli | sti | invd | wbinvd => exact run0_refusals (.behind_require fun _ => trivial)
  | lgdt | lidt => exact run1_refusals fun _ => (readTableReg_refusals _).andThen fun _ => trivial
  | lldt | ltr => exact run1_refusals fun _ => (readSelector_refusals ..).andThen fun _ => trivial
  | invlpg => exact run1_refusals fun _ => .behind_require fun _ => .behind_require fun _ => trivial
  | rdmsr => exact run2_refusals fun _ _ => rdmsrBody_refusals
  | wrmsr => exact run2_refusals fun _ _ => wrmsrBody_refusals
  | rdpmc => exact run2_refusals fun _ _ => rdpmcBody_refusals
  | rdtsc => exact run1_refusals fun _ => rdtscBody_refusals

end Meanings

/-! ## Delivery (R143) -/

theorem illegal_refusals (s : State) (b : Byte) (n : Option Byte) :
    RefusalsOfOperation (illegal s b n) :=
  .behind_require fun _ => trivial

theorem noOperation_ne_interruptDelivery (s : State) (e : DecodeError) (v : Nat) :
    noOperation s e ≠ .refused (.interruptDelivery v) := by
  cases e with
  | empty => simp [noOperation]
  | outOfScope => simp [noOperation, refuse]
  | reserved | noCount | badCount | badOperand => exact (illegal_refusals ..).ne_interruptDelivery v

/-- The CPU's own step delivers nothing, whatever IF says. -/
theorem cpuStep_ne_interruptDelivery (s : State) (v : Nat) :
    cpuStep s ≠ .refused (.interruptDelivery v) := by
  unfold cpuStep
  split
  · simp [refuse]
  · split
    · exact noOperation_ne_interruptDelivery s _ v
    · exact (exec_refusals _ s).ne_interruptDelivery v

theorem announce_of_if_clear {s : State} (h : ifOf s.eflags = false) (v : Nat) :
    announce v s = .next s :=
  if_neg fun hs => by simp [h] at hs

theorem announce_of_if_set {s : State} (hpc : s.pc ≠ 0) (h : ifOf s.eflags = true) (v : Nat) :
    announce v s = .refused (.interruptDelivery v) :=
  if_pos ⟨hpc, h⟩

/-- Settles O20: of the agents the interrupt source alone delivers, and it keeps pending what it
announces. -/
theorem noDeliveryWhileIfIsClear : Obligations.NoDeliveryWhileIfIsClear := by
  intro s v ho hif
  rw [step_running ho]
  unfold turnStep
  split
  next => exact cpuStep_ne_interruptDelivery s v
  next => exact cpuStep_ne_interruptDelivery _ v
  next => simp
  next w rest _ =>
    rw [announce_of_if_clear (s := { s with turns := rest }) hif]
    simp

end Sys2Proof.Machine
end

section
/-! CLI and STI: IF alone is written, and what it then holds decides whether an announcement at the next
boundary is delivered (R20, R90, R91, R92, R143). -/

namespace Sys2Proof.Machine

/-! ## IF of EFLAGS (R20) -/

theorem withIf_false (e : BitVec 32) : withIf e false = e &&& 0xFFFFFDFF#32 := rfl

theorem withIf_true (e : BitVec 32) : withIf e true = e ||| 0x00000200#32 := rfl

@[simp] theorem ifOf_withIf (e : BitVec 32) (b : Bool) : ifOf (withIf e b) = b := by
  cases b <;> simp [ifOf, withIf, ifBit]

/-! ## The two operations -/

/-- An operation without operands that needs supervisor stops at user level before it does anything. -/
theorem run0_requireSupervisor_of_user {op : Byte} {s : State} {f : Unit → Res State}
    (ha : s.available = true) (hp : s.priv = .user) :
    run0 op s (andThen (requireSupervisor op s) f) = .fault (.privilege op) := by
  simp [run0, requireAvailable, ha, requireSupervisor, hp, finish]

theorem exec_cli_of {s : State} (ha : s.available = true) (hp : s.priv = .supervisor) :
    exec .cli s = .next ((s.setIf false).advance 2) :=
  execCli_eq_next.2 ⟨ha, hp, rfl⟩

theorem exec_sti_of {s : State} (ha : s.available = true) (hp : s.priv = .supervisor) :
    exec .sti s = .next ((s.setIf true).advance 2) :=
  execSti_eq_next.2 ⟨ha, hp, rfl⟩

/-- Settles O32: the state behind CLI has IF clear, so an announcement stays pending there. -/
theorem cliClearsTheInterruptFlag : Obligations.CliClearsTheInterruptFlag := by
  refine ⟨rfl, fun s ha => ⟨fun hp => ⟨?effect, fun t v h => ?pending⟩,
    run0_requireSupervisor_of_user ha⟩⟩
  case effect =>
    rw [exec_cli_of ha hp, ← withIf_false]
    rfl
  case pending =>
    obtain ⟨-, -, rfl⟩ := execCli_eq_next.1 h
    exact announce_of_if_clear (by simp) v

/-- Settles O33: the state behind STI has IF set and `pc` behind the operation, so it is a boundary at
which an announcement is delivered. -/
theorem stiSetsTheInterruptFlag : Obligations.StiSetsTheInterruptFlag := by
  refine ⟨rfl, fun s ha => ⟨fun hp => ⟨?effect, fun t v h => ?delivered⟩,
    run0_requireSupervisor_of_user ha⟩⟩
  case effect =>
    rw [exec_sti_of ha hp, ← withIf_true]
    rfl
  case delivered =>
    obtain ⟨-, -, rfl⟩ := execSti_eq_next.1 h
    exact announce_of_if_set (by simp) (by simp) v

end Sys2Proof.Machine
end

section
/-! INVD and WBINVD: both leave the cache empty, so that every read answers from `mem`, and WBINVD has
put there what the reads before it saw (R95, R96, R97). -/

namespace Sys2Proof.Machine

theorem visible_of_cache_eq_nil {s : State} (h : s.cache = []) (a : Nat) :
    s.visible a = Memory.get s.mem a := by
  simp [State.visible, h]

theorem exec_invd_of {s : State} (ha : s.available = true) (hp : s.priv = .supervisor) :
    exec .invd s = .next (s.invalidateCache.advance 2) :=
  execInvd_eq_next.2 ⟨ha, hp, rfl⟩

theorem exec_wbinvd_of {s : State} (ha : s.available = true) (hp : s.priv = .supervisor) :
    exec .wbinvd s = .next (s.flushCache.advance 2) :=
  execWbinvd_eq_next.2 ⟨ha, hp, rfl⟩

/-- What every read sees behind INVD is what `mem` held in front of it (R95). -/
theorem visible_invalidateCache_advance (s : State) (n a : Nat) :
    (s.invalidateCache.advance n).visible a = Memory.get s.mem a :=
  visible_of_cache_eq_nil rfl a

/-- What `mem` holds behind WBINVD is what every read saw in front of it (R96). -/
theorem get_mem_flushCache_advance (s : State) (n a : Nat) :
    Memory.get (s.flushCache.advance n).mem a = s.visible a :=
  get_writeBackAll s a

/-- Settles O34: a read that finds nothing in the cache answers from `mem`. -/
theorem invdDropsModifiedBytes : Obligations.InvdDropsModifiedBytes := by
  refine ⟨rfl, fun s ha => ⟨fun hp => ?_, run0_requireSupervisor_of_user ha⟩⟩
  exact ⟨_, exec_invd_of ha hp, rfl, visible_invalidateCache_advance s 2⟩

/-- Settles O35: `mem` behind WBINVD holds what the reads saw, and the cache is empty, so a read there
and a read behind a further INVD both answer from that `mem`. -/
theorem wbinvdWritesBackAndInvalidates : Obligations.WbinvdWritesBackAndInvalidates := by
  refine ⟨rfl, fun s ha => ⟨fun hp => ?_, run0_requireSupervisor_of_user ha⟩⟩
  have hmem : ∀ a, Memory.get (s.flushCache.advance 2).mem a = s.visible a :=
    get_mem_flushCache_advance s 2
  refine ⟨_, exec_wbinvd_of ha hp, rfl, hmem, fun a => ?read, rfl, _, exec_invd_of ha hp,
    fun a => ?invd⟩
  case read => exact (visible_of_cache_eq_nil rfl a).trans (hmem a)
  case invd => exact (visible_invalidateCache_advance _ 2 a).trans (hmem a)

end Sys2Proof.Machine
end

section
/-! LGDT and LIDT load limit and base from their table operand; LLDT and LTR load the selector that
SELECTOR_CHECK lets through, and fault on the one it does not (R100 to R104). -/

namespace Sys2Proof.Machine

/-- One operand's length, in the shape that a statement about `pc` gives it (R68). -/
theorem advance_opLength_one (s : State) (e : EncodedOperand) :
    s.advance (opLength [e]) = { s with pc := s.pc + 2 + e.text.length } := by
  rw [opLength_one, State.advance, Nat.add_assoc]

/-! ## LGDT and LIDT (R100 to R102) -/

/-- An admitted operand of `2 + k` bytes is read whole, at any alignment. -/
theorem readTableReg_of {op : Byte} {a k : Nat} {s : State} (hp : s.priv = .supervisor)
    (hk : k = if s.params.mode = .m64 then 8 else 4)
    (hr : (Arg.mem a (2 + k)).Readable (2 + k) 1 s) :
    readTableReg op (.mem a (2 + k)) s =
      .next ⟨tableRegOf s.params.mode (leNat (s.bytesAt a (2 + k))),
        afterRead (.mem a (2 + k)) (2 + k) s⟩ := by
  obtain ⟨-, -, hpd⟩ := tableReg_parts s a k hk
  rw [readTableReg_eq_next, hpd]
  exact ⟨rfl, size_mem .., hp, hr, rfl⟩

/-- Settles O36: the value read splits into limit and base. -/
theorem lgdtLoadsLimitAndBase : Obligations.LgdtLoadsLimitAndBase := by
  intro e a k s ha hp hk he hr
  obtain ⟨hlimit, hbase, -⟩ := tableReg_parts s a k hk
  exact ⟨_, execLgdt_eq_next.2 ⟨ha, _, he, _, readTableReg_of hp hk hr, rfl⟩, hlimit, hbase,
    advance_opLength_one ..⟩

/-- Settles O37: IDTR takes what LGDT reads for GDTR, by the same read. -/
theorem lidtLoadsLimitAndBase : Obligations.LidtLoadsLimitAndBase := by
  intro e a k s ha hp hk he hr
  obtain ⟨hlimit, hbase, -⟩ := tableReg_parts s a k hk
  exact ⟨_, execLidt_eq_next.2 ⟨ha, _, he, _, readTableReg_of hp hk hr, rfl⟩, hlimit, hbase,
    advance_opLength_one ..⟩

/-! ## LLDT and LTR (R103, R104) -/

/-- What is known decides, and where nothing is known the next draw does (R6). -/
theorem verdictOrDraw_cases {known : Option Bool} {s : State} {P Q : Prop}
    (hP : (verdictOrDraw known s).val = true → P) (hQ : (verdictOrDraw known s).val = false → Q) :
    (known = some true → P) ∧ (known = some false → Q) ∧
      (known = none → (s.drawnVerdict = true → P) ∧ (s.drawnVerdict = false → Q)) := by
  refine ⟨?accepted, ?rejected, ?unknown⟩
  case accepted => rintro rfl; exact hP rfl
  case rejected => rintro rfl; exact hQ rfl
  case unknown => rintro rfl; exact ⟨hP, hQ⟩

/-- The verdict on a selector, in the State in which it has been read (log 29). -/
def selectorAnswer (w : SelectorOp) (sel : BitVec 16) (x : Arg) (s : State) : Got Bool :=
  verdictOrDraw (selectorVerdict w sel (afterRead x 2 s)) (afterRead x 2 s)

section Selector

variable {op : Byte} {w : SelectorOp} {x : Arg} {sel : BitVec 16} {s : State}

variable (hp : s.priv = .supervisor) (hx : x.isIntegral = true) (hw : x.width = 16)
  (hr : x.Readable 2 2 s) (hv : x.valueIn 2 s = sel.toNat)

include hp hx hw hr hv

/-- Behind the read of the selector only the verdict is open. -/
theorem readSelector_of :
    readSelector op w x s =
      andThen (require (selectorAnswer w sel x s).val (.selectorFault sel)) fun _ =>
        .next ⟨sel, (selectorAnswer w sel x s).st⟩ := by
  have hsize : x.size = 2 := by rw [Arg.size, hw]
  have hread : readInt x s = .next ⟨sel.toNat, afterRead x 2 s⟩ := by
    rw [readInt_eq_next, hsize, hv]
    exact ⟨hr, rfl⟩
  simp [readSelector, hx, hw, requireSupervisor, hp, hread, selectorAnswer]

/-- An accepted selector: the read recorded, at most the verdict drawn. -/
theorem readSelector_accepted (h : (selectorAnswer w sel x s).val = true) :
    ∃ n, readSelector op w x s = .next ⟨sel, { afterRead x 2 s with drawn := n }⟩ := by
  obtain ⟨n, hn⟩ := verdictOrDraw_leaves (selectorVerdict w sel (afterRead x 2 s)) (afterRead x 2 s)
  refine ⟨n, ?_⟩
  rw [readSelector_of hp hx hw hr hv, h, ← hn]
  rfl

theorem readSelector_rejected (h : (selectorAnswer w sel x s).val = false) :
    Stops (readSelector op w x s) (.fault (.selectorFault sel)) := by
  rw [readSelector_of hp hx hw hr hv]
  exact .at_require h

end Selector

/-- Settles O38: the verdict, known or drawn, decides between the load and the fault. -/
theorem lldtLoadsTheSelector : Obligations.LldtLoadsTheSelector := by
  intro e x sel s ha hp he hx hw hr hv
  refine verdictOrDraw_cases (s := afterRead x 2 s) (fun h => ?loads) fun h => ?faults
  case loads =>
    obtain ⟨n, hn⟩ := readSelector_accepted hp hx hw hr hv h
    exact ⟨_, execLldt_eq_next.2 ⟨ha, x, he, _, hn, rfl⟩, rfl, advance_opLength_one ..⟩
  case faults => exact run1_stops ha he (readSelector_rejected hp hx hw hr hv h).andThen_left

/-- Settles O39: the same read and verdict as LLDT's, loaded into the task register. -/
theorem ltrLoadsTheSelector : Obligations.LtrLoadsTheSelector := by
  intro e x sel s ha hp he hx hw hr hv
  refine verdictOrDraw_cases (s := afterRead x 2 s) (fun h => ?loads) fun h => ?faults
  case loads =>
    obtain ⟨n, hn⟩ := readSelector_accepted hp hx hw hr hv h
    exact ⟨_, execLtr_eq_next.2 ⟨ha, x, he, _, hn, rfl⟩, rfl, advance_opLength_one ..⟩
  case faults => exact run1_stops ha he (readSelector_rejected hp hx hw hr hv h).andThen_left

end Sys2Proof.Machine
end

section
/-! The static checks of the other operations with operands, left to right (R101 to R104, R110,
R114, R115, R121, R122, R137 item 5). -/

namespace Sys2Proof.Machine

/-- An operand that is not memory, or not of the size `MODE` gives the table operand (R100). -/
theorem isTableOperand_eq_false {x : Arg} {m : Mode}
    (h : (∀ a, x ≠ .mem a 6) ∧ m ≠ .m64 ∨ (∀ a, x ≠ .mem a 10) ∧ m = .m64) :
    (x.isMemory && decide (x.size = pdBytes m)) = false := by
  cases x with
  | imm | gpr => rfl
  | mem a n =>
    rw [size_mem, pdBytes_eq]
    rcases h with ⟨h, hm⟩ | ⟨h, hm⟩ <;> simpa [Arg.isMemory, hm] using h a

theorem readTableReg_stops_at_operand {op : Byte} {x : Arg} {s : State}
    (h : (∀ a, x ≠ .mem a 6) ∧ s.params.mode ≠ .m64 ∨
      (∀ a, x ≠ .mem a 10) ∧ s.params.mode = .m64) :
    Stops (readTableReg op x s) (.fault (.invalidOperand op 1)) :=
  .at_require (isTableOperand_eq_false h)

theorem readSelector_stops_at_operand {op : Byte} {w : SelectorOp} {x : Arg} {s : State}
    (h : x.isIntegral = false ∨ x.width ≠ 16) :
    Stops (readSelector op w x s) (.fault (.invalidOperand op 1)) :=
  .at_require (by simpa only [Bool.and_eq_false_iff, decide_eq_false_iff_not] using h)

/-- Settles O47: the first static check that fails stops the operation, the ones before it pass. -/
theorem staticChecksOfTheSystemOperations : Obligations.StaticChecksOfTheSystemOperations := by
  intro e₁ e₂ x y s ha h₁ h₂
  refine ⟨?table, ?selector, ?invlpg, ?index, ?destination, ?value, ?rdtsc⟩
  case table =>
    exact fun hx => ⟨run1_stops ha h₁ (readTableReg_stops_at_operand hx).andThen_left,
      run1_stops ha h₁ (readTableReg_stops_at_operand hx).andThen_left⟩
  case selector =>
    exact fun hx => ⟨run1_stops ha h₁ (readSelector_stops_at_operand hx).andThen_left,
      run1_stops ha h₁ (readSelector_stops_at_operand hx).andThen_left⟩
  case invlpg => exact fun hx => run1_stops ha h₁ (.at_require hx)
  case index =>
    exact fun hx => ⟨run2_stops ha h₁ h₂ (.at_require hx), run2_stops ha h₁ h₂ (.at_require hx),
      run2_stops ha h₁ h₂ (.at_require hx)⟩
  case destination =>
    exact fun hx hy => ⟨run2_stops ha h₁ h₂ <| .past_require hx (.at_require hy),
      run2_stops ha h₁ h₂ <| .past_require hx (.at_require hy)⟩
  case value => exact fun hx hy => run2_stops ha h₁ h₂ <| .past_require hx (.at_require hy)
  case rdtsc => exact fun hx => run1_stops ha h₁ (.at_require hx)

end Sys2Proof.Machine
end

section
/-! INVLPG (R110): its effect on the TLB and its frame. -/

namespace Sys2Proof.Machine

/-- Settles O40: INVLPG asks of its operand only that it be memory, so no address stops it, and what it
removes is the key of the operand's page (`mem_tlbWithout`). -/
theorem invlpgRemovesTheEntry : Obligations.InvlpgRemovesTheEntry := by
  intro e a n s ha hp he
  have hrun : exec (.invlpg e) s = .next ((s.invalidatePage a).advance (opLength [e])) :=
    execInvlpg_eq_next.2 ⟨ha, .mem a n, he, rfl, hp, rfl⟩
  exact ⟨_, hrun, fun _ => mem_tlbWithout, advance_opLength_one ..⟩

end Sys2Proof.Machine
end

section
/-! RDMSR and WRMSR: what they do on a register the platform has, and where they stop on one it has
not, on an illegal value and on an opaque register (R113 to R115, R137 item 9). -/

namespace Sys2Proof.Machine

/-! ## RDMSR (R114) -/

section MsrRead

variable {idx : BitVec 32} {legal : List ValueRange} {s : State} {g : Got (BitVec 64)}

/-- A register's read records nothing: at most a value is drawn. -/
theorem msrRead_drawn (h : msrRead idx s = .next g) : Drawn s g.st := by
  rcases msrRead_eq_next.1 h with ⟨-, -, rfl⟩ | ⟨-, rfl⟩
  · exact ⟨s.drawn, rfl⟩
  · exact draw_leaves s

theorem msrRead_val_of_plain (h : msrRead idx s = .next g)
    (hm : msrClass s.params idx = .plain legal) : g.val = msrGet s.msr idx := by
  rcases msrRead_eq_next.1 h with ⟨-, -, rfl⟩ | ⟨ho, -⟩
  · rfl
  · simp [hm] at ho

theorem msrRead_of_absent (h : msrClass s.params idx = .absent) :
    msrRead idx s = .fault (.msrFault idx) := by
  simp only [msrRead, h, raise]

end MsrRead

/-- Settles O41: the index read and the register's value are observations, and the shared frame of a
clobber and a store follows. -/
theorem rdmsrStoresTheRegister : Obligations.RdmsrStoresTheRegister := by
  intro e r x dst idx s ha hp he hr hx hw hc hxr hxv hs hm
  obtain ⟨g, hg⟩ := msrRead_of_present (s := afterRead x x.size s) hm
  obtain ⟨n, hn⟩ := msrRead_drawn hg
  have hrun : exec (.rdmsr e r) s = .next ((putBytes dst 8 g.val.toNat
      (clobber [.a, .c, .d] g.st)).advance (opLength [e, r])) :=
    execRdmsr_eq_next.2 ⟨ha, x, he, dst, hr, hx, hw, hc, hp, _, toU32_of hxr hxv, g, hg,
      (storable_congr (by rw [clobber_params, hn, afterRead_params]) ..).2 hs, rfl⟩
  obtain ⟨hholds, hpc, hrest⟩ := clobber_put_frame (s := s) (n := opLength [e, r])
    (cs := [.a, .c, .d]) ⟨n, hn⟩ hw (gpr_of_canStore hc) g.val.isLt
  exact ⟨_, g.val, hrun, fun _ => msrRead_val_of_plain (s := afterRead x x.size s) hg, hholds,
    hpc.trans (by rw [opLength_two]; omega), hrest⟩

/-! ## WRMSR (R115) -/

/-- What a write that goes through leaves: the file rewritten, the event recorded. -/
def msrWritten (idx : BitVec 32) (v : BitVec 64) (s : State) : State :=
  ({ s with msr := msrSet s.msr idx v }).log (.msrWrite idx v)

section MsrWrite

variable {idx : BitVec 32} {v : BitVec 64} {legal : List ValueRange} {s t : State}

theorem msrWrite_of_absent (h : msrClass s.params idx = .absent) :
    msrWrite idx v s = .fault (.msrFault idx) := by
  simp only [msrWrite, h, raise]

theorem msrWrite_of_illegal (h : msrClass s.params idx = .plain legal)
    (hv : msrLegal legal v = false) : msrWrite idx v s = .fault (.msrFault idx) := by
  simp only [msrWrite, h, hv, Bool.false_eq_true, if_false, raise]

theorem msrWrite_of_opaque (h : msrClass s.params idx = .opaqueReg) :
    msrWrite idx v s = .refused (.msrOpaqueWrite idx) := by
  simp only [msrWrite, h, refuse]

theorem msrWrite_of_legal (h : msrClass s.params idx = .plain legal) (hv : msrLegal legal v = true) :
    msrWrite idx v s = .next (msrWritten idx v s) :=
  msrWrite_eq_next.2 ⟨legal, h, hv, rfl⟩

/-- Behind observations alone, the write is an observation of the state with its file rewritten. -/
theorem msrWritten_observed (h : Observed s t) :
    Observed { s with msr := msrSet s.msr idx v } (msrWritten idx v t) := by
  obtain ⟨events, n, rfl⟩ := h
  exact ⟨events ++ [.msrWrite idx v], n, by simp [msrWritten, State.log]⟩

end MsrWrite

section Wrmsr

variable {e r : EncodedOperand} {x y : Arg} {idx : BitVec 32} {v : BitVec 64} {s : State}

variable (ha : s.available = true) (hp : s.priv = .supervisor) (he : argOf e s = some x)
  (hr : argOf r s = some y) (hx : x.isIntegral = true) (hy : y.canLoad 8 = true)
  (hxr : x.Readable x.size x.size s) (hxv : x.valueIn x.size s = idx.toNat)
  (hyr : y.Readable 8 8 s) (hyv : y.valueIn 8 s = v.toNat)

include ha hp he hr hx hy hxr hxv hyr hyv

/-- Behind its checks and its two reads, WRMSR is the write to the file; then only the clobber
follows. -/
theorem exec_wrmsr_eq :
    exec (.wrmsr e r) s =
      andThen (msrWrite idx v (afterRead y 8 (afterRead x x.size s))) fun t =>
        .next ((clobber [.a, .c, .d] t).advance (opLength [e, r])) := by
  have hload : loadBytes y 8 8 (afterRead x x.size s) =
      .next ⟨v.toNat, afterRead y 8 (afterRead x x.size s)⟩ :=
    loadBytes_eq_next.2 ⟨(readable_afterRead ..).2 hyr, by rw [valueIn_afterRead, hyv]⟩
  show execWrmsr e r s = _
  simp [execWrmsr, run2, requireAvailable, ha, argAt_of he, argAt_of hr, wrmsrBody, hx, hy,
    requireSupervisor, hp, toU32_of hxr hxv, hload, finish, andThen_assoc]

end Wrmsr

/-- Settles O42: the clobber's frame starts at the state in which only the file is rewritten. -/
theorem wrmsrWritesThePlainRegister : Obligations.WrmsrWritesThePlainRegister := by
  intro e r x y idx v legal s ha hp he hr hx hy hxr hxv hyr hyv hm hv
  have hrun : exec (.wrmsr e r) s = .next ((clobber [.a, .c, .d]
      (msrWritten idx v (afterRead y 8 (afterRead x x.size s)))).advance (opLength [e, r])) := by
    rw [exec_wrmsr_eq ha hp he hr hx hy hxr hxv hyr hyv, msrWrite_of_legal (by exact hm) hv,
      andThen_next]
  have hobserved : Observed { s with msr := msrSet s.msr idx v }
      (msrWritten idx v (afterRead y 8 (afterRead x x.size s))) :=
    msrWritten_observed ((afterRead_observed ..).trans (afterRead_observed ..))
  obtain ⟨hfixed, hspecial, hcells, hmemory⟩ :=
    clobber_frame (cs := [.a, .c, .d]) (n := opLength [e, r]) hobserved
  refine ⟨_, hrun, ?written, ?others, ?pc, ?history, { hfixed with }, ?special, hcells, hmemory⟩
  case written => simp [msrWritten, msrGet_msrSet]
  case others => exact fun j hj => by simp [msrWritten, msrGet_msrSet, hj.symm]
  case pc =>
    simp only [State.advance_pc, clobber_pc, msrWritten, State.log_pc, afterRead_pc, opLength_two]
    omega
  case history => simp [msrWritten]
  case special => exact { hspecial with msr := rfl }

/-- Settles O51: RDMSR stops at the read of the file, WRMSR at the write to it. -/
theorem msrAccessStops : Obligations.MsrAccessStops := by
  intro e r x y idx v s ha hp he hr hx hxr hxv
  refine ⟨fun hw hc hm => ?rdmsr, fun hy hyr hyv => ?wrmsr⟩
  case rdmsr =>
    have habsent := Stops.of_fault (msrRead_of_absent (s := afterRead x x.size s) hm)
    exact run2_stops ha he hr <| .past_require hx <| .past_require (by simp [hw, hc]) <|
      .past_supervisor hp <| .behind (toU32_of hxr hxv) habsent.andThen_left
  case wrmsr =>
    rw [exec_wrmsr_eq ha hp he hr hx hy hxr hxv hyr hyv]
    refine ⟨fun hm => ?absent, fun legal hm hv => ?illegal, fun hm => ?opaqueWrite⟩
    case absent => rw [msrWrite_of_absent (by exact hm), andThen_fault]
    case illegal => rw [msrWrite_of_illegal (by exact hm) hv, andThen_fault]
    case opaqueWrite => rw [msrWrite_of_opaque (by exact hm), andThen_refused]

end Sys2Proof.Machine
end

section
/-! RDPMC and RDTSC complete: any counter value where the counter exists, a time stamp that under
TSC_MONOTONIC is not below the last one; and no step takes that last one back (R120 to R122). -/

namespace Sys2Proof.Machine

/-! ## RDPMC (R121) -/

/-- The verdict on a counter, behind the read of its index (log 17, log 19). -/
def pmcAnswer (idx : BitVec 32) (x : Arg) (s : State) : Got Bool :=
  verdictOrDraw (pmcVerdict s.params idx) (afterRead x x.size s)

/-- The read of the index is recorded; at most the verdict and the value are drawn. -/
theorem draw_pmcAnswer_st (idx : BitVec 32) (x : Arg) (s : State) :
    ∃ n, (draw (pmcAnswer idx x s).st).st =
      { s with history := s.history ++ x.readEvents x.size s, drawn := n } := by
  obtain ⟨m, hm⟩ := verdictOrDraw_leaves (pmcVerdict s.params idx) (afterRead x x.size s)
  obtain ⟨n, hn⟩ := draw_leaves (pmcAnswer idx x s).st
  refine ⟨n, ?_⟩
  rw [hn, pmcAnswer, hm]
  rfl

/-- A counter that does not exist stops RDPMC behind every other check but the destination's. -/
theorem rdpmcBody_stops_at_counter {x dst : Arg} {idx : BitVec 32} {s : State}
    (hp : crPce s.cr4 = true ∨ s.priv = .supervisor) (hx : x.isIntegral = true)
    (hw : dst.isWritable = true) (hc : dst.canStore 8 = true) (hr : x.Readable x.size x.size s)
    (hv : x.valueIn x.size s = idx.toNat) (h : (pmcAnswer idx x s).val = false) :
    Stops (rdpmcBody x dst s) (.fault (.pmcFault idx)) :=
  .past_require hx <| .past_require (by simp [hw, hc]) <|
  .past (requirePmcPriv_eq_next.2 hp) <| .behind (toU32_of hr hv) (.at_require h)

/-- Settles O43: the verdict, known or drawn, decides between the store and the fault. -/
theorem rdpmcStoresAnyValue : Obligations.RdpmcStoresAnyValue := by
  intro e r x dst idx s ha hp he hr hx hw hc hxr hxv hs
  refine verdictOrDraw_cases (s := afterRead x x.size s) (fun h => ?completes) fun h => ?faults
  case completes =>
    obtain ⟨n, hn⟩ := draw_pmcAnswer_st idx x s
    have hs' : dst.Storable 8 8 (clobber [.a, .c, .d] (draw (pmcAnswer idx x s).st).st) :=
      (storable_congr (by rw [clobber_params, hn]) ..).2 hs
    have hrun : exec (.rdpmc e r) s = .next ((putBytes dst 8
        (draw (pmcAnswer idx x s).st).val.toNat
        (clobber [.a, .c, .d] (draw (pmcAnswer idx x s).st).st)).advance (opLength [e, r])) :=
      execRdpmc_eq_next.2 ⟨ha, x, he, dst, hr, hx, hw, hc, hp, _, toU32_of hxr hxv, _, rfl, h,
        hs', rfl⟩
    obtain ⟨hholds, hpc, hrest⟩ := clobber_put_frame (s := s) (n := opLength [e, r])
      (cs := [.a, .c, .d]) ⟨n, hn⟩ hw (gpr_of_canStore hc) (draw (pmcAnswer idx x s).st).val.isLt
    exact ⟨_, _, hrun, hholds, hpc.trans (by rw [opLength_two]; omega), hrest⟩
  case faults =>
    exact run2_stops ha he hr (rdpmcBody_stops_at_counter hp hx hw hc hxr hxv h)

/-! ## RDTSC (R122) -/

section TimeStamp

variable {s : State}

/-- A monotonic time stamp is the last one plus a draw modulo what is left above it (log 22). -/
theorem tscRead_monotonic (h : s.params.tscMonotonic = true) :
    s.lastTsc.toNat ≤ (tscRead s).val.toNat ∧ (tscRead s).st.lastTsc = (tscRead s).val := by
  have hlast := s.lastTsc.isLt
  have hdraw := Nat.mod_lt (draw s).val.toNat (Nat.sub_pos_of_lt hlast)
  simp only [tscRead, h, if_true, BitVec.toNat_ofNat, and_true]
  omega

theorem tscRead_lastTsc_of_not_monotonic (h : s.params.tscMonotonic = false) :
    (tscRead s).st.lastTsc = s.lastTsc := by
  simp [tscRead, h]

end TimeStamp

/-- Settles O44: the shared frame of a clobber and a store starts at the state in which only the
last time stamp is rewritten. -/
theorem rdtscStoresTheTimeStamp : Obligations.RdtscStoresTheTimeStamp := by
  intro r dst s ha hp hr hw hc hs
  have hrun : exec (.rdtsc r) s = .next ((putBytes dst 8 (tscRead s).val.toNat
      (clobber [.a, .d] (tscRead s).st)).advance (opLength [r])) :=
    execRdtsc_eq_next.2 ⟨ha, dst, hr, hw, hc, hp,
      (storable_congr (by rw [clobber_params, tscRead_params]) ..).2 hs, rfl⟩
  obtain ⟨n, v, hst⟩ := tscRead_st s
  obtain ⟨hholds, hpc, hhist, hfixed, hspecial, hcells, hmemory⟩ :=
    clobber_put_frame (s := { s with lastTsc := v }) (ev := []) (n := opLength [r])
      (cs := [.a, .d]) ⟨n, hst.trans (by simp)⟩ hw (gpr_of_canStore hc) (tscRead s).val.isLt
  have hlast := hspecial.lastTsc
  have hread : (tscRead s).st.lastTsc = v := by rw [hst]
  refine ⟨_, _, hrun, hholds, fun hm => ?monotonic, fun hm => ?free, ?pc, ?history,
    { hfixed with }, { hspecial with lastTsc := rfl }, hcells, hmemory⟩
  case monotonic =>
    obtain ⟨hle, hval⟩ := tscRead_monotonic hm
    exact ⟨hle, hlast.trans (hread.symm.trans hval)⟩
  case free => exact hlast.trans (hread.symm.trans (tscRead_lastTsc_of_not_monotonic hm))
  case pc => exact hpc.trans (by rw [opLength_one]; show s.pc + _ = _; omega)
  case history => exact hhist.trans (by rw [List.append_nil])

/-! ## Every step (R120) -/

/-- RDTSC alone writes the last time stamp, and under TSC_MONOTONIC with one not below it. -/
theorem exec_lastTsc_le {i : Instr} {s t : State} (hm : s.params.tscMonotonic = true)
    (h : exec i s = .next t) : s.lastTsc.toNat ≤ t.lastTsc.toNat := by
  by_cases hi : ∃ e, i = .rdtsc e
  case pos =>
    obtain ⟨e, rfl⟩ := hi
    obtain ⟨-, dst, -, -, -, -, -, rfl⟩ := execRdtsc_eq_next.1 h
    obtain ⟨hle, hlast⟩ := tscRead_monotonic hm
    simpa [hlast] using hle
  case neg =>
    obtain ⟨-, -, -, -, -, -, hlast⟩ := specialRegistersHaveOneWriter i s t h
    rw [hlast fun e he => hi ⟨e, he⟩]

/-- Settles O21: of the agents only the CPU reaches the last time stamp, by an operation. -/
theorem monotonicTimeStampNeverDecreases : Obligations.MonotonicTimeStampNeverDecreases := by
  intro s t hm h
  rcases step_eq_next h with ⟨-, rfl⟩ | ⟨-, ⟨u, -, ⟨-, rfl⟩ | ⟨i, rest, -, -, hx⟩⟩ |
    ⟨a, u, -, rfl⟩ | ⟨v, u, -, -, rfl⟩⟩
  · exact le_refl _
  · exact le_refl _
  · exact exec_lastTsc_le (s := { s with turns := u }) hm hx
  · rw [State.writeBack_lastTsc]
  · exact le_refl _

end Sys2Proof.Machine
end

section
/-! Privilege: what user level cannot reach, and where an operation that asks for more stops
(R137 items 6 to 8, R139, R140). -/

namespace Sys2Proof.Machine

/-! ## What user level leaves (R139) -/

/-- At user level an operation's own change is at most the last time stamp: every other needs
supervisor. -/
theorem Change.eq_of_user {i : Instr} {s t : State} (h : Change i s t) (hu : s.priv = .user) :
    ∃ v, t = { s with lastTsc := v } := by
  cases h with
  | cpuid | cpuidExt | portIn | portOut | rdmsr | rdpmc => exact ⟨s.lastTsc, rfl⟩
  | rdtsc v => exact ⟨v, rfl⟩
  | cli hp | sti hp | invd hp | wbinvd hp | lgdt hp | lidt hp | lldt hp | ltr hp | invlpg hp
  | wrmsr hp => simp [hu] at hp

theorem Observed.mem {s t : State} (h : Observed s t) : t.mem = s.mem := by
  obtain ⟨ev, n, rfl⟩ := h
  rfl

theorem Delivered.mem {s t : State} (h : Delivered s t) : t.mem = s.mem := by
  obtain ⟨cells, dst, k, v, -, rfl⟩ := h
  simp

/-- Settles O19: the parts beside the change reach none of these, and at user level the change
does not either. -/
theorem userLevelCannotReachPrivilegedState : Obligations.UserLevelCannotReachPrivilegedState := by
  intro i s t hu h
  obtain ⟨r, u, w, ho, hc, hd, rfl⟩ := exec_parts h
  obtain ⟨v, rfl⟩ := hc.eq_of_user (ho.continues.fixed.priv.trans hu)
  have hr := ho.special
  have hw := hd.special
  exact ⟨hd.continues.fixed.priv.trans (ho.continues.fixed.priv.trans hu),
    hw.eflags.trans hr.eflags, hw.gdtr.trans hr.gdtr, hw.idtr.trans hr.idtr, hw.ldtr.trans hr.ldtr,
    hw.tr.trans hr.tr, hw.msr.trans hr.msr, hw.tlb.trans hr.tlb, hd.mem.trans ho.mem⟩

/-! ## A requirement that rests on no operand's value (R137 item 6) -/

section Requirement

variable {α : Type} {s : State}

theorem requireSupervisor_stops {op : Byte} {f : Unit → Res α} (hu : s.priv = .user) :
    Stops (andThen (requireSupervisor op s) f) (.fault (.privilege op)) :=
  .at_require (by simp [hu])

theorem requirePmcPriv_stops {f : Unit → Res α} (hu : s.priv = .user) (h : crPce s.cr4 = false) :
    Stops (andThen (requirePmcPriv s) f) (.fault (.privilege 0xCE)) :=
  .at_require (by simp [hu, h])

theorem requireTscPriv_stops {f : Unit → Res α} (hu : s.priv = .user) (h : crTsd s.cr4 = true) :
    Stops (andThen (requireTscPriv s) f) (.fault (.privilege 0xCF)) :=
  .at_require (by simp [hu, h])

theorem readTableReg_stops_at_privilege {op : Byte} {x : Arg} (hu : s.priv = .user)
    (hm : x.isMemory = true) (hsize : x.size = pdBytes s.params.mode) :
    Stops (readTableReg op x s) (.fault (.privilege op)) :=
  .past_require (by simp [hm, hsize]) (requireSupervisor_stops hu)

theorem readSelector_stops_at_privilege {op : Byte} {w : SelectorOp} {x : Arg} (hu : s.priv = .user)
    (hx : x.isIntegral = true) (hw : x.width = 16) :
    Stops (readSelector op w x s) (.fault (.privilege op)) :=
  .past_require (by simp [hx, hw]) (requireSupervisor_stops hu)

end Requirement

/-- Settles O48: the static checks pass, and the next one is the privilege. -/
theorem userLevelRaisesPrivilege : Obligations.UserLevelRaisesPrivilege := by
  intro e₁ e₂ x y s ha hu h₁ h₂
  refine ⟨?table, ?selector, ?invlpg, ?rdmsr, ?wrmsr, ?rdpmc, ?rdtsc⟩
  case table =>
    exact fun hm hk => ⟨run1_stops ha h₁ (readTableReg_stops_at_privilege hu hm hk).andThen_left,
      run1_stops ha h₁ (readTableReg_stops_at_privilege hu hm hk).andThen_left⟩
  case selector =>
    exact fun hx hw => ⟨run1_stops ha h₁ (readSelector_stops_at_privilege hu hx hw).andThen_left,
      run1_stops ha h₁ (readSelector_stops_at_privilege hu hx hw).andThen_left⟩
  case invlpg => exact fun hm => run1_stops ha h₁ <| .past_require hm (requireSupervisor_stops hu)
  case rdmsr =>
    exact fun hx hw hc => run2_stops ha h₁ h₂ <|
      .past_require hx <| .past_require (by simp [hw, hc]) (requireSupervisor_stops hu)
  case wrmsr =>
    exact fun hx hy => run2_stops ha h₁ h₂ <|
      .past_require hx <| .past_require hy (requireSupervisor_stops hu)
  case rdpmc =>
    exact fun hx hw hc hpce => run2_stops ha h₁ h₂ <|
      .past_require hx <| .past_require (by simp [hw, hc]) (requirePmcPriv_stops hu hpce)
  case rdtsc =>
    exact fun hw hc htsd => run1_stops ha h₁ <|
      .past_require (by simp [hw, hc]) (requireTscPriv_stops hu htsd)

/-! ## A requirement that rests on the values read (R137 items 7 and 8) -/

section ByValue

variable {dst : Arg} {f sub : BitVec 32} {port : BitVec 16} {s t : State}

/-- Reads and draws leave what CPUID's requirement rests on (R82). -/
theorem cpuidAnswer_stops_at_privilege (ht : Observed s t) (hu : s.priv = .user)
    (h : cpuidPriv s.params f = .supervisor) :
    Stops (cpuidAnswer f sub dst t) (.fault (.privilege 0xC0)) :=
  .at_require (by simp [ht.params, ht.continues.fixed.priv, hu, h])

/-- A read leaves what IO_PERMITTED is asked (R86, R140). -/
theorem requireIo_stops {α : Type} {op : Byte} {n v : Nat} {g : Unit → Res α} (ht : Observed s t)
    (hv : v = port.toNat) (h : ioPermitted s.params s.priv port n = false) :
    Stops (andThen (requireIo op (BitVec.ofNat 16 v) n t) g) (.fault (.privilege op)) :=
  .at_require (by simpa [hv, ht.params, ht.continues.fixed.priv] using h)

end ByValue

/-- Settles O49: the sources are read, and the privilege their values ask for stops what follows. -/
theorem valueDependentPrivilegeIsChecked : Obligations.ValueDependentPrivilegeIsChecked := by
  intro e₁ e₂ e₃ x y z f sub port s ha h₁ h₂ h₃
  refine ⟨?cpuid, ?cpuidExt, ?portIn, ?portOut⟩
  case cpuid =>
    exact fun hx hw hc hr hv hu hf => run2_stops ha h₁ h₂ <|
      .past_require hx <| .past_require (by simp [hw, hc]) <| .behind (toU32_of hr hv) <|
      cpuidAnswer_stops_at_privilege
        ((afterRead_observed x _ s).trans (draw_leaves _).observed) hu hf
  case cpuidExt =>
    exact fun hx hy hw hc hr hv hr' hv' hu hf => run3_stops ha h₁ h₂ h₃ <|
      .past_require hx <| .past_require hy <| .past_require (by simp [hw, hc]) <|
      .behind (toU32_of hr hv) <|
      .behind (toU32_of ((readable_afterRead ..).2 hr') ((valueIn_afterRead ..).trans hv')) <|
      cpuidAnswer_stops_at_privilege
        ((afterRead_observed x _ s).trans (afterRead_observed y _ _)) hu hf
  case portIn =>
    exact fun hx hw hy hr hv hio => run2_stops ha h₁ h₂ <|
      .past_require (by simp [hx, hw]) <| .past_require hy <| .behind (readInt_of hr) <|
      requireIo_stops (afterRead_observed y _ s) hv hio
  case portOut =>
    exact fun hx hy hr hr' hv hio => run2_stops ha h₁ h₂ <|
      .past_require hx <| .past_require hy <| .behind (readInt_of hr) <|
      .behind (readInt_of ((readable_afterRead ..).2 hr')) <|
      requireIo_stops ((afterRead_observed x _ s).trans (afterRead_observed y _ _)) hv hio

end Sys2Proof.Machine
end

section
/-! How a run goes on and how it ends: a stop repeats itself, an announcement is delivered where
IF is set, the end of the text is final, and every run gets there or stops before (R130, R131,
R143, R163, R164). -/

namespace Sys2Proof.Machine

/-! ## A run that has ended stays as it ended (log 11, log 12) -/

section Ended

variable {s : State}

theorem step_final (h : s.outcome = .final) : step s = .next s := by
  simp only [step, machineStep, h]

theorem step_faulted {f : Fault} (h : s.outcome = .faulted f) : step s = .fault f := by
  simp only [step, machineStep, h, raise]

theorem step_refused {r : Refusal} (h : s.outcome = .refused r) : step s = .refused r := by
  simp only [step, machineStep, h, refuse]

end Ended

/-- Settles O11: `State.record` writes the outcome that `step` then repeats. -/
theorem stopsArePreciseAndTerminal : Obligations.StopsArePreciseAndTerminal := by
  refine ⟨fun s f h => ?fault, fun s r h => ?refusal⟩
  case fault =>
    rw [h]
    exact ⟨rfl, step_faulted rfl⟩
  case refusal =>
    rw [h]
    exact ⟨rfl, step_refused rfl⟩

/-! ## An announcement's turn (R143) -/

theorem step_announce {s : State} {v : Nat} {more : List Turn} (ho : s.outcome = .running)
    (ht : s.turns = .announce v :: more) : step s = announce v { s with turns := more } := by
  simp only [step_running ho, turnStep, ht]

/-- Before the first operation there is no boundary (log 10). -/
theorem announce_of_pc_eq_zero {s : State} (h : s.pc = 0) (v : Nat) : announce v s = .next s :=
  if_neg fun hs => hs.1 h

/-- Settles O24: the step is the announcement, which asks for a boundary and for IF. -/
theorem interruptIsDeliveredWhereIfIsSet : Obligations.InterruptIsDeliveredWhereIfIsSet := by
  intro s v more ho ht
  rw [step_announce ho ht]
  exact ⟨fun hpc hif => announce_of_if_set (s := { s with turns := more }) hpc hif v,
    fun hif => announce_of_if_clear (s := { s with turns := more }) hif v,
    fun hpc => announce_of_pc_eq_zero (s := { s with turns := more }) hpc v⟩

/-! ## The end of the text (R163) -/

theorem cpuStep_at_end {s : State} (h : s.pc = s.params.code.length) :
    cpuStep s = .next { s with outcome := .final } := by
  have hbytes : s.fetchBytes = [] := List.drop_eq_nil_of_le h.ge
  simp [cpuStep, h, hbytes, decode, noOperation]

/-- Settles O10: no byte is left for the CPU to decode, and a final run makes no move. -/
theorem endOfTextEndsTheRun : Obligations.EndOfTextEndsTheRun :=
  ⟨fun _ ho ht hpc => (step_cpuMoves ho ht).trans (cpuStep_at_end hpc), fun _ => step_final⟩

/-! ## Every run ends (R164) -/

/-- The bytes and the turns left: no run makes more steps than these and the final one. -/
def State.stepsLeft (s : State) : Nat := s.params.code.length - s.pc + s.turns.length

/-- A step ends the run, or uses up a turn or an operation's bytes and goes on within the text. -/
theorem step_uses_up {s t : State} (ho : s.outcome = .running) (hpc : s.pc ≤ s.params.code.length)
    (h : step s = .next t) :
    t.outcome = .final ∨
      t.outcome = .running ∧ t.pc ≤ t.params.code.length ∧ t.stepsLeft < s.stepsLeft := by
  rcases step_eq_next h with ⟨hf, -⟩ | ⟨-, ⟨u, hu, ⟨-, rfl⟩ | ⟨i, rest, -, hd, hx⟩⟩ |
    ⟨a, u, hu, rfl⟩ | ⟨v, u, hu, -, rfl⟩⟩
  · simp [ho] at hf
  · exact .inl rfl
  · obtain ⟨w, hk, rfl⟩ := exec_continues hx
    have hend := pc_add_opLength_le hpc hd
    have hlen := two_le_opLength i.operands
    have hturns : u.length ≤ s.turns.length := by
      rcases hu with ⟨-, rfl⟩ | hu
      · exact le_refl _
      · simp [hu]
    refine .inr ⟨hk.fixed.outcome.trans ho, ?within, ?less⟩
    case within => rwa [State.advance_pc, State.advance_params, hk.pc, hk.fixed.params]
    case less =>
      simp only [State.stepsLeft, State.advance_pc, State.advance_params, State.advance_turns,
        hk.pc, hk.fixed.params, hk.fixed.turns]
      omega
  · exact .inr ⟨by simpa using ho, by simpa using hpc, by simp [State.stepsLeft, hu]⟩
  · exact .inr ⟨ho, hpc, by simp [State.stepsLeft, hu]⟩

section Run

variable {s t : State} {k : Nat}

theorem run_succ_of_next (h : step s = .next t) : core.run (k + 1) s = core.run k t := by
  have hstep : core.step s = .next t := h
  simp only [Host.Core.run, hstep]

theorem run_succ_of_fault {f : Fault} (h : step s = .fault f) : core.run (k + 1) s = .fault f := by
  have hstep : core.step s = .fault f := h
  simp only [Host.Core.run, hstep]

theorem run_succ_of_refused {r : Refusal} (h : step s = .refused r) :
    core.run (k + 1) s = .refused r := by
  have hstep : core.step s = .refused r := h
  simp only [Host.Core.run, hstep]

/-- A run that has ended is complete after any number of steps more (log 12). -/
theorem completeRun_of_final (h : s.outcome = .final) : CompleteRun k s s := by
  refine ⟨?_, h⟩
  induction k with
  | zero => rfl
  | succ k ih => rw [run_succ_of_next (step_final h), ih]

end Run

/-- Settles O22: each step that does not end the run leaves less, so the steps outlast what is
left. -/
theorem everyRunEnds : Obligations.EveryRunEnds := by
  intro s k ho hpc hk
  change s.stepsLeft < k at hk
  induction k generalizing s with
  | zero => exact absurd hk (Nat.not_lt_zero _)
  | succ k ih =>
    cases h : step s with
    | fault f => exact .inr (.inl ⟨f, run_succ_of_fault h⟩)
    | refused r => exact .inr (.inr ⟨r, run_succ_of_refused h⟩)
    | next t =>
      unfold CompleteRun
      rw [run_succ_of_next h]
      rcases step_uses_up ho hpc h with hf | ⟨ht, hle, hlt⟩
      · exact .inl ⟨t, completeRun_of_final hf⟩
      · exact ih t ht hle (by omega)

end Sys2Proof.Machine
end
